-- ==== Sys2Proof/Word.lean ====
section
/-! DEFINITION. The word types of the command interface (30_encoding.md R90, R92) and of the byte arrays
(10_state.md R21). -/

namespace Sys2Proof

/-- A header or argument word of a command packet: 32 bits, unsigned (R90, R92). -/
abbrev Word := BitVec 32

/-- One byte of a memory array (R21), a shadow register (R28), or the A or B field of a header (R91). -/
abbrev Byte := BitVec 8

/-- A framed command packet: the header word and then its argument words (R90). The interface supplies the
framing, so a packet may have any number of words. -/
abbrev Packet := List Word

end Sys2Proof
end

