-- ==== Sys2Proof/Machine/Memory.lean ====
section
/-! DEFINITION. A writable byte array (10_state.md R21) as a list of (offset, byte) cells in one canonical form:
offsets strictly rising, and no cell that holds what an unlisted offset reads as. Beside it, the little-endian
composition of a value from its bytes (20_memory.md R73). -/

namespace Sys2Proof.Machine

/-- A writable byte array: `ram` or `smram`. -/
abbrev Memory := List Host.Cell

/-- What an offset that is not listed reads as. The spec gives no contents at power-on (RAM_INIT is arbitrary,
D33): DESIGN CHOICE 0x00, the vector platform's RAM_INIT (log 2). Other contents are other lists. -/
def Memory.blank : Byte := 0

/-- ArrRead on a writable array (R21). -/
def Memory.read : Memory → Nat → Byte
  | [], _ => Memory.blank
  | (k, b) :: m, off => if off = k then b else Memory.read m off

/-- Adds a cell at its place in the rising order. -/
def Memory.put : Memory → Nat → Byte → Memory
  | [], off, b => [(off, b)]
  | (k, c) :: m, off, b => if off < k then (off, b) :: (k, c) :: m else (k, c) :: Memory.put m off b

/-- ArrWrite on a writable array (R21): the old cell goes, and the new one comes unless it is blank. -/
def Memory.write (m : Memory) (off : Nat) (b : Byte) : Memory :=
  if b = Memory.blank then m.filter (fun c => c.1 ≠ off)
  else Memory.put (m.filter (fun c => c.1 ≠ off)) off b

/-- The canonical form. -/
abbrev Memory.wf (m : Memory) : Prop :=
  m.Pairwise (fun c d => c.1 < d.1) ∧ ∀ c ∈ m, c.2 ≠ Memory.blank

/-- Every listed offset lies inside an array of `size` bytes. -/
abbrev Memory.below (m : Memory) (size : Nat) : Prop := ∀ c ∈ m, c.1 < size

/-- The little-endian value of a list of bytes, lowest byte first (R68, R73). -/
def leValue : List Byte → Nat
  | [] => 0
  | b :: bs => b.toNat + 256 * leValue bs

/-- Byte k of a data word: bits 8k+7:8k (R69). -/
def byteOf (v : Word) (k : Nat) : Byte := v.extractLsb' (8 * k) 8

end Sys2Proof.Machine
end

