-- ==== Sys2Proof/Syntax.lean ====
section
/-! DEFINITION. The 22 commands of the opcode map (30_encoding.md R97), one constructor each, and the field
codes their operands are written with (R93–R95). -/

namespace Sys2Proof

/-- An access policy (00_scope.md R9, 30_encoding.md R94). -/
inductive Policy where
  | internal | external | externalAny | disabled
deriving DecidableEq, Repr

/-- The class of a Region: which policies may route to it (10_state.md R24, 30_encoding.md R94). -/
inductive RegionClass where
  | internal | external | bypass
deriving DecidableEq, Repr

/-- The backing code BK (30_encoding.md R95). -/
inductive BackingCode where
  | ram | rom | smram | hooks
deriving DecidableEq, Repr

/-- An access width of 1, 2 or 4 bytes (20_memory.md R60, 30_encoding.md R93). -/
inductive Width where
  | byte | word | dword
deriving DecidableEq, Repr

/-- The originator of an access (20_memory.md R60). -/
inductive Agent where
  | cpu | bus
deriving DecidableEq, Repr

/-- The kind of an access (20_memory.md R60). -/
inductive Kind where
  | read | write
deriving DecidableEq, Repr

/-- A command with its fields, named as in R97. Argument words stay words (R92), an index in A stays a byte
(R91), since a value out of range is a legal encoding that the command answers with a status. -/
inductive Instr where
  /-- OP 0x01 (R111). -/
  | register (en : Bool) (cls : RegionClass) (bk : BackingCode) (dw : Bool) (base size wB : Word)
  /-- OP 0x02 (R112). -/
  | enable (h : Byte)
  /-- OP 0x03 (R113). -/
  | disable (h : Byte)
  /-- OP 0x04 (R114). -/
  | setBase (h : Byte) (base : Word)
  /-- OP 0x05 (R115). -/
  | setBacking (h : Byte) (bk : BackingCode) (dw : Bool) (wB : Word)
  /-- OP 0x06 (R130). -/
  | setPolicy (rp wp : Policy) (base size : Word)
  /-- OP 0x07 (R131). -/
  | getPolicy (addr : Word)
  /-- OP 0x08 (R134). -/
  | decode (n : Width) (kind : Kind) (ag : Agent) (addr : Word)
  /-- OP 0x09 (R135). -/
  | read (n : Width) (ag : Agent) (fetch : Bool) (addr : Word)
  /-- OP 0x0A (R136). -/
  | write (n : Width) (ag : Agent) (addr data : Word)
  /-- OP 0x10 (R155). -/
  | shadowWrite (reg value : Byte)
  /-- OP 0x11 (R156). -/
  | shadowRead (reg : Byte)
  /-- OP 0x12 (R157). -/
  | shadowRecalc
  /-- OP 0x20 (R170). -/
  | a20Set (src : Byte) (v : Bool)
  /-- OP 0x21 (R171). -/
  | a20Get
  /-- OP 0x30 (R182). -/
  | smramDisableAll
  /-- OP 0x31 (R183). -/
  | smramEnable (w : Byte) (ar aw sep : Bool) (host visible size : Word)
  /-- OP 0x32 (R184). -/
  | smramSetSmm (smm : Bool)
  /-- OP 0x40 (R201). -/
  | emsSetSlot (slot : Byte) (en : Bool) (page : Word)
  /-- OP 0x41 (R202). -/
  | emsSetMode (on : Bool)
  /-- OP 0x50 (R220). -/
  | invalidate
  /-- OP 0x51 (R221). -/
  | reset
deriving DecidableEq, Repr

end Sys2Proof
end

