-- ==== Sys2Proof/Config.lean ====
section
/-! DEFINITION. The implementation parameters (00_scope.md R5), the chipset description SHADOW_CFG
(42_shadow.md R150), the vector platform VP (95_test_vectors.md section 0), and the one free value of the
model, the answer of a hook device (20_memory.md R70).

DESIGN CHOICE (log 1): a model takes the parameters as arguments; here they are one record of plain data,
`Platform`, which the state carries and no step changes, so that a statement about every state is a statement
about every platform. -/

namespace Sys2Proof

/-- A policy pair `(rp, wp)` (R9). -/
structure PolicyPair where
  rp : Policy
  wp : Policy
deriving DecidableEq, Repr

/-- One policy entry for each granule (10_state.md R29), held as the places where the value changes, in rising
order: entry g is the value at the last place not above g, and INTERNAL before the first place (log 10). -/
abbrev PolicyTable := List (Nat × Policy)

/-- A selector: bit `bit` of shadow register `reg`, inverted when `inv` (R150). -/
structure Sel where
  reg : Nat
  bit : Nat
  inv : Bool
deriving DecidableEq, Repr

/-- A shadow window with the selectors of its read-enable and write-enable bits (R150). -/
structure ShadowWindow where
  base : Nat
  size : Nat
  rsel : Sel
  wsel : Sel
deriving DecidableEq, Repr

/-- SHADOW_CFG's `map : (er, ew) → (Policy, Policy)` as its table of four pairs (R150). -/
structure EnableMap where
  off : PolicyPair
  writeOnly : PolicyPair
  readOnly : PolicyPair
  on : PolicyPair
deriving DecidableEq, Repr

/-- A global-mode rule: while the selector evaluates to `val`, the windows listed get `pair` (R150). -/
structure GlobalRule where
  sel : Sel
  val : Bool
  wins : List Nat
  pair : PolicyPair
deriving DecidableEq, Repr

/-- The declarative description of a chipset's shadow registers (R150). -/
structure ShadowCfg where
  nSreg : Nat
  win : List ShadowWindow
  map : EnableMap
  glob : List GlobalRule
deriving DecidableEq, Repr

/-- The parameters of a model instance (R5). `Platform.wf` says which values are legal. -/
structure Platform where
  /-- ADDR_BITS. -/
  addrBits : Nat
  /-- RAM_SIZE. -/
  ramSize : Nat
  /-- ROM_SIZE. -/
  romSize : Nat
  /-- ROM_IMAGE: ROM byte k is the tile's byte `k mod length` (log 11); a tile of ROM_SIZE bytes is any image. -/
  romImage : List Byte
  /-- SMRAM_SIZE; 0 means no separate SMRAM. -/
  smramSize : Nat
  /-- RAM_INIT for `ram`: a byte that is not listed is 0x00, so a list in canonical form is any contents. -/
  ramInit : List Host.Cell
  /-- RAM_INIT for `smram`. -/
  smramInit : List Host.Cell
  /-- G, the Access-Policy granule in bytes. -/
  granule : Nat
  /-- REGION_ALIGN. -/
  regionAlign : Nat
  /-- N_REGIONS. -/
  nRegions : Nat
  /-- N_HOOKS. -/
  nHooks : Nat
  /-- HAS_DWORD. -/
  hasDword : Bool
  /-- N_SMRAM. -/
  nSmram : Nat
  /-- N_EMS. -/
  nEms : Nat
  /-- EMS_PAGE_SIZE. -/
  emsPageSize : Nat
  /-- EMS_PAGE_BITS. -/
  emsPageBits : Nat
  /-- EMS_VBASE[s]. -/
  emsVbase : List Nat
  /-- EMS_BACKING_BASE. -/
  emsBackingBase : Nat
  /-- SHADOW_CFG. -/
  shadow : ShadowCfg
  /-- RESET_POLICY, the read policies. -/
  resetRead : PolicyTable
  /-- RESET_POLICY, the write policies. -/
  resetWrite : PolicyTable
deriving DecidableEq, Repr

namespace Config

/-- The answer a hook device gives to the k-th hook read, before it is cut to the access width: a draw under no
law (R70, 93_implementation_defined.md U2). It has no body, so nothing can be proved of its value (log 3). -/
opaque hookDraw : Nat → Word

/-- DEFAULT_MAP (R153). -/
def defaultMap : EnableMap :=
  { off := ⟨.external, .disabled⟩
    writeOnly := ⟨.external, .internal⟩
    readOnly := ⟨.internal, .disabled⟩
    on := ⟨.internal, .internal⟩ }

/-- The read policies of the default RESET_POLICY (92_eei_decisions.md D17), for granule size g. -/
def defaultResetRead (g : Nat) : PolicyTable :=
  [(0xA0000 / g, .externalAny), (0xC0000 / g, .external), (0x100000 / g, .internal)]

/-- The write policies of the default RESET_POLICY (D17), for granule size g. -/
def defaultResetWrite (g : Nat) : PolicyTable :=
  [(0xA0000 / g, .externalAny), (0xC0000 / g, .disabled), (0x100000 / g, .internal)]

/-- Window i of EX1, i = 0 … 7: 16 KiB from 0xC0000 up (R158). -/
def ex1Window (i : Nat) : ShadowWindow :=
  { base := 0xC0000 + 0x4000 * i
    size := 0x4000
    rsel := ⟨0, i, false⟩
    wsel := ⟨1, i, false⟩ }

/-- EX1, the illustrative SHADOW_CFG of the test vectors (R158). It is no real chipset's layout. -/
def ex1 : ShadowCfg :=
  { nSreg := 3
    win := (List.range 8).map ex1Window ++
      [ { base := 0xE0000, size := 0x10000, rsel := ⟨2, 0, false⟩, wsel := ⟨2, 1, false⟩ },
        { base := 0xF0000, size := 0x10000, rsel := ⟨2, 2, false⟩, wsel := ⟨2, 3, false⟩ } ]
    map := defaultMap
    glob := [ { sel := ⟨2, 7, false⟩, val := true, wins := [8, 9], pair := ⟨.external, .internal⟩ } ] }

/-- The vector platform VP (95_test_vectors.md section 0). `State.reset` is the instance on it (log 1). -/
def vp : Platform :=
  { addrBits := 32
    ramSize := 0x1000000
    romSize := 0x10000
    romImage := (List.range 256).map (BitVec.ofNat 8)
    smramSize := 0x20000
    ramInit := []
    smramInit := []
    granule := 0x4000
    regionAlign := 0x1000
    nRegions := 16
    nHooks := 2
    hasDword := true
    nSmram := 2
    nEms := 4
    emsPageSize := 0x4000
    emsPageBits := 7
    emsVbase := [0xD0000, 0xD4000, 0xD8000, 0xDC000]
    emsBackingBase := 0x100000
    shadow := ex1
    resetRead := defaultResetRead 0x4000
    resetWrite := defaultResetWrite 0x4000 }

end Config

end Sys2Proof
end

