-- ==== Sys2Proof/Machine/PolicyTable.lean ====
section
/-! DEFINITION. The Access-Policy Table (10_state.md R29) and its write primitive (R30), over the list of the
places where the policy changes. A whole-space fill is then a few list cells, and equal tables are equal data
(log 10). -/

namespace Sys2Proof.Machine

/-- Entry g of a list of changes that starts from the running policy `d`. -/
def PolicyTable.getFrom (d : Policy) : PolicyTable → Nat → Policy
  | [], _ => d
  | (k, v) :: t, g => if k ≤ g then PolicyTable.getFrom v t g else d

/-- Entry g of the table (R29). -/
def PolicyTable.get (t : PolicyTable) (g : Nat) : Policy := PolicyTable.getFrom .internal t g

/-- The policy after the last of a list of changes that starts from `d`. -/
def PolicyTable.lastFrom (d : Policy) : PolicyTable → Policy
  | [] => d
  | (_, v) :: t => PolicyTable.lastFrom v t

/-- The change from policy `d` to policy `v` at place k; none when they are equal. -/
def PolicyTable.change (d : Policy) (k : Nat) (v : Policy) : PolicyTable :=
  if v = d then [] else [(k, v)]

/-- Entries lo … hi − 1 become v and the others stay (one array of R30's PolicyFill). -/
def PolicyTable.fill (t : PolicyTable) (lo hi : Nat) (v : Policy) : PolicyTable :=
  if lo < hi then
    t.takeWhile (fun c => c.1 < lo)
      ++ PolicyTable.change (PolicyTable.lastFrom .internal (t.takeWhile (fun c => c.1 < lo))) lo v
      ++ PolicyTable.change v hi (PolicyTable.get t hi)
      ++ t.dropWhile (fun c => c.1 ≤ hi)
  else t

/-- The canonical form of a list of changes that starts from `d`: places strictly rising, each a real change. -/
def PolicyTable.wfFrom (d : Policy) : PolicyTable → Bool
  | [] => true
  | (k, v) :: t => decide (v ≠ d) && t.all (fun c => decide (k < c.1)) && PolicyTable.wfFrom v t

/-- The canonical form of a table of `ng` granules. A change at `ng` ends the last entry: no entry of the table is
past it. -/
def PolicyTable.wf (t : PolicyTable) (ng : Nat) : Bool :=
  PolicyTable.wfFrom .internal t && t.all (fun c => decide (c.1 ≤ ng))

end Sys2Proof.Machine
end

