-- ==== Sys2Proof/WellFormed.lean ====
section
/-! DEFINITION. When a command is a legal encoding (30_encoding.md R98 items 4–7, as far as a typed command can
break them), and when a set of parameters is legal (00_scope.md R5, 42_shadow.md R151). -/

namespace Sys2Proof

/-- A width needs HAS_DWORD when it is 4 (R75, R98 item 5). -/
def Width.supported (hasDword : Bool) : Width → Bool
  | .byte => true
  | .word => true
  | .dword => hasDword

/-- DW may be 1 only with BK = 3 (R95, R98 item 6). -/
def BackingCode.allowsDw (bk : BackingCode) (dw : Bool) : Bool := !dw || bk == .hooks

/-- A command that has an encoding, on a platform with or without HAS_DWORD. -/
def Instr.wf (hasDword : Bool) : Instr → Bool
  | .register _ _ bk dw _ _ _ => bk.allowsDw dw
  | .setBacking _ bk dw _ => bk.allowsDw dw
  | .decode n _ _ _ => n.supported hasDword
  | .read n ag fetch _ => n.supported hasDword && (!fetch || ag == .cpu)   -- R98 item 7
  | .write n _ _ _ => n.supported hasDword
  | .enable _ => true
  | .disable _ => true
  | .setBase _ _ => true
  | .setPolicy _ _ _ _ => true
  | .getPolicy _ => true
  | .shadowWrite _ _ => true
  | .shadowRead _ => true
  | .shadowRecalc => true
  | .a20Set _ _ => true
  | .a20Get => true
  | .smramDisableAll => true
  | .smramEnable _ _ _ _ _ _ _ => true
  | .smramSetSmm _ => true
  | .emsSetSlot _ _ _ => true
  | .emsSetMode _ => true
  | .invalidate => true
  | .reset => true

/-- NG, the number of granules (R5). -/
def Platform.numGranules (p : Platform) : Nat := 2 ^ p.addrBits / p.granule

/-- A selector names a register of the description and one of its 8 bits (R150, R151). -/
def Sel.wf (n : Nat) (sel : Sel) : Bool := decide (sel.reg < n) && decide (sel.bit < 8)

/-- A window lies on granule edges inside the address space, and its selectors are legal (R151). -/
def ShadowWindow.wf (p : Platform) (w : ShadowWindow) : Bool :=
  decide (w.size > 0) && decide (w.base % p.granule = 0) && decide (w.size % p.granule = 0)
    && decide (w.base + w.size ≤ 2 ^ p.addrBits) && w.rsel.wf p.shadow.nSreg && w.wsel.wf p.shadow.nSreg

/-- Two windows have no address in common (R151). -/
def ShadowWindow.apart (v w : ShadowWindow) : Bool :=
  decide (v.base + v.size ≤ w.base) || decide (w.base + w.size ≤ v.base)

/-- No two windows of the list overlap (R151). -/
def ShadowWindow.allApart : List ShadowWindow → Bool
  | [] => true
  | w :: ws => ws.all (fun v => w.apart v) && ShadowWindow.allApart ws

/-- SHADOW_CFG is well formed (R151); N_SREG is at most 256 (R150). -/
def Platform.shadowWf (p : Platform) : Bool :=
  decide (p.shadow.nSreg ≤ 256) && p.shadow.win.all (fun w => w.wf p) && ShadowWindow.allApart p.shadow.win
    && p.shadow.glob.all (fun g =>
        g.sel.wf p.shadow.nSreg && g.wins.all (fun w => decide (w < p.shadow.win.length)))

/-- The address width, the granule and the Region alignment (R5). DESIGN CHOICE (log 20): R5 gives REGION_ALIGN no range, and
92_eei_decisions.md section 2 lets it be overridden only within R5's ranges; here every value above 0 is legal, a power of two
or not. -/
def Platform.spaceWf (p : Platform) : Bool :=
  decide (21 ≤ p.addrBits) && decide (p.addrBits ≤ 32)
    && (decide (p.granule = 0x1000) || decide (p.granule = 0x2000) || decide (p.granule = 0x4000))
    && decide (0 < p.regionAlign)

/-- The sizes of the arrays and the counts (R5); RAM_INIT is a list in canonical form inside its array. -/
def Platform.sizesWf (p : Platform) : Bool :=
  decide (0 < p.ramSize)
    && decide (Machine.Memory.wf p.ramInit) && decide (Machine.Memory.below p.ramInit p.ramSize)
    && decide (Machine.Memory.wf p.smramInit) && decide (Machine.Memory.below p.smramInit p.smramSize)
    && decide (1 ≤ p.nRegions) && decide (p.nRegions ≤ 256) && decide (1 ≤ p.nSmram) && decide (p.nSmram ≤ 256)

/-- The Page-Remap parameters (R5; 92_eei_decisions.md section 2). That a window base fits in ADDR_BITS bits
is read from the width of a Region's base (10_state.md R22): DEDUCED (log 18). -/
def Platform.emsWf (p : Platform) : Bool :=
  decide (1 ≤ p.nEms) && decide (p.nEms ≤ 256)
    && (decide (p.emsPageSize = 0x4000) || decide (p.emsPageSize = 0x8000))
    && decide (1 ≤ p.emsPageBits) && decide (p.emsPageBits ≤ 32)
    && decide (p.emsVbase.length = p.nEms)
    && p.emsVbase.all (fun b => decide (b % p.emsPageSize = 0) && decide (b < 2 ^ p.addrBits))

/-- RESET_POLICY is a table over the whole space in canonical form (R29). -/
def Platform.resetPolicyWf (p : Platform) : Bool :=
  Machine.PolicyTable.wf p.resetRead p.numGranules && Machine.PolicyTable.wf p.resetWrite p.numGranules

/-- Legal parameters. An ill-formed set is refused when a machine is instantiated (R151, log 18). -/
def Platform.wf (p : Platform) : Bool :=
  p.spaceWf && p.sizesWf && p.emsWf && p.shadowWf && p.resetPolicyWf

end Sys2Proof
end

