-- ==== Sys2Proof/Decode.lean ====
section
/-! DEFINITION. The opcode map (30_encoding.md R97), the total decoder of a packet (R98, R103), and the
encoder. Decoding reads no state of the block (R104), only the parameter HAS_DWORD. -/

namespace Sys2Proof

/-- The commands of the opcode map, without their fields (R97). -/
inductive Op where
  | register | enable | disable | setBase | setBacking
  | setPolicy | getPolicy | decode | read | write
  | shadowWrite | shadowRead | shadowRecalc
  | a20Set | a20Get
  | smramDisableAll | smramEnable | smramSetSmm
  | emsSetSlot | emsSetMode
  | invalidate | reset
deriving DecidableEq, Repr

/-- Every command of the map, in the order of R97. -/
def Op.all : List Op :=
  [.register, .enable, .disable, .setBase, .setBacking, .setPolicy, .getPolicy, .decode, .read, .write,
   .shadowWrite, .shadowRead, .shadowRecalc, .a20Set, .a20Get, .smramDisableAll, .smramEnable, .smramSetSmm,
   .emsSetSlot, .emsSetMode, .invalidate, .reset]

/-- The OP column of R97. -/
def Op.code : Op → Byte
  | .register => 0x01 | .enable => 0x02 | .disable => 0x03 | .setBase => 0x04 | .setBacking => 0x05
  | .setPolicy => 0x06 | .getPolicy => 0x07 | .decode => 0x08 | .read => 0x09 | .write => 0x0A
  | .shadowWrite => 0x10 | .shadowRead => 0x11 | .shadowRecalc => 0x12
  | .a20Set => 0x20 | .a20Get => 0x21
  | .smramDisableAll => 0x30 | .smramEnable => 0x31 | .smramSetSmm => 0x32
  | .emsSetSlot => 0x40 | .emsSetMode => 0x41
  | .invalidate => 0x50 | .reset => 0x51

/-- The K column of R97: how many argument words follow the header. -/
def Op.argWords : Op → Nat
  | .register => 3 | .enable => 0 | .disable => 0 | .setBase => 1 | .setBacking => 1
  | .setPolicy => 2 | .getPolicy => 1 | .decode => 1 | .read => 1 | .write => 2
  | .shadowWrite => 0 | .shadowRead => 0 | .shadowRecalc => 0
  | .a20Set => 0 | .a20Get => 0
  | .smramDisableAll => 0 | .smramEnable => 3 | .smramSetSmm => 0
  | .emsSetSlot => 1 | .emsSetMode => 0
  | .invalidate => 0 | .reset => 0

/-- The mask column of R97's table of match and mask values. -/
def Op.mask : Op → Word
  | .register => 0xFFC0FFFF | .enable => 0xFFFF00FF | .disable => 0xFFFF00FF | .setBase => 0xFFFF00FF
  | .setBacking => 0xFFC700FF | .setPolicy => 0xFFF0FFFF | .getPolicy => 0xFFFFFFFF | .decode => 0xFFF0FFFF
  | .read => 0xFFE4FFFF | .write => 0xFFF4FFFF
  | .shadowWrite => 0xFF0000FF | .shadowRead => 0xFFFF00FF | .shadowRecalc => 0xFFFFFFFF
  | .a20Set => 0xFFFE00FF | .a20Get => 0xFFFFFFFF
  | .smramDisableAll => 0xFFFFFFFF | .smramEnable => 0xFFF800FF | .smramSetSmm => 0xFFFEFFFF
  | .emsSetSlot => 0xFFFE00FF | .emsSetMode => 0xFFFEFFFF
  | .invalidate => 0xFFFFFFFF | .reset => 0xFFFFFFFF

/-- The match column of the same table. -/
def Op.pattern : Op → Word
  | .register => 0x00000001 | .enable => 0x00000002 | .disable => 0x00000003 | .setBase => 0x00000004
  | .setBacking => 0x00000005 | .setPolicy => 0x00000006 | .getPolicy => 0x00000007 | .decode => 0x00000008
  | .read => 0x00000009 | .write => 0x0000000A
  | .shadowWrite => 0x00000010 | .shadowRead => 0x00000011 | .shadowRecalc => 0x00000012
  | .a20Set => 0x00000020 | .a20Get => 0x00000021
  | .smramDisableAll => 0x00000030 | .smramEnable => 0x00000031 | .smramSetSmm => 0x00000032
  | .emsSetSlot => 0x00000040 | .emsSetMode => 0x00000041
  | .invalidate => 0x00000050 | .reset => 0x00000051

/-- The command with an opcode byte, if R97 has one (R98 item 1, R99). -/
def Op.ofCode (c : Byte) : Option Op := Op.all.find? (fun o => o.code == c)

/-- Header bits 7:0 (R91). -/
def opField (h : Word) : Byte := h.extractLsb' 0 8

/-- Header bits 15:8, the index A (R91). -/
def aField (h : Word) : Byte := h.extractLsb' 8 8

/-- Header bits 23:16, the field B (R91). -/
def bField (h : Word) : Byte := h.extractLsb' 16 8

/-- Bit i of B (R97: "B bit 0 is header bit 16"). -/
def bBit (h : Word) (i : Nat) : Bool := (bField h).getLsbD i

/-- The 2-bit field of B whose lower bit is bit i. -/
def bCode (h : Word) (i : Nat) : BitVec 2 := (bField h).extractLsb' i 2

/-- Why a packet is no command. Every one of them is ERR_ILLEGAL (R98); the items are R98's. -/
inductive Illegal where
  /-- A packet of no words has no header: item 2 (DEDUCED, log 19). -/
  | emptyPacket
  /-- Item 1. -/
  | unknownOpcode
  /-- Item 2. -/
  | wrongLength
  /-- Item 3. -/
  | reservedBits
  /-- Item 4, CLS = 3. -/
  | reservedClass
  /-- Item 4, WC = 3. -/
  | reservedWidth
  /-- Item 5. -/
  | dwordUnsupported
  /-- Item 6. -/
  | dwWithoutHooks
  /-- Item 7. -/
  | busFetch
deriving DecidableEq, Repr

/-- Policy code (R94). All four are legal. -/
def Policy.ofCode (c : BitVec 2) : Policy :=
  if c = 0 then .internal else if c = 1 then .external else if c = 2 then .externalAny else .disabled

/-- Class code CLS (R94). -/
def RegionClass.ofCode (c : BitVec 2) : Except Illegal RegionClass :=
  if c = 0 then .ok .internal else if c = 1 then .ok .external else if c = 2 then .ok .bypass
  else .error .reservedClass

/-- Backing code BK (R95). -/
def BackingCode.ofCode (c : BitVec 2) : BackingCode :=
  if c = 0 then .ram else if c = 1 then .rom else if c = 2 then .smram else .hooks

/-- Width code WC (R93, R98 items 4 and 5). -/
def Width.ofCode (hasDword : Bool) (c : BitVec 2) : Except Illegal Width :=
  if c = 0 then .ok .byte else if c = 1 then .ok .word
  else if c = 2 then (if hasDword then .ok .dword else .error .dwordUnsupported)
  else .error .reservedWidth

/-- Agent bit AG (R93). -/
def Agent.ofBit (b : Bool) : Agent := if b then .bus else .cpu

/-- The kind bit WR of DECODE: 1 is a write (R134). -/
def Kind.ofBit (b : Bool) : Kind := if b then .write else .read

/-- The fields of REGISTER (R97, R98 items 4 and 6). -/
def decodeRegister (h w1 w2 w3 : Word) : Except Illegal Instr :=
  match RegionClass.ofCode (bCode h 1) with
  | .error e => .error e
  | .ok cls =>
    if (BackingCode.ofCode (bCode h 3)).allowsDw (bBit h 5) then
      .ok (.register (bBit h 0) cls (BackingCode.ofCode (bCode h 3)) (bBit h 5) w1 w2 w3)
    else .error .dwWithoutHooks

/-- The fields of SET_BACKING (R97, R98 item 6). -/
def decodeSetBacking (h w1 : Word) : Except Illegal Instr :=
  if (BackingCode.ofCode (bCode h 3)).allowsDw (bBit h 5) then
    .ok (.setBacking (aField h) (BackingCode.ofCode (bCode h 3)) (bBit h 5) w1)
  else .error .dwWithoutHooks

/-- The fields of DECODE (R97, R98 items 4 and 5). -/
def decodeDecode (hasDword : Bool) (h w1 : Word) : Except Illegal Instr :=
  match Width.ofCode hasDword (bCode h 0) with
  | .error e => .error e
  | .ok n => .ok (.decode n (Kind.ofBit (bBit h 2)) (Agent.ofBit (bBit h 3)) w1)

/-- The fields of READ (R97, R98 items 4, 5 and 7). -/
def decodeRead (hasDword : Bool) (h w1 : Word) : Except Illegal Instr :=
  match Width.ofCode hasDword (bCode h 0) with
  | .error e => .error e
  | .ok n =>
    if bBit h 4 && bBit h 3 then .error .busFetch
    else .ok (.read n (Agent.ofBit (bBit h 3)) (bBit h 4) w1)

/-- The fields of WRITE (R97, R98 items 4 and 5). -/
def decodeWrite (hasDword : Bool) (h w1 w2 : Word) : Except Illegal Instr :=
  match Width.ofCode hasDword (bCode h 0) with
  | .error e => .error e
  | .ok n => .ok (.write n (Agent.ofBit (bBit h 3)) w1 w2)

/-- The fields of a command whose opcode, length and reserved bits are right (R97). -/
def decodeFields (hasDword : Bool) (o : Op) (h w1 w2 w3 : Word) : Except Illegal Instr :=
  match o with
  | .register => decodeRegister h w1 w2 w3
  | .enable => .ok (.enable (aField h))
  | .disable => .ok (.disable (aField h))
  | .setBase => .ok (.setBase (aField h) w1)
  | .setBacking => decodeSetBacking h w1
  | .setPolicy => .ok (.setPolicy (Policy.ofCode (bCode h 0)) (Policy.ofCode (bCode h 2)) w1 w2)
  | .getPolicy => .ok (.getPolicy w1)
  | .decode => decodeDecode hasDword h w1
  | .read => decodeRead hasDword h w1
  | .write => decodeWrite hasDword h w1 w2
  | .shadowWrite => .ok (.shadowWrite (aField h) (bField h))
  | .shadowRead => .ok (.shadowRead (aField h))
  | .shadowRecalc => .ok .shadowRecalc
  | .a20Set => .ok (.a20Set (aField h) (bBit h 0))
  | .a20Get => .ok .a20Get
  | .smramDisableAll => .ok .smramDisableAll
  | .smramEnable => .ok (.smramEnable (aField h) (bBit h 0) (bBit h 1) (bBit h 2) w1 w2 w3)
  | .smramSetSmm => .ok (.smramSetSmm (bBit h 0))
  | .emsSetSlot => .ok (.emsSetSlot (aField h) (bBit h 0) w1)
  | .emsSetMode => .ok (.emsSetMode (bBit h 0))
  | .invalidate => .ok .invalidate
  | .reset => .ok .reset

/-- A packet is one of the commands of R97 with its fields, or illegal by R98 (R103). -/
def decode (hasDword : Bool) : Packet → Except Illegal Instr
  | [] => .error .emptyPacket
  | h :: args =>
    match Op.ofCode (opField h) with
    | none => .error .unknownOpcode
    | some o =>
      if args.length ≠ o.argWords then .error .wrongLength
      else if h &&& o.mask ≠ o.pattern then .error .reservedBits
      else decodeFields hasDword o h (args.getD 0 0) (args.getD 1 0) (args.getD 2 0)

/-- The policy code of a policy (R94). -/
def Policy.code : Policy → BitVec 2
  | .internal => 0 | .external => 1 | .externalAny => 2 | .disabled => 3

/-- The class code of a class (R94). -/
def RegionClass.code : RegionClass → BitVec 2
  | .internal => 0 | .external => 1 | .bypass => 2

/-- The backing code (R95). -/
def BackingCode.code : BackingCode → BitVec 2
  | .ram => 0 | .rom => 1 | .smram => 2 | .hooks => 3

/-- The width code (R93). -/
def Width.code : Width → BitVec 2
  | .byte => 0 | .word => 1 | .dword => 2

/-- The agent bit (R93). -/
def Agent.bit : Agent → Bool
  | .cpu => false | .bus => true

/-- The bit WR (R134). -/
def Kind.bit : Kind → Bool
  | .read => false | .write => true

/-- A flag as one bit of a field. -/
def flag (b : Bool) : BitVec 1 := BitVec.ofBool b

/-- The header RSV = 0, B, A, OP (R91). -/
def header (o : Op) (a b : Byte) : Word := (0#8 ++ b ++ a ++ o.code : BitVec 32)

/-- The B field DW[5] BK[4:3] CLS[2:1] EN[0] of REGISTER (R97). -/
def registerB (en : Bool) (cls : RegionClass) (bk : BackingCode) (dw : Bool) : Byte :=
  (0#2 ++ flag dw ++ bk.code ++ cls.code ++ flag en : BitVec 8)

/-- The B field DW[5] BK[4:3] of SET_BACKING (R97). -/
def backingB (bk : BackingCode) (dw : Bool) : Byte := (0#2 ++ flag dw ++ bk.code ++ 0#3 : BitVec 8)

/-- The B field WP[3:2] RP[1:0] of SET_POLICY (R97). -/
def policyB (rp wp : Policy) : Byte := (0#4 ++ wp.code ++ rp.code : BitVec 8)

/-- The B field F[4] AG[3] WR[2] WC[1:0] of the access commands (R97); WR is DECODE's and F is READ's. -/
def accessB (n : Width) (wr ag f : Bool) : Byte := (0#3 ++ flag f ++ flag ag ++ flag wr ++ n.code : BitVec 8)

/-- The B field SEP[2] AW[1] AR[0] of SMRAM_ENABLE (R97). -/
def smramB (ar aw sep : Bool) : Byte := (0#5 ++ flag sep ++ flag aw ++ flag ar : BitVec 8)

/-- A B field with one flag in bit 0 (R97). -/
def flagB (b : Bool) : Byte := (0#7 ++ flag b : BitVec 8)

/-- The packet of a command, from R91, R93–R95 and R97. -/
def encode : Instr → Packet
  | .register en cls bk dw base size wB => [header .register 0 (registerB en cls bk dw), base, size, wB]
  | .enable h => [header .enable h 0]
  | .disable h => [header .disable h 0]
  | .setBase h base => [header .setBase h 0, base]
  | .setBacking h bk dw wB => [header .setBacking h (backingB bk dw), wB]
  | .setPolicy rp wp base size => [header .setPolicy 0 (policyB rp wp), base, size]
  | .getPolicy addr => [header .getPolicy 0 0, addr]
  | .decode n kind ag addr => [header .decode 0 (accessB n kind.bit ag.bit false), addr]
  | .read n ag fetch addr => [header .read 0 (accessB n false ag.bit fetch), addr]
  | .write n ag addr data => [header .write 0 (accessB n false ag.bit false), addr, data]
  | .shadowWrite reg value => [header .shadowWrite reg value]
  | .shadowRead reg => [header .shadowRead reg 0]
  | .shadowRecalc => [header .shadowRecalc 0 0]
  | .a20Set src v => [header .a20Set src (flagB v)]
  | .a20Get => [header .a20Get 0 0]
  | .smramDisableAll => [header .smramDisableAll 0 0]
  | .smramEnable w ar aw sep host visible size => [header .smramEnable w (smramB ar aw sep), host, visible, size]
  | .smramSetSmm smm => [header .smramSetSmm 0 (flagB smm)]
  | .emsSetSlot slot en page => [header .emsSetSlot slot (flagB en), page]
  | .emsSetMode on => [header .emsSetMode 0 (flagB on)]
  | .invalidate => [header .invalidate 0 0]
  | .reset => [header .reset 0 0]

/-- How many argument words the opcode of a header asks for; none for an unknown opcode. -/
def argWordsOf (h : Word) : Nat :=
  match Op.ofCode (opField h) with
  | some o => o.argWords
  | none => 0

/-- The packet whose bits are w, bit 0 the least significant bit of the header and argument word k from bit
32k up; bits from nbits up are 0. The framing gives it the length its opcode asks for (R90). -/
def packetOf (nbits w : Nat) : Packet :=
  (List.range (argWordsOf (BitVec.ofNat 32 (w % 2 ^ nbits)) + 1)).map
    (fun k => BitVec.ofNat 32 (w % 2 ^ nbits / 2 ^ (32 * k)))

/-- The command the decoder reads from the bits w of a table row, on the vector platform. -/
def decodeTableWord (nbits w : Nat) : Option Instr :=
  match decode Config.vp.hasDword (packetOf nbits w) with
  | .ok i => some i
  | .error _ => none

end Sys2Proof
end

