-- ==== Sys2Proof/Machine/State.lean ====
section
/-! DEFINITION. Every piece of state the spec gives the block (10_state.md R20), the parameters it runs on
(00_scope.md R5), its host channels (60_exceptions.md R244), and the state at power-on (R44, 46_control.md
R222). Addresses, sizes, offsets and counters are unbounded naturals, as R6, R26, R37 and R38 have them. -/

namespace Sys2Proof.Machine

/-- The name of a byte array (R21). -/
inductive Arr where
  | ram | rom | smram
deriving DecidableEq, Repr

/-- What answers an access routed to a Region (R25). -/
inductive Backing where
  /-- Address a maps to byte `off + (a − base)` of the array. -/
  | direct (arr : Arr) (off : Nat)
  /-- Hook set h; `dword` says that it has double-word hooks. -/
  | hooks (h : Nat) (dword : Bool)
deriving DecidableEq, Repr

/-- A Region record (R22). -/
structure Region where
  valid : Bool
  base : Nat
  size : Nat
  enabled : Bool
  gen : Nat
  cls : RegionClass
  backing : Backing
deriving DecidableEq, Repr

/-- A region id (R23): general, SMRAM-owned or EMS-owned. -/
inductive RegionId where
  | gen (i : Nat)
  | smr (w : Nat)
  | ems (s : Nat)
deriving DecidableEq, Repr

/-- The Region table in its three partitions (R23). -/
structure RegionTable where
  gen : List Region
  smr : List Region
  ems : List Region
deriving DecidableEq, Repr

/-- The three A20 source latches (R31): a20_src[0], [1] and [2]. -/
structure A20Sources where
  kbc : Bool
  alt : Bool
  port : Bool
deriving DecidableEq, Repr

/-- The registers of an SMRAM window (R32). -/
structure SmramWindow where
  active : Bool
  host : Word
  visible : Word
  size : Word
  allowR : Bool
  allowW : Bool
  sep : Bool
deriving DecidableEq, Repr

/-- The registers of a Page-Remap slot (R34). -/
structure EmsSlot where
  enabled : Bool
  page : Word
deriving DecidableEq, Repr

/-- An entry of the event log (R36). -/
inductive Event where
  /-- HOOK_RD(h, a, off, n, v). -/
  | hookRd (h a off : Nat) (n : Width) (v : Word)
  /-- HOOK_WR(h, a, off, n, v). -/
  | hookWr (h a off : Nat) (n : Width) (v : Word)
  /-- OOR(kind, ag, a, n). -/
  | oor (kind : Kind) (ag : Agent) (a : Nat) (n : Width)
  /-- INVAL(k), the k-th Invalidation Bus call. -/
  | inval (k : Nat)
deriving DecidableEq, Repr

/-- The kind of the access a fault record names (R39). -/
inductive FaultKind where
  | read | write | fetch
deriving DecidableEq, Repr

/-- STALE_MAP(pos, kind, a_in) (R39). -/
structure StaleMap where
  pos : Nat
  kind : FaultKind
  aIn : Word
deriving DecidableEq, Repr

/-- Why an access is dropped (R66). -/
inductive FillReason where
  | noRegion | policyDisabled | outOfRange
deriving DecidableEq, Repr

/-- A routing decision (R66); `a` is the address after the A20 mask. -/
inductive Route where
  | direct (id : RegionId) (arr : Arr) (off a : Nat)
  | hook (id : RegionId) (h a offR : Nat)
  | fill (reason : FillReason) (a : Nat)
deriving DecidableEq, Repr

/-- The status of a result record (R100, R231). -/
inductive Status where
  | ok | errIllegal | errRange | errInvalid | errFull | fault
deriving DecidableEq, Repr

/-- The result fields a command returns beside its status (R100). -/
inductive ResultData where
  | none
  | handle (i : Nat)
  | policies (rp wp : Policy)
  | route (r : Route)
  /-- READ's value, zero-extended to 32 bits. -/
  | value (v : Word)
  /-- SHADOW_READ's value. -/
  | byteValue (b : Byte)
  /-- A20_GET: effective_a20, and `{a20_src[2], a20_src[1], a20_src[0]}`. -/
  | a20 (effective : Bool) (src : BitVec 3)
deriving DecidableEq, Repr

/-- A result record (R100). -/
structure Result where
  status : Status
  data : ResultData
deriving DecidableEq, Repr

/-- The reasons for which the machine itself would stop. There are none: the block never traps (R230), a
decode problem is a defined fallback, and the one fault, STALE_MAP, is taken: it is recorded in the state and
answered with status FAULT, as every later command is (R234, R235; log 7). Nobody raises one; safe. -/
inductive Fault
deriving DecidableEq, Repr

/-- Why no next state is given. -/
inductive Refusal where
  /-- Raised by `exec` for a command that has no meaning yet; safe, nothing can be proved of its effect. No arm
  raises it. -/
  | notModelled (mnemonic : String)
  /-- Raised by `State.instantiate` for parameters that are not well formed: "A model refuses an ill-formed
  SHADOW_CFG at instantiation" (42_shadow.md R151); safe, no machine comes to be. No step raises it. -/
  | illFormedPlatform
deriving DecidableEq, Repr

/-- The state of the block (R20), with the model's own fields last. -/
structure State where
  /-- Main RAM, RAM_SIZE bytes (R21). -/
  ram : List Host.Cell
  /-- The ROM as its tile (R21, log 11); never written. -/
  rom : List Byte
  /-- The separate SMRAM, SMRAM_SIZE bytes (R21). -/
  smram : List Host.Cell
  /-- The Region table (R22, R23). -/
  rgn : RegionTable
  /-- The generation counter (R26). -/
  genCtr : Nat
  /-- The read policies (R29). -/
  rpol : PolicyTable
  /-- The write policies (R29). -/
  wpol : PolicyTable
  /-- The shadow-control registers (R28). -/
  sreg : List Byte
  /-- The A20 source latches (R31). -/
  a20Src : A20Sources
  /-- The gate's authoritative bit (R31). -/
  effectiveA20 : Bool
  /-- The SMRAM window registers (R32). -/
  smw : List SmramWindow
  /-- The latch of the CPU's System-Management Mode (R33). -/
  smm : Bool
  /-- The "EMS window active" mode (R34). -/
  emsMode : Bool
  /-- The Page-Remap slot registers (R34). -/
  emsSlot : List EmsSlot
  /-- The mapping changed since the last Invalidation Bus call (R35). -/
  stale : Bool
  /-- The count of Invalidation Bus calls (R37). -/
  invalCount : Nat
  /-- The event log, oldest first (R36). -/
  events : List Event
  /-- The fault record; `none` is NONE (R39). -/
  fault : Option StaleMap
  /-- The command position (R38). -/
  cp : Nat
  /-- The model's own: the parameters of this instance (R5, R45); no step changes them (log 1). -/
  plat : Platform
  /-- The model's own: the host's packets not yet executed, oldest first (R244, log 5). -/
  cmds : List Packet
  /-- The model's own: the result record of the latest command (R100, R244, log 6). -/
  result : Option Result
  /-- The model's own: how many hook answers have been drawn (R70, log 3). -/
  draws : Nat
deriving DecidableEq, Repr

/-- An unregistered general Region (R44). -/
def Region.unregistered : Region :=
  { valid := false, base := 0, size := 0, enabled := false, gen := 0, cls := .internal
    backing := .direct .ram 0 }

/-- An SMRAM-owned Region at reset (R44). -/
def Region.smramOwned : Region :=
  { valid := true, base := 0, size := 0, enabled := false, gen := 0, cls := .internal
    backing := .direct .ram 0 }

/-- An EMS-owned Region at reset, with its window at `vbase` (R44). -/
def Region.emsOwned (p : Platform) (vbase : Nat) : Region :=
  { valid := true, base := vbase, size := p.emsPageSize, enabled := false, gen := 0, cls := .bypass
    backing := .direct .ram p.emsBackingBase }

/-- An SMRAM window at reset: all fields 0 (R32, R44). -/
def SmramWindow.cleared : SmramWindow :=
  { active := false, host := 0, visible := 0, size := 0, allowR := false, allowW := false, sep := false }

/-- A Page-Remap slot at reset: all fields 0 (R34, R44). -/
def EmsSlot.cleared : EmsSlot := { enabled := false, page := 0 }

/-- The state of an instance on platform p right after power-on: every component at the value of R44, `ram` and
`smram` at RAM_INIT, `cp` at 0 (R222). -/
def State.powerOn (p : Platform) : State :=
  { ram := p.ramInit
    rom := p.romImage
    smram := p.smramInit
    rgn :=
      { gen := List.replicate p.nRegions Region.unregistered
        smr := List.replicate p.nSmram Region.smramOwned
        ems := (List.range p.nEms).map (fun s => Region.emsOwned p (p.emsVbase.getD s 0)) }
    genCtr := 0
    rpol := p.resetRead
    wpol := p.resetWrite
    sreg := List.replicate p.shadow.nSreg 0
    a20Src := { kbc := false, alt := false, port := false }
    effectiveA20 := false
    smw := List.replicate p.nSmram SmramWindow.cleared
    smm := false
    emsMode := false
    emsSlot := List.replicate p.nEms EmsSlot.cleared
    stale := false
    invalCount := 0
    events := []
    fault := none
    cp := 0
    plat := p
    cmds := []
    result := none
    draws := 0 }

/-- The machine right after power-on, on the vector platform VP (R222; DESIGN CHOICE of the platform, log 1).
The host has sent no command yet, so no packet waits. -/
def State.reset : State := State.powerOn Config.vp

end Sys2Proof.Machine
end

