-- ==== Sys2Proof/Machine/Operands.lean ====
section
/-! DEFINITION. What the operands of the commands mean: widths (20_memory.md R60, R72), backings (30_encoding.md
R95), the validity predicates (40_region.md R110, 41_policy_access.md R130), the A20 sources (30_encoding.md R96)
and the handles (40_region.md R112). -/

namespace Sys2Proof.Machine

/-- The n of a width code (R93). -/
def widthBytes : Width → Nat
  | .byte => 1
  | .word => 2
  | .dword => 4

/-- `Ones(n)`, what a dropped read returns (R72). -/
def ones : Width → Word
  | .byte => 0xFF
  | .word => 0xFFFF
  | .dword => 0xFFFFFFFF

/-- The low n bytes of a word, zero-extended: `v mod 2^(8n)` (R92, R136). -/
def lowBytes (n : Width) (v : Word) : Word := BitVec.ofNat 32 (v.toNat % 2 ^ (8 * widthBytes n))

/-- ValidRange (R110). -/
def validRange (p : Platform) (base size : Nat) : Bool :=
  decide (size > 0) && decide (base % p.regionAlign = 0) && decide (size % p.regionAlign = 0)
    && decide (base + size ≤ 2 ^ p.addrBits)

/-- ValidBacking (R110): SMRAM backing needs an SMRAM array, a hook number must name a hook set. -/
def validBacking (p : Platform) : BackingCode → Word → Bool
  | .ram, _ => true
  | .rom, _ => true
  | .smram, _ => decide (p.smramSize > 0)
  | .hooks, wB => decide (wB.toNat < p.nHooks)

/-- Backing(BK, wB, DW) (R95). -/
def backingOf : BackingCode → Word → Bool → Backing
  | .ram, wB, _ => .direct .ram wB.toNat
  | .rom, wB, _ => .direct .rom wB.toNat
  | .smram, wB, _ => .direct .smram wB.toNat
  | .hooks, wB, dw => .hooks wB.toNat dw

/-- The `dword` bit of a backing: the set has double-word hooks (R25). -/
def backingDword : Backing → Bool
  | .direct _ _ => false
  | .hooks _ dw => dw

/-- A non-empty range on granule edges inside the address space (R130, R183). -/
def granuleRange (p : Platform) (base size : Nat) : Bool :=
  decide (size ≠ 0) && decide (base % p.granule = 0) && decide (size % p.granule = 0)
    && decide (base + size ≤ 2 ^ p.addrBits)

/-- a20_src[k] (R31, R96); there is no source above 2. -/
def a20Get (src : A20Sources) : Nat → Bool
  | 0 => src.kbc
  | 1 => src.alt
  | 2 => src.port
  | _ => false

/-- a20_src[k] <- v (R170). -/
def a20Put (src : A20Sources) (k : Nat) (v : Bool) : A20Sources :=
  match k with
  | 0 => { src with kbc := v }
  | 1 => { src with alt := v }
  | 2 => { src with port := v }
  | _ => src

/-- `{a20_src[2], a20_src[1], a20_src[0]}` (R171). -/
def a20Bits (src : A20Sources) : BitVec 3 :=
  BitVec.ofBool src.port ++ BitVec.ofBool src.alt ++ BitVec.ofBool src.kbc

/-- The numeric region id (R23). -/
def regionNumber : RegionId → Nat
  | .gen i => i
  | .smr w => 0x100 + w
  | .ems s => 0x200 + s

/-- The numeric value of a status in the result record (R231). -/
def statusCode : Status → Nat
  | .ok => 0
  | .errIllegal => 1
  | .errRange => 2
  | .errInvalid => 3
  | .errFull => 4
  | .fault => 5

end Sys2Proof.Machine
end

