-- ==== Sys2Proof/Machine/Flags.lean ====
section
/-! DEFINITION. The flags the block derives: `effective_a20` (10_state.md R31) and `stale` (10_state.md R35). -/

namespace Sys2Proof.Machine

/-- `a20_src[0] OR a20_src[1] OR a20_src[2]` (R31). -/
def a20Or (src : A20Sources) : Bool := src.kbc || src.alt || src.port

/-- A decode-relevant field of a Region changed (R35): its enabled flag, or any other field of a Region that is
enabled when the command ends. -/
def regionChanged (before after : Region) : Bool :=
  (before.enabled != after.enabled) || (after.enabled && decide (before ≠ after))

/-- Some Region of a partition changed. -/
def partitionChanged (before after : List Region) : Bool :=
  (before.zip after).any (fun c => regionChanged c.1 c.2)

/-- A command that took the block from `before` to `after` changed the value of a decode-relevant field (R35).
The policy tables are in canonical form, so they are equal data exactly when every entry is equal. -/
def mapChanged (before after : State) : Bool :=
  partitionChanged before.rgn.gen after.rgn.gen || partitionChanged before.rgn.smr after.rgn.smr
    || partitionChanged before.rgn.ems after.rgn.ems
    || decide (before.rpol ≠ after.rpol) || decide (before.wpol ≠ after.wpol)
    || (before.effectiveA20 != after.effectiveA20)

/-- `stale <- 1` when the command changed the mapping (R35). A command that ends with `invalidate()` needs no
call of this: the invalidation would clear the flag again (log 9). -/
def State.noteMapChange (before after : State) : State :=
  { after with stale := after.stale || mapChanged before after }

end Sys2Proof.Machine
end

