-- ==== Sys2Proof/Machine/Ops.lean ====
section
/-! DEFINITION. The named operations of the pseudocode (00_scope.md R7): the Region table, the arrays, the policy
table, the decoder, reads and writes, the Invalidation Bus, the result record and the stale-map fault. -/

namespace Sys2Proof.Machine

/-! ## Bookkeeping -/

/-- `log(e)` (R36). -/
def State.log (s : State) (e : Event) : State := { s with events := s.events ++ [e] }

/-- `invalidate()`: one Invalidation Bus call (R81). -/
def State.invalidate (s : State) : State :=
  { s with
    stale := false
    invalCount := s.invalCount + 1
    events := s.events ++ [Event.inval (s.invalCount + 1)] }

/-- `return status(OK, d)`, and `cp <- cp + 1` (R38, R100). -/
def State.done (s : State) (d : ResultData) : State :=
  { s with cp := s.cp + 1, result := some { status := .ok, data := d } }

/-- `return status(e)` for an error status: only `cp <- cp + 1` beside it (R233). -/
def State.fail (s : State) (e : Status) : State :=
  { s with cp := s.cp + 1, result := some { status := e, data := .none } }

/-! ## The fault (R234, R235) -/

/-- Taking the stale-map fault: the record is written, status FAULT is returned, `cp` is not advanced and no
access is performed (R234). There is no vector and no saved register (R230), and there is no return from it: "There
is no handler, so there is no trap return" (R235). -/
def State.takeStaleMap (s : State) (kind : FaultKind) (aIn : Word) : State :=
  { s with
    fault := some { pos := s.cp, kind := kind, aIn := aIn }
    result := some { status := .fault, data := .none } }

/-- The block is halted (R235). -/
def State.halted (s : State) : Bool := s.fault.isSome

/-- What a command does after a fault: status FAULT, no effect, `cp` stays (R235). -/
def State.haltedCommand (s : State) : State :=
  { s with result := some { status := .fault, data := .none } }

/-- What an illegal packet does: status ERR_ILLEGAL, and only `cp <- cp + 1` beside it (R98). -/
def State.illegalCommand (s : State) : State := s.fail .errIllegal

/-- The check a READ or WRITE begins with (R133, R234): a CPU access while the mapping is stale. -/
def State.staleAccess (s : State) (ag : Agent) : Bool := decide (ag = .cpu) && s.stale

/-! ## The Region table -/

/-- `rgn[id]` (R7). An id that names no record reads as an unregistered Region (log 17). -/
def State.rgnAt (s : State) : RegionId → Region
  | .gen i => s.rgn.gen.getD i Region.unregistered
  | .smr w => s.rgn.smr.getD w Region.unregistered
  | .ems e => s.rgn.ems.getD e Region.unregistered

/-- Writes the record `rgn[id]`. -/
def State.setRgn (s : State) (id : RegionId) (r : Region) : State :=
  match id with
  | .gen i => { s with rgn := { s.rgn with gen := s.rgn.gen.set i r } }
  | .smr w => { s with rgn := { s.rgn with smr := s.rgn.smr.set w r } }
  | .ems e => { s with rgn := { s.rgn with ems := s.rgn.ems.set e r } }

/-- `next_gen()` without its result: the counter goes up by one, and the new value is the generation (R26). -/
def State.bumpGen (s : State) : State := { s with genCtr := s.genCtr + 1 }

/-- EnableRgn(id): only a false-to-true change takes a generation (R27). -/
def State.enableRgn (s : State) (id : RegionId) : State :=
  if (s.rgnAt id).enabled then s
  else s.bumpGen.setRgn id { s.rgnAt id with enabled := true, gen := s.genCtr + 1 }

/-- DisableRgn(id) (R27). -/
def State.disableRgn (s : State) (id : RegionId) : State :=
  s.setRgn id { s.rgnAt id with enabled := false }

/-- The records of a partition with their ids, from index k up. -/
def withIds (mk : Nat → RegionId) : Nat → List Region → List (RegionId × Region)
  | _, [] => []
  | k, r :: rs => (mk k, r) :: withIds mk (k + 1) rs

/-- Every record with its id: the decoder searches all three partitions alike (R23). -/
def State.regions (s : State) : List (RegionId × Region) :=
  withIds .gen 0 s.rgn.gen ++ withIds .smr 0 s.rgn.smr ++ withIds .ems 0 s.rgn.ems

/-- `h < N_REGIONS ∧ rgn[h].valid = 1`: the handle names a registered general Region (R112). -/
def State.registered (s : State) (h : Byte) : Bool :=
  decide (h.toNat < s.plat.nRegions) && (s.rgnAt (.gen h.toNat)).valid

/-- The lowest handle that is not registered (R111). -/
def State.freeHandle (s : State) : Option Nat := s.rgn.gen.findIdx? (fun r => !r.valid)

/-! ## The arrays (R21) -/

/-- `Size(arr)`. -/
def State.arrSize (s : State) : Arr → Nat
  | .ram => s.plat.ramSize
  | .rom => s.plat.romSize
  | .smram => s.plat.smramSize

/-- Byte k of a ROM given as a tile (log 11). -/
def romByte (tile : List Byte) (k : Nat) : Byte := tile.getD (k % tile.length) 0

/-- `ArrRead(arr, off)`. -/
def State.arrRead (s : State) (arr : Arr) (off : Nat) : Byte :=
  match arr with
  | .ram => Memory.read s.ram off
  | .rom => romByte s.rom off
  | .smram => Memory.read s.smram off

/-- `ArrWrite(arr, off, b)`. The ROM is never written: a write routed to it is discarded (R69, D13). -/
def State.arrWrite (s : State) (arr : Arr) (off : Nat) (b : Byte) : State :=
  match arr with
  | .ram => { s with ram := Memory.write s.ram off b }
  | .rom => s
  | .smram => { s with smram := Memory.write s.smram off b }

/-- The n bytes of an array from `off` up. -/
def State.arrBytes (s : State) (arr : Arr) : Nat → Nat → List Byte
  | _, 0 => []
  | off, n + 1 => s.arrRead arr off :: s.arrBytes arr (off + 1) n

/-- A little-endian read of n bytes (R68, R73). -/
def State.arrReadLe (s : State) (arr : Arr) (off n : Nat) : Word :=
  BitVec.ofNat 32 (leValue (s.arrBytes arr off n))

/-- The first n bytes of v written from `off` up, byte k of v at `off + k` (R69, R73). -/
def State.arrWriteLe (s : State) (arr : Arr) (off : Nat) (v : Word) : Nat → State
  | 0 => s
  | n + 1 => (s.arrWriteLe arr off v n).arrWrite arr (off + n) (byteOf v n)

/-! ## The policy table -/

/-- PolicyFill(base, size, rp, wp) (R30). -/
def State.policyFill (s : State) (base size : Nat) (pair : PolicyPair) : State :=
  { s with
    rpol := PolicyTable.fill s.rpol (base / s.plat.granule) ((base + size) / s.plat.granule) pair.rp
    wpol := PolicyTable.fill s.wpol (base / s.plat.granule) ((base + size) / s.plat.granule) pair.wp }

/-- `rpol[g]` for a read, `wpol[g]` for a write (R62). -/
def State.policyAt (s : State) : Kind → Nat → Policy
  | .read, g => PolicyTable.get s.rpol g
  | .write, g => PolicyTable.get s.wpol g

/-! ## The decoder -/

/-- Bit 20 cleared (R61). -/
def clearBit20 (a : Nat) : Nat := a - (a / 0x100000 % 2) * 0x100000

/-- A20Mask(a_in): reduced to the bus width, then bit 20 forced to 0 unless the gate is open (R61). -/
def State.a20Mask (s : State) (aIn : Word) : Nat :=
  if s.effectiveA20 then aIn.toNat % 2 ^ s.plat.addrBits
  else clearBit20 (aIn.toNat % 2 ^ s.plat.addrBits)

/-- A BUS agent sees EXTERNAL as DISABLED (R63). -/
def agentPolicy : Agent → Policy → Policy
  | .bus, .external => .disabled
  | .bus, p => p
  | .cpu, p => p

/-- The policy of an access that starts at the masked address a: the start granule's, as the agent sees it
(R62, R63). -/
def State.accessPolicy (s : State) (ag : Agent) (kind : Kind) (a : Nat) : Policy :=
  agentPolicy ag (s.policyAt kind (a / s.plat.granule))

/-- Eligible(c, p) (R64). -/
def eligible : RegionClass → Policy → Bool
  | .bypass, _ => true
  | .internal, p => decide (p = .internal)
  | .external, p => decide (p = .external) || decide (p = .externalAny)

/-- The Region claims address a under policy p: the four conditions of R65. -/
def claims (p : Policy) (a : Nat) (r : Region) : Bool :=
  r.valid && r.enabled && decide (r.base ≤ a) && decide (a < r.base + r.size) && eligible r.cls p

/-- The record with the greatest generation; of equals, which a reachable state does not have (R43 item 2), the
first (log 16). -/
def newest : List (RegionId × Region) → Option (RegionId × Region)
  | [] => none
  | c :: cs =>
    match newest cs with
    | none => some c
    | some d => if c.2.gen < d.2.gen then some d else some c

/-- The claimant of the masked address a under policy p (R65). -/
def State.claimant (s : State) (p : Policy) (a : Nat) : Option (RegionId × Region) :=
  newest (s.regions.filter (fun c => claims p a c.2))

/-- The route through the claimant: its backing, and the drop of an access past the end of an array (R66, R67). -/
def State.routeTo (s : State) (a : Nat) (n : Width) (id : RegionId) (r : Region) : Route :=
  match r.backing with
  | .direct arr o =>
    if o + (a - r.base) + widthBytes n > s.arrSize arr then .fill .outOfRange a
    else .direct id arr (o + (a - r.base)) a
  | .hooks h _ => .hook id h a (a - r.base)

/-- The routing of the masked address a (R66). -/
def State.routeAt (s : State) (ag : Agent) (a : Nat) (n : Width) (kind : Kind) : Route :=
  match s.claimant (s.accessPolicy ag kind a) a with
  | none => .fill (if s.accessPolicy ag kind a = .disabled then .policyDisabled else .noRegion) a
  | some c => s.routeTo a n c.1 c.2

/-- Route(ag, a_in, n, kind) (R66). -/
def State.route (s : State) (ag : Agent) (aIn : Word) (n : Width) (kind : Kind) : Route :=
  s.routeAt ag (s.a20Mask aIn) n kind

/-! ## Hooks (R70) -/

/-- One HookRead call and its log entry. The answer is a free draw, cut to the width (log 3). -/
def State.hookRead1 (s : State) (h a off : Nat) (n : Width) : State × Word :=
  ({ s with
      draws := s.draws + 1
      events := s.events ++ [Event.hookRd h a off n (lowBytes n (Config.hookDraw s.draws))] },
    lowBytes n (Config.hookDraw s.draws))

/-- One HookWrite call: its log entry is its only effect in the block. -/
def State.hookWrite1 (s : State) (h a off : Nat) (n : Width) (v : Word) : State :=
  s.log (.hookWr h a off n v)

/-- A hook access of width 4 to a set without double-word hooks is two word calls (R70). -/
def hookSplit (n : Width) (dword : Bool) : Bool := decide (n = .dword) && !dword

/-- HookAccess for a read: the low word first (R70). -/
def State.hookRead (s : State) (h : Nat) (dword : Bool) (a off : Nat) (n : Width) : State × Word :=
  if hookSplit n dword then
    (((s.hookRead1 h a off .word).1.hookRead1 h (a + 2) (off + 2) .word).1,
      (s.hookRead1 h a off .word).2
        + ((s.hookRead1 h a off .word).1.hookRead1 h (a + 2) (off + 2) .word).2 * 0x10000)
  else s.hookRead1 h a off n

/-- HookAccess for a write: the low word first (R70). -/
def State.hookWrite (s : State) (h : Nat) (dword : Bool) (a off : Nat) (n : Width) (v : Word) : State :=
  if hookSplit n dword then
    (s.hookWrite1 h a off .word (v &&& 0xFFFF)).hookWrite1 h (a + 2) (off + 2) .word (v >>> 16)
  else s.hookWrite1 h a off n v

/-! ## Reads and writes (R68, R69) -/

/-- An access past the end of an array is logged (R67); the other drops are silent. -/
def State.noteDrop (s : State) (kind : Kind) (ag : Agent) (n : Width) (reason : FillReason) (a : Nat) : State :=
  match reason with
  | .outOfRange => s.log (.oor kind ag a n)
  | .noRegion => s
  | .policyDisabled => s

/-- MemRead(ag, a_in, n) (R68). -/
def State.memRead (s : State) (ag : Agent) (aIn : Word) (n : Width) : State × Word :=
  match s.route ag aIn n .read with
  | .fill reason a => (s.noteDrop .read ag n reason a, ones n)
  | .direct _ arr off _ => (s, s.arrReadLe arr off (widthBytes n))
  | .hook id h a offR => s.hookRead h (backingDword (s.rgnAt id).backing) a offR n

/-- MemWrite(ag, a_in, n, v) (R69). -/
def State.memWrite (s : State) (ag : Agent) (aIn : Word) (n : Width) (v : Word) : State :=
  match s.route ag aIn n .write with
  | .fill reason a => s.noteDrop .write ag n reason a
  | .direct _ arr off _ => s.arrWriteLe arr off v (widthBytes n)
  | .hook id h a offR => s.hookWrite h (backingDword (s.rgnAt id).backing) a offR n v

/-! ## Loops and instances -/

/-- `for i in 0 .. n−1: f(i)`, in that order. -/
def forRange (n : Nat) (f : Nat → State → State) (s : State) : State :=
  (List.range n).foldl (fun t i => f i t) s

/-- A new model instance at power-on (R222); parameters that are not well formed are refused (R151, log 18). -/
def State.instantiate (p : Platform) : Host.Outcome State Fault Refusal :=
  if p.wf then .next (State.powerOn p) else .refused .illFormedPlatform

end Sys2Proof.Machine
end

