-- ==== Sys2Proof/Machine/A20Commands.lean ====
section
/-! DEFINITION. The A20 gate (43_a20.md): A20_SET, A20_GET. -/

namespace Sys2Proof.Machine

/-- The gate after source k has been written with v: the latch, and the OR recomputed (R170, R31). -/
def State.setA20 (s : State) (k : Nat) (v : Bool) : State :=
  { s with a20Src := a20Put s.a20Src k v, effectiveA20 := a20Or (a20Put s.a20Src k v) }

/-- A20_SET (R170): one invalidation when the source's value changes, none otherwise (C2). -/
def execA20Set (src : Byte) (v : Bool) (s : State) : Host.Outcome State Fault Refusal :=
  if src.toNat > 2 then .next (s.fail .errRange)
  else if a20Get s.a20Src src.toNat != v then .next ((s.setA20 src.toNat v).invalidate.done .none)
  else .next (((s.noteMapChange (s.setA20 src.toNat v))).done .none)

/-- A20_GET (R171). -/
def execA20Get (s : State) : Host.Outcome State Fault Refusal :=
  .next (s.done (.a20 s.effectiveA20 (a20Bits s.a20Src)))

end Sys2Proof.Machine
end

