-- ==== Sys2Proof/Machine/AccessCommands.lean ====
section
/-! DEFINITION. The Access-Policy Table and access commands (41_policy_access.md): SET_POLICY, GET_POLICY,
DECODE, READ, WRITE. -/

namespace Sys2Proof.Machine

/-- SET_POLICY (R130). -/
def execSetPolicy (rp wp : Policy) (base size : Word) (s : State) : Host.Outcome State Fault Refusal :=
  if granuleRange s.plat base.toNat size.toNat then
    .next ((s.noteMapChange (s.policyFill base.toNat size.toNat { rp := rp, wp := wp })).done .none)
  else .next (s.fail .errInvalid)

/-- The granule GET_POLICY reads: not masked by A20 (R131). -/
def State.policyGranule (s : State) (addr : Word) : Nat := addr.toNat % 2 ^ s.plat.addrBits / s.plat.granule

/-- GET_POLICY (R131). -/
def execGetPolicy (addr : Word) (s : State) : Host.Outcome State Fault Refusal :=
  .next (s.done (.policies (s.policyAt .read (s.policyGranule addr)) (s.policyAt .write (s.policyGranule addr))))

/-- DECODE (R134): the route, and nothing else (R71). -/
def execDecode (n : Width) (kind : Kind) (ag : Agent) (addr : Word) (s : State) :
    Host.Outcome State Fault Refusal :=
  .next (s.done (.route (s.route ag addr n kind)))

/-- The kind a fault record gives a READ: FETCH when F = 1 (R234). -/
def readFaultKind (fetch : Bool) : FaultKind := if fetch then .fetch else .read

/-- READ (R135). F changes nothing but the kind in a fault record. -/
def execRead (n : Width) (ag : Agent) (fetch : Bool) (addr : Word) (s : State) :
    Host.Outcome State Fault Refusal :=
  if s.staleAccess ag then .next (s.takeStaleMap (readFaultKind fetch) addr)
  else .next ((s.memRead ag addr n).1.done (.value (s.memRead ag addr n).2))

/-- WRITE (R136): only the low n bytes of the data word are used. -/
def execWrite (n : Width) (ag : Agent) (addr data : Word) (s : State) : Host.Outcome State Fault Refusal :=
  if s.staleAccess ag then .next (s.takeStaleMap .write addr)
  else .next ((s.memWrite ag addr n (lowBytes n data)).done .none)

end Sys2Proof.Machine
end

