-- ==== Sys2Proof/Machine/ControlCommands.lean ====
section
/-! DEFINITION. Invalidation and block control (46_control.md): INVALIDATE, RESET. -/

namespace Sys2Proof.Machine

/-- INVALIDATE (R220). -/
def execInvalidate (s : State) : Host.Outcome State Fault Refusal := .next (s.invalidate.done .none)

/-- Every component but `ram`, `smram` and `cp` at its reset value (R221). The host's side of the block is not
the block's state and stays: the packets still to come, the parameters, and the count of hook answers drawn
(log 12). -/
def State.resetBlock (s : State) : State :=
  { State.powerOn s.plat with
    ram := s.ram, smram := s.smram, cp := s.cp, cmds := s.cmds, result := s.result, draws := s.draws }

/-- RESET (R221): `cp` advances as for every command. -/
def execReset (s : State) : Host.Outcome State Fault Refusal := .next (s.resetBlock.done .none)

end Sys2Proof.Machine
end

