-- ==== Sys2Proof/Machine/EmsCommands.lean ====
section
/-! DEFINITION. The EMS Page-Remap Window (45_ems.md): EMS_SET_SLOT, EMS_SET_MODE. -/

namespace Sys2Proof.Machine

/-- `ems_slot[k]` (R34). -/
def State.slot (s : State) (k : Nat) : EmsSlot := s.emsSlot.getD k EmsSlot.cleared

/-- `ems_slot[k] <- v`. -/
def State.setSlot (s : State) (k : Nat) (v : EmsSlot) : State := { s with emsSlot := s.emsSlot.set k v }

/-- The Region of slot k with its registers applied, disabled (R200: "disabling the losing side"). -/
def State.slotRegion (s : State) (k : Nat) : Region :=
  { s.rgnAt (.ems k) with
    base := s.plat.emsVbase.getD k 0
    size := s.plat.emsPageSize
    cls := .bypass
    backing := .direct .ram (s.plat.emsBackingBase + (s.slot k).page.toNat * s.plat.emsPageSize)
    enabled := false }

/-- EmsApply(k) (R200): the Region disabled, then enabled with a fresh generation if the mode and the slot are
on. -/
def State.emsApply (k : Nat) (s : State) : State :=
  if s.emsMode && (s.slot k).enabled then (s.setRgn (.ems k) (s.slotRegion k)).enableRgn (.ems k)
  else s.setRgn (.ems k) (s.slotRegion k)

/-- EMS_SET_SLOT (R201). -/
def execEmsSetSlot (slot : Byte) (en : Bool) (page : Word) (s : State) : Host.Outcome State Fault Refusal :=
  if decide (slot.toNat ≥ s.plat.nEms) || decide (page.toNat ≥ 2 ^ s.plat.emsPageBits) then
    .next (s.fail .errRange)
  else
    .next ((State.emsApply slot.toNat
      (s.setSlot slot.toNat { enabled := en, page := page })).invalidate.done .none)

/-- EMS_SET_MODE (R202): every slot re-applied in order, one invalidation. -/
def execEmsSetMode (on : Bool) (s : State) : Host.Outcome State Fault Refusal :=
  .next ((forRange s.plat.nEms State.emsApply { s with emsMode := on }).invalidate.done .none)

end Sys2Proof.Machine
end

