-- ==== Sys2Proof/Machine/RegionCommands.lean ====
section
/-! DEFINITION. The Region registry commands (40_region.md): REGISTER, ENABLE, DISABLE, SET_BASE, SET_BACKING.
None of them calls `invalidate()` (R116). -/

namespace Sys2Proof.Machine

/-- The record REGISTER writes (R111). -/
def newRegion (cls : RegionClass) (bk : BackingCode) (dw : Bool) (base size wB : Word) : Region :=
  { valid := true, base := base.toNat, size := size.toNat, enabled := false, gen := 0, cls := cls
    backing := backingOf bk wB dw }

/-- The mapping after REGISTER has taken handle i (R111). -/
def State.registerAt (s : State) (i : Nat) (en : Bool) (r : Region) : State :=
  if en then (s.setRgn (.gen i) r).enableRgn (.gen i) else s.setRgn (.gen i) r

/-- REGISTER (R111). -/
def execRegister (en : Bool) (cls : RegionClass) (bk : BackingCode) (dw : Bool) (base size wB : Word)
    (s : State) : Host.Outcome State Fault Refusal :=
  if !validRange s.plat base.toNat size.toNat || !validBacking s.plat bk wB then .next (s.fail .errInvalid)
  else
    match s.freeHandle with
    | none => .next (s.fail .errFull)
    | some i =>
      .next ((s.noteMapChange (s.registerAt i en (newRegion cls bk dw base size wB))).done (.handle i))

/-- ENABLE (R112). -/
def execEnable (h : Byte) (s : State) : Host.Outcome State Fault Refusal :=
  if s.registered h then .next ((s.noteMapChange (s.enableRgn (.gen h.toNat))).done .none)
  else .next (s.fail .errRange)

/-- DISABLE (R113). -/
def execDisable (h : Byte) (s : State) : Host.Outcome State Fault Refusal :=
  if s.registered h then .next ((s.noteMapChange (s.disableRgn (.gen h.toNat))).done .none)
  else .next (s.fail .errRange)

/-- SET_BASE (R114): enabled, gen, class and backing are kept. -/
def execSetBase (h : Byte) (base : Word) (s : State) : Host.Outcome State Fault Refusal :=
  if !s.registered h then .next (s.fail .errRange)
  else if !validRange s.plat base.toNat (s.rgnAt (.gen h.toNat)).size then .next (s.fail .errInvalid)
  else
    .next ((s.noteMapChange
      (s.setRgn (.gen h.toNat) { s.rgnAt (.gen h.toNat) with base := base.toNat })).done .none)

/-- SET_BACKING (R115): base, size, enabled, gen and class are kept. -/
def execSetBacking (h : Byte) (bk : BackingCode) (dw : Bool) (wB : Word) (s : State) :
    Host.Outcome State Fault Refusal :=
  if !s.registered h then .next (s.fail .errRange)
  else if !validBacking s.plat bk wB then .next (s.fail .errInvalid)
  else
    .next ((s.noteMapChange
      (s.setRgn (.gen h.toNat) { s.rgnAt (.gen h.toNat) with backing := backingOf bk wB dw })).done .none)

end Sys2Proof.Machine
end

