-- ==== Sys2Proof/Machine/ShadowCommands.lean ====
section
/-! DEFINITION. The Shadow Controller (42_shadow.md): SHADOW_WRITE, SHADOW_READ, SHADOW_RECALC. It writes only the
Access-Policy Table. -/

namespace Sys2Proof.Machine

/-- `eval(sel)` (R152). -/
def evalSel (sreg : List Byte) (sel : Sel) : Bool := (sreg.getD sel.reg 0).getLsbD sel.bit ^^ sel.inv

/-- `map(er, ew)` (R150). -/
def enableMapAt (m : EnableMap) : Bool → Bool → PolicyPair
  | false, false => m.off
  | false, true => m.writeOnly
  | true, false => m.readOnly
  | true, true => m.on

/-- The pair of the first global-mode rule that applies to window i (R152). -/
def globalPair (sreg : List Byte) (i : Nat) : List GlobalRule → Option PolicyPair
  | [] => none
  | g :: gs => if g.wins.contains i && (evalSel sreg g.sel == g.val) then some g.pair else globalPair sreg i gs

/-- WindowPair(i), for window `w` of index i (R152): the global-mode rules first, the window's bits only when no
rule applies. -/
def windowPair (cfg : ShadowCfg) (sreg : List Byte) (i : Nat) (w : ShadowWindow) : PolicyPair :=
  match globalPair sreg i cfg.glob with
  | some pair => pair
  | none => enableMapAt cfg.map (evalSel sreg w.rsel) (evalSel sreg w.wsel)

/-- The policy of window i written afresh (R154). -/
def State.refreshWindow (i : Nat) (s : State) : State :=
  match s.plat.shadow.win[i]? with
  | some w => s.policyFill w.base w.size (windowPair s.plat.shadow s.sreg i w)
  | none => s

/-- ShadowRecalc(): every window in order, then exactly one invalidation (R154). -/
def State.shadowRecalc (s : State) : State :=
  (forRange s.plat.shadow.win.length State.refreshWindow s).invalidate

/-- SHADOW_WRITE (R155). -/
def execShadowWrite (reg value : Byte) (s : State) : Host.Outcome State Fault Refusal :=
  if reg.toNat < s.plat.shadow.nSreg then
    .next (State.done (State.shadowRecalc { s with sreg := s.sreg.set reg.toNat value }) .none)
  else .next (s.fail .errRange)

/-- SHADOW_READ (R156). -/
def execShadowRead (reg : Byte) (s : State) : Host.Outcome State Fault Refusal :=
  if reg.toNat < s.plat.shadow.nSreg then .next (s.done (.byteValue (s.sreg.getD reg.toNat 0)))
  else .next (s.fail .errRange)

/-- SHADOW_RECALC (R157). -/
def execShadowRecalc (s : State) : Host.Outcome State Fault Refusal := .next (s.shadowRecalc.done .none)

end Sys2Proof.Machine
end

