-- ==== Sys2Proof/Machine/SmramCommands.lean ====
section
/-! DEFINITION. The SMRAM Overlay Manager (44_smram.md): SMRAM_DISABLE_ALL, SMRAM_ENABLE, SMRAM_SET_SMM. -/

namespace Sys2Proof.Machine

/-- `smw[w]` (R32). -/
def State.window (s : State) (w : Nat) : SmramWindow := s.smw.getD w SmramWindow.cleared

/-- `smw[w] <- v`. -/
def State.setWindow (s : State) (w : Nat) (v : SmramWindow) : State := { s with smw := s.smw.set w v }

/-- `vis_r(w)` for a window's registers (R180). -/
def visibleRead (smm : Bool) (W : SmramWindow) : Bool := smm || W.allowR

/-- `vis_w(w)` (R180). -/
def visibleWrite (smm : Bool) (W : SmramWindow) : Bool := smm || W.allowW

/-- The Region of an active window is enabled exactly when the window is visible for some kind (R181). -/
def shown (smm : Bool) (W : SmramWindow) : Bool := W.active && (visibleRead smm W || visibleWrite smm W)

/-- The policy pair of an active window's range: INTERNAL for a visible kind, EXTERNAL for a hidden one (R181). -/
def windowPolicy (smm : Bool) (W : SmramWindow) : PolicyPair :=
  { rp := if visibleRead smm W then .internal else .external
    wp := if visibleWrite smm W then .internal else .external }

/-- The array behind a window (R181, D26). -/
def windowBacking (W : SmramWindow) : Backing := .direct (if W.sep then .smram else .ram) W.host.toNat

/-- The first four assignments of SmrApply(w): base, size, class and backing of the window's Region (R181). -/
def State.placeWindow (s : State) (w : Nat) : State :=
  s.setRgn (.smr w)
    { s.rgnAt (.smr w) with
      base := (s.window w).visible.toNat
      size := (s.window w).size.toNat
      cls := .internal
      backing := windowBacking (s.window w) }

/-- The enabling or disabling of the window's Region (R181). -/
def State.showWindow (s : State) (w : Nat) : State :=
  if shown s.smm (s.window w) then s.enableRgn (.smr w) else s.disableRgn (.smr w)

/-- The policy of an active window's range (R181). -/
def State.fillWindow (s : State) (w : Nat) : State :=
  if (s.window w).active then
    s.policyFill (s.window w).visible.toNat (s.window w).size.toNat (windowPolicy s.smm (s.window w))
  else s

/-- SmrApply(w) (R181). -/
def State.smrApply (w : Nat) (s : State) : State := ((s.placeWindow w).showWindow w).fillWindow w

/-- Window w hidden: its Region disabled and `active` cleared; its other registers stay (R182). -/
def State.hideWindow (w : Nat) (s : State) : State :=
  (s.disableRgn (.smr w)).setWindow w { s.window w with active := false }

/-- SMRAM_DISABLE_ALL (R182). -/
def execSmramDisableAll (s : State) : Host.Outcome State Fault Refusal :=
  .next ((s.noteMapChange (forRange s.plat.nSmram State.hideWindow s)).done .none)

/-- The checks of SMRAM_ENABLE on its arguments (R183): granule edges, and SEP needs a separate SMRAM. -/
def smramArgsOk (p : Platform) (sep : Bool) (visible size : Word) : Bool :=
  granuleRange p visible.toNat size.toNat && (!sep || decide (p.smramSize ≠ 0))

/-- The registers SMRAM_ENABLE writes (R183). -/
def newWindow (ar aw sep : Bool) (host visible size : Word) : SmramWindow :=
  { active := true, host := host, visible := visible, size := size, allowR := ar, allowW := aw, sep := sep }

/-- The mapping after window w has been established: its Region is disabled first, so that a visible window
takes a fresh generation (R183). -/
def State.establishWindow (s : State) (w : Nat) (W : SmramWindow) : State :=
  State.smrApply w ((s.setWindow w W).disableRgn (.smr w))

/-- SMRAM_ENABLE (R183). -/
def execSmramEnable (w : Byte) (ar aw sep : Bool) (host visible size : Word) (s : State) :
    Host.Outcome State Fault Refusal :=
  if w.toNat ≥ s.plat.nSmram then .next (s.fail .errRange)
  else if !smramArgsOk s.plat sep visible size then .next (s.fail .errInvalid)
  else
    .next ((s.noteMapChange (s.establishWindow w.toNat (newWindow ar aw sep host visible size))).done .none)

/-- Window w recomputed, if it is active (R184). -/
def State.refreshSmram (w : Nat) (s : State) : State :=
  if (s.window w).active then State.smrApply w s else s

/-- SMRAM_SET_SMM (R184): the latch, every active window in index order, one invalidation. -/
def execSmramSetSmm (smm : Bool) (s : State) : Host.Outcome State Fault Refusal :=
  .next ((forRange s.plat.nSmram State.refreshSmram { s with smm := smm }).invalidate.done .none)

end Sys2Proof.Machine
end

