-- ==== Sys2Proof/Machine/Dispatch.lean ====
section
/-! DEFINITION. The meaning of each command (30_encoding.md R97, last column). -/

namespace Sys2Proof.Machine

def exec (i : Instr) (s : State) : Host.Outcome State Fault Refusal :=
  match i with
  | .register en cls bk dw base size wB => Sys2Proof.Machine.execRegister en cls bk dw base size wB s
  | .enable h => Sys2Proof.Machine.execEnable h s
  | .disable h => Sys2Proof.Machine.execDisable h s
  | .setBase h base => Sys2Proof.Machine.execSetBase h base s
  | .setBacking h bk dw wB => Sys2Proof.Machine.execSetBacking h bk dw wB s
  | .setPolicy rp wp base size => Sys2Proof.Machine.execSetPolicy rp wp base size s
  | .getPolicy addr => Sys2Proof.Machine.execGetPolicy addr s
  | .decode n kind ag addr => Sys2Proof.Machine.execDecode n kind ag addr s
  | .read n ag fetch addr => Sys2Proof.Machine.execRead n ag fetch addr s
  | .write n ag addr data => Sys2Proof.Machine.execWrite n ag addr data s
  | .shadowWrite reg value => Sys2Proof.Machine.execShadowWrite reg value s
  | .shadowRead reg => Sys2Proof.Machine.execShadowRead reg s
  | .shadowRecalc => Sys2Proof.Machine.execShadowRecalc s
  | .a20Set src v => Sys2Proof.Machine.execA20Set src v s
  | .a20Get => Sys2Proof.Machine.execA20Get s
  | .smramDisableAll => Sys2Proof.Machine.execSmramDisableAll s
  | .smramEnable w ar aw sep host visible size => Sys2Proof.Machine.execSmramEnable w ar aw sep host visible size s
  | .smramSetSmm smm => Sys2Proof.Machine.execSmramSetSmm smm s
  | .emsSetSlot slot en page => Sys2Proof.Machine.execEmsSetSlot slot en page s
  | .emsSetMode on => Sys2Proof.Machine.execEmsSetMode on s
  | .invalidate => Sys2Proof.Machine.execInvalidate s
  | .reset => Sys2Proof.Machine.execReset s

end Sys2Proof.Machine
end

