-- ==== Sys2Proof/Machine/Sequencer.lean ====
section
/-! DEFINITION. How the block takes its next command from the stream (10_state.md R38, 30_encoding.md R90, R98,
46_control.md R222, 60_exceptions.md R235). -/

namespace Sys2Proof.Machine

/-- One packet, already taken from the stream. A halted block answers FAULT and does nothing, whatever the packet
is (R235, log 8); an illegal packet is answered with ERR_ILLEGAL (R98); a command is executed. -/
def runPacket (run : Instr → State → Host.Outcome State Fault Refusal) (pkt : Packet) (s : State) :
    Host.Outcome State Fault Refusal :=
  if s.halted then .next s.haltedCommand
  else
    match decode s.plat.hasDword pkt with
    | .error _ => .next s.illegalCommand
    | .ok i => run i s

/-- The next packet of the stream. While the host has sent none the block waits and nothing changes (R222,
log 5). -/
def runNext (run : Instr → State → Host.Outcome State Fault Refusal) (s : State) :
    Host.Outcome State Fault Refusal :=
  match s.cmds with
  | [] => .next s
  | pkt :: rest => runPacket run pkt { s with cmds := rest }

/-- The stream with a packet put in front of it. -/
def State.withPacket (s : State) (pkt : Packet) : State := { s with cmds := pkt :: s.cmds }

end Sys2Proof.Machine
end

