-- ==== Sys2Proof/Machine/Step.lean ====
section
/-! DEFINITION. One step of the block: one command of the stream (00_scope.md R8). -/

namespace Sys2Proof.Machine

/-- One step: the next packet is taken from the stream and executed (R8, R38). -/
def step (s : State) : Host.Outcome State Fault Refusal := runNext exec s

/-- The command whose bits are w put where the next step takes its packet (log 5). -/
def State.withFetchWord (s : State) (nbits w : Nat) : State := s.withPacket (packetOf nbits w)

end Sys2Proof.Machine
end

