-- ==== Sys2Proof/Machine/Assembly.lean ====
section
/-! DEFINITION. The assembler syntax of the commands (30_encoding.md R101), the pseudo-instructions and their
expansions (R102), and the execution of a sequence of commands. -/

namespace Sys2Proof.Machine

/-- Numbers are written in hexadecimal with `0x` (R101 allows decimal too). -/
def asmNum (n : Nat) : String := "0x" ++ String.ofList (Nat.toDigits 16 n)

/-- Operands separated by commas. -/
def asmList (xs : List String) : String := String.intercalate ", " xs

/-- A flag that is 0 is omitted (R101). -/
def asmFlag (name : String) (b : Bool) : List String := if b then [name] else []

/-- The name of a class (R101). -/
def asmClass : RegionClass → String
  | .internal => "INTERNAL" | .external => "EXTERNAL" | .bypass => "BYPASS"

/-- The name of a policy (R9). -/
def asmPolicy : Policy → String
  | .internal => "INTERNAL" | .external => "EXTERNAL" | .externalAny => "EXTERNAL_ANY" | .disabled => "DISABLED"

/-- The backing operand (R101). -/
def asmBacking (bk : BackingCode) (wB : Word) (dw : Bool) : String :=
  match bk with
  | .ram => "RAM:" ++ asmNum wB.toNat
  | .rom => "ROM:" ++ asmNum wB.toNat
  | .smram => "SMRAM:" ++ asmNum wB.toNat
  | .hooks => "HOOK:" ++ asmNum wB.toNat ++ (if dw then ":DW" else "")

/-- The width suffix n (R101). -/
def asmWidth : Width → String
  | .byte => "1" | .word => "2" | .dword => "4"

/-- The kind suffix of DECODE (R101). -/
def asmKind : Kind → String
  | .read => "R" | .write => "W"

/-- The agent suffix (R101). -/
def asmAgent : Agent → String
  | .cpu => "" | .bus => ".BUS"

/-- The name of an A20 source; a number where R96 has no name. -/
def asmSource (src : Byte) : String :=
  if src = 0 then "KBC" else if src = 1 then "ALT" else if src = 2 then "PORT" else asmNum src.toNat

/-- A one-bit operand. -/
def asmBit (b : Bool) : String := if b then "1" else "0"

/-- A command in the assembler's syntax (R101). -/
def asmText : Instr → String
  | .register en cls bk dw base size wB =>
    "REGISTER " ++ asmList ([asmNum base.toNat, asmNum size.toNat, asmClass cls, asmBacking bk wB dw] ++ asmFlag "EN" en)
  | .enable h => "ENABLE " ++ asmNum h.toNat
  | .disable h => "DISABLE " ++ asmNum h.toNat
  | .setBase h base => "SET_BASE " ++ asmList [asmNum h.toNat, asmNum base.toNat]
  | .setBacking h bk dw wB => "SET_BACKING " ++ asmList [asmNum h.toNat, asmBacking bk wB dw]
  | .setPolicy rp wp base size =>
    "SET_POLICY " ++ asmList [asmNum base.toNat, asmNum size.toNat, asmPolicy rp, asmPolicy wp]
  | .getPolicy addr => "GET_POLICY " ++ asmNum addr.toNat
  | .decode n kind ag addr => "DECODE." ++ asmKind kind ++ "." ++ asmWidth n ++ asmAgent ag ++ " " ++ asmNum addr.toNat
  | .read n ag fetch addr =>
    "READ." ++ asmWidth n ++ asmAgent ag ++ (if fetch then ".FETCH" else "") ++ " " ++ asmNum addr.toNat
  | .write n ag addr data =>
    "WRITE." ++ asmWidth n ++ asmAgent ag ++ " " ++ asmList [asmNum addr.toNat, asmNum data.toNat]
  | .shadowWrite reg value => "SHADOW_WRITE " ++ asmList [asmNum reg.toNat, asmNum value.toNat]
  | .shadowRead reg => "SHADOW_READ " ++ asmNum reg.toNat
  | .shadowRecalc => "SHADOW_RECALC"
  | .a20Set src v => "A20_SET " ++ asmList [asmSource src, asmBit v]
  | .a20Get => "A20_GET"
  | .smramDisableAll => "SMRAM_DISABLE_ALL"
  | .smramEnable w ar aw sep host visible size =>
    "SMRAM_ENABLE " ++ asmList ([asmNum w.toNat, asmNum host.toNat, asmNum visible.toNat, asmNum size.toNat]
      ++ asmFlag "AR" ar ++ asmFlag "AW" aw ++ asmFlag "SEP" sep)
  | .smramSetSmm smm => "SMRAM_SET_SMM " ++ asmBit smm
  | .emsSetSlot slot en page => "EMS_SET_SLOT " ++ asmList [asmNum slot.toNat, asmBit en, asmNum page.toNat]
  | .emsSetMode on => "EMS_SET_MODE " ++ asmBit on
  | .invalidate => "INVALIDATE"
  | .reset => "RESET"

/-- The pseudo-instructions (R102). -/
inductive Pseudo where
  | relocate (h : Byte) (base : Word)
  | raise (h : Byte)
  | smramReplace (w : Byte) (ar aw sep : Bool) (host visible size : Word)
  | commit
deriving DecidableEq, Repr

/-- The sequence a pseudo-instruction stands for (R102). -/
def expandPseudo : Pseudo → List Instr
  | .relocate h base => [.disable h, .setBase h base, .enable h, .invalidate]
  | .raise h => [.disable h, .enable h]
  | .smramReplace w ar aw sep host visible size =>
    [.smramDisableAll, .smramEnable w ar aw sep host visible size, .invalidate]
  | .commit => [.invalidate]

/-- A sequence of commands, one after another, on a block that is not halted (R38). -/
def execSeq : List Instr → State → Host.Outcome State Fault Refusal
  | [], s => .next s
  | i :: is, s =>
    match exec i s with
    | .next t => execSeq is t
    | .fault r => .fault r
    | .refused r => .refused r

end Sys2Proof.Machine
end

