-- ==== Sys2Proof/Safety.lean ====
section
/-! DEFINITION. The terms the statements use: what leaves memory as it was, and the invariant of the machine (10_state.md R43
and the widths and canonical forms of the state). -/

namespace Sys2Proof.Machine

/-- Every byte of every array reads in t as it reads in s. -/
def State.sameMemory (s t : State) : Prop := ∀ arr off, t.arrRead arr off = s.arrRead arr off

/-- The array byte (arr', off') is none of the n bytes of `arr` from `off` up. -/
def outsideBytes (arr : Arr) (off n : Nat) (arr' : Arr) (off' : Nat) : Prop :=
  arr' = arr → off' < off ∨ off + n ≤ off'

/-- The header word h with its argument words is no legal command, by the seven items of R98 in their order. Bit
positions are those of the header word (R91, R97). -/
def illegalPacket (hasDword : Bool) (h : Word) (args : List Word) : Prop :=
  (∀ o : Op, o.code ≠ h.extractLsb' 0 8)
    ∨ ∃ o : Op, o.code = h.extractLsb' 0 8
      ∧ (args.length ≠ o.argWords
        ∨ h &&& o.mask ≠ o.pattern
        ∨ (o = .register ∧ h.extractLsb' 17 2 = 3)
        ∨ ((o = .decode ∨ o = .read ∨ o = .write) ∧ h.extractLsb' 16 2 = 3)
        ∨ ((o = .decode ∨ o = .read ∨ o = .write) ∧ h.extractLsb' 16 2 = 2 ∧ hasDword = false)
        ∨ ((o = .register ∨ o = .setBacking) ∧ h.getLsbD 21 = true ∧ h.extractLsb' 19 2 ≠ 3)
        ∨ (o = .read ∧ h.getLsbD 20 = true ∧ h.getLsbD 19 = true))

/-- The opcode of a command (R97). -/
def opOf : Instr → Op
  | .register _ _ _ _ _ _ _ => .register
  | .enable _ => .enable
  | .disable _ => .disable
  | .setBase _ _ => .setBase
  | .setBacking _ _ _ _ => .setBacking
  | .setPolicy _ _ _ _ => .setPolicy
  | .getPolicy _ => .getPolicy
  | .decode _ _ _ _ => .decode
  | .read _ _ _ _ => .read
  | .write _ _ _ _ => .write
  | .shadowWrite _ _ => .shadowWrite
  | .shadowRead _ => .shadowRead
  | .shadowRecalc => .shadowRecalc
  | .a20Set _ _ => .a20Set
  | .a20Get => .a20Get
  | .smramDisableAll => .smramDisableAll
  | .smramEnable _ _ _ _ _ _ _ => .smramEnable
  | .smramSetSmm _ => .smramSetSmm
  | .emsSetSlot _ _ _ => .emsSetSlot
  | .emsSetMode _ => .emsSetMode
  | .invalidate => .invalidate
  | .reset => .reset

/-- n steps, one after another. -/
def runSteps : Nat → State → Host.Outcome State Fault Refusal
  | 0, s => .next s
  | n + 1, s =>
    match step s with
    | .next t => runSteps n t
    | .fault r => .fault r
    | .refused r => .refused r

/-- The state a command leaves that ended with an error status: only `cp` and the result record differ (R233). -/
def State.failedWith (s : State) (e : Status) : State :=
  { s with cp := s.cp + 1, result := some { status := e, data := .none } }

/-- The outcome is the next state of a command that failed with status e. -/
def failsWith (o : Host.Outcome State Fault Refusal) (s : State) (e : Status) : Prop := o = .next (s.failedWith e)

/-- Granule g lies in the range [base, base + size) (R30). -/
abbrev granuleIn (p : Platform) (base size g : Nat) : Prop :=
  base / p.granule ≤ g ∧ g < (base + size) / p.granule

/-- A pair's policy for a kind of access (R9). -/
def pairAt (pair : PolicyPair) : Kind → Policy
  | .read => pair.rp
  | .write => pair.wp

/-- Some entry of the policy table differs between s and t. -/
def State.policyDiffers (s t : State) : Prop :=
  ∃ kind g, g < s.plat.numGranules ∧ t.policyAt kind g ≠ s.policyAt kind g

/-- The INVAL numbers of an event log, oldest first (R36, R81). -/
def invalNumbers : List Event → List Nat
  | [] => []
  | .inval k :: es => k :: invalNumbers es
  | .hookRd _ _ _ _ _ :: es => invalNumbers es
  | .hookWr _ _ _ _ _ :: es => invalNumbers es
  | .oor _ _ _ _ :: es => invalNumbers es

/-- The registers of a window fit the address space: `visible` is ADDR_BITS wide and an established window lies on
granule edges inside the space (R32, R183). -/
def windowFits (p : Platform) (W : SmramWindow) : Prop :=
  W.active = true →
    W.size.toNat ≠ 0 ∧ W.visible.toNat % p.granule = 0 ∧ W.size.toNat % p.granule = 0
      ∧ W.visible.toNat + W.size.toNat ≤ 2 ^ p.addrBits

/-- Region `id` is enabled exactly when its owner says so: an SMRAM-owned Region when its window is active and
visible for some kind (R43 item 4), an EMS-owned Region when the mode and its slot are on (R43 item 3). A general
Region that is not registered is disabled. -/
def State.ownerAgrees (s : State) : RegionId → Prop
  | .gen i => (s.rgnAt (.gen i)).valid = false → (s.rgnAt (.gen i)).enabled = false
  | .smr w => w < s.plat.nSmram →
      (s.rgnAt (.smr w)).enabled =
        ((s.smw.getD w SmramWindow.cleared).active &&
          (s.smm || (s.smw.getD w SmramWindow.cleared).allowR || (s.smw.getD w SmramWindow.cleared).allowW))
  | .ems k => k < s.plat.nEms →
      (s.rgnAt (.ems k)).enabled = (s.emsMode && (s.emsSlot.getD k EmsSlot.cleared).enabled)

/-- The fields of a Region that its owner gives it: an SMRAM-owned Region has the range and the array of its window's
registers and class INTERNAL (R181, R182, R44), an EMS-owned Region the window and the page of its slot and class BYPASS
(R200, R44), and a registered general Region a range and a backing that R110 lets through. -/
def State.regionFits (s : State) : RegionId → Prop
  | .gen i => (s.rgnAt (.gen i)).valid = true →
      (0 < (s.rgnAt (.gen i)).size ∧ (s.rgnAt (.gen i)).base % s.plat.regionAlign = 0
          ∧ (s.rgnAt (.gen i)).size % s.plat.regionAlign = 0
          ∧ (s.rgnAt (.gen i)).base + (s.rgnAt (.gen i)).size ≤ 2 ^ s.plat.addrBits)
        ∧ (∀ h dw, (s.rgnAt (.gen i)).backing = .hooks h dw → h < s.plat.nHooks)
        ∧ (∀ off, (s.rgnAt (.gen i)).backing = .direct .smram off → 0 < s.plat.smramSize)
  | .smr w => w < s.plat.nSmram →
      s.rgnAt (.smr w) =
        { valid := true
          base := (s.smw.getD w SmramWindow.cleared).visible.toNat
          size := (s.smw.getD w SmramWindow.cleared).size.toNat
          enabled := (s.rgnAt (.smr w)).enabled
          gen := (s.rgnAt (.smr w)).gen
          cls := .internal
          backing := .direct (if (s.smw.getD w SmramWindow.cleared).sep then .smram else .ram)
            (s.smw.getD w SmramWindow.cleared).host.toNat }
  | .ems k => k < s.plat.nEms →
      s.rgnAt (.ems k) =
        { valid := true
          base := s.plat.emsVbase.getD k 0
          size := s.plat.emsPageSize
          enabled := (s.rgnAt (.ems k)).enabled
          gen := (s.rgnAt (.ems k)).gen
          cls := .bypass
          backing := .direct .ram
            (s.plat.emsBackingBase + (s.emsSlot.getD k EmsSlot.cleared).page.toNat * s.plat.emsPageSize) }

/-- What holds after every command (R43), with the shape of the state. -/
structure State.Inv (s : State) : Prop where
  /-- The parameters are legal (R5, R151). -/
  plat_wf : s.plat.wf = true
  /-- Every table has the length its parameter gives (R23, R28, R32, R34). -/
  lengths : s.rgn.gen.length = s.plat.nRegions ∧ s.rgn.smr.length = s.plat.nSmram
    ∧ s.rgn.ems.length = s.plat.nEms ∧ s.sreg.length = s.plat.shadow.nSreg
    ∧ s.smw.length = s.plat.nSmram ∧ s.emsSlot.length = s.plat.nEms
  /-- The arrays keep their canonical form and their size, and the ROM is ROM_IMAGE (R21). -/
  memory : Memory.wf s.ram ∧ Memory.below s.ram s.plat.ramSize ∧ Memory.wf s.smram
    ∧ Memory.below s.smram s.plat.smramSize ∧ s.rom = s.plat.romImage
  /-- The policy tables keep their canonical form and their size (R29): what stands past the last granule never
  changes, so that tables with equal entries are equal data. -/
  policies : PolicyTable.wf s.rpol s.plat.numGranules = true ∧ PolicyTable.wf s.wpol s.plat.numGranules = true
    ∧ PolicyTable.get s.rpol s.plat.numGranules = PolicyTable.get s.plat.resetRead s.plat.numGranules
    ∧ PolicyTable.get s.wpol s.plat.numGranules = PolicyTable.get s.plat.resetWrite s.plat.numGranules
  /-- R43 item 1. -/
  a20 : s.effectiveA20 = (s.a20Src.kbc || s.a20Src.alt || s.a20Src.port)
  /-- R43 item 2: no two enabled Regions have the same generation. -/
  gen_unique : ∀ id id', (s.rgnAt id).enabled = true → (s.rgnAt id').enabled = true →
    (s.rgnAt id).gen = (s.rgnAt id').gen → id = id'
  /-- R43 items 3 and 4. -/
  owners : ∀ id, s.ownerAgrees id
  /-- The Regions are what their owners made them. -/
  regions_fit : ∀ id, s.regionFits id
  /-- R43 item 5. -/
  gen_bound : ∀ id, (s.rgnAt id).gen ≤ s.genCtr
  /-- The registers of the windows and slots keep their widths (R32, R34). -/
  widths : (∀ W ∈ s.smw, windowFits s.plat W) ∧ ∀ S ∈ s.emsSlot, S.page.toNat < 2 ^ s.plat.emsPageBits
  /-- The INVAL entries of the log are numbered 1 … inval_count (R36, R37, R81). -/
  invals : invalNumbers s.events = (List.range s.invalCount).map (· + 1)

end Sys2Proof.Machine
end

