-- ==== Sys2Proof/Certificates/Slice0/Obligations.lean ====
section
/-! DEFINITION. The statements for the provers, each from the numbered rules of spec/ that its docstring names. Every
statement about a command is about every platform, since the parameters are in the state (log 1). -/

section

open Sys2Proof Sys2Proof.Machine

/-! ## Encoding -/

/-- Decoding the packet of a command gives the command back, every operand at every value its field admits
(30_encoding.md R91–R97). -/
def Obligations.DecodeOfEncodeIsTheCommand : Prop :=
  ∀ (hasDword : Bool) (i : Instr), i.wf hasDword = true → decode hasDword (encode i) = .ok i

/-- A packet that decodes is the packet of the command it decodes to, and that command has an encoding: no packet bit is
dropped, and no two packets decode to one command (R97, R98, R103). -/
def Obligations.EncodeOfDecodeIsThePacket : Prop :=
  ∀ (hasDword : Bool) (pkt : Packet) (i : Instr),
    decode hasDword pkt = .ok i → i.wf hasDword = true ∧ encode i = pkt

/-- One packet of each family, written out from the fields of R97, decodes to the command it stands for. -/
def Obligations.SpecWordsDecodeToTheirCommands : Prop :=
  decode true [0x003A0001, 0xA0000, 0x20000, 0x1] = .ok (.register false .external .hooks true 0xA0000 0x20000 0x1)
    ∧ decode true [0x000C0006, 0xF0000, 0x10000] = .ok (.setPolicy .internal .disabled 0xF0000 0x10000)
    ∧ decode true [0x00100009, 0xFFFF0] = .ok (.read .byte .cpu true 0xFFFF0)
    ∧ decode true [0x0008000A, 0xA0000, 0x41] = .ok (.write .byte .bus 0xA0000 0x41)
    ∧ decode true [0x00840210] = .ok (.shadowWrite 2 0x84)
    ∧ decode true [0x00010220] = .ok (.a20Set 2 true)
    ∧ decode true [0x00050131, 0x0, 0xA0000, 0x20000] = .ok (.smramEnable 1 true false true 0x0 0xA0000 0x20000)
    ∧ decode true [0x00010340, 0x7F] = .ok (.emsSetSlot 3 true 0x7F)
    ∧ decode true [0x00000050] = .ok .invalidate

/-- R98 whole: a packet that one of its items calls illegal is answered with ERR_ILLEGAL and changes only `cp` (and is taken
from the stream), before any other check; a packet that none of them calls illegal decodes to a command. -/
def Obligations.IllegalPacketsAreThoseOfTheList : Prop :=
  ∀ (s : State) (h : Word) (args : List Word) (rest : List Packet), s.fault = none → s.cmds = (h :: args) :: rest →
    (illegalPacket s.plat.hasDword h args →
      step s = .next { s with
        cmds := rest, cp := s.cp + 1, result := some { status := .errIllegal, data := .none } })
    ∧ (¬ illegalPacket s.plat.hasDword h args → ∃ i, decode s.plat.hasDword (h :: args) = .ok i)

/-! ## The step -/

/-- When the next packet decodes to a command, the step is that command's `exec` on the state with the packet taken from the
stream (10_state.md R38). -/
def Obligations.StepRunsTheDecodedCommand : Prop :=
  ∀ (s : State) (pkt : Packet) (rest : List Packet) (i : Instr), s.fault = none → s.cmds = pkt :: rest →
    decode s.plat.hasDword pkt = .ok i → step s = exec i { s with cmds := rest }

/-- A step with no packet waiting changes nothing: the model's choice for the block that waits (log 5, 46_control.md
R222). -/
def Obligations.WaitingBlockDoesNothing : Prop := ∀ s : State, s.cmds = [] → step s = .next s

/-- After a fault every command is answered with FAULT and has no effect, for as many steps as there are (60_exceptions.md
R235). That a packet which is no legal command is answered so too, and not with ERR_ILLEGAL, is the model's choice, log 8:
R98 and R232 put ERR_ILLEGAL before every other check. -/
def Obligations.HaltedBlockAnswersFaultForEver : Prop :=
  ∀ (s : State) (n : Nat), s.fault ≠ none → n ≤ s.cmds.length →
    runSteps n s = .next { s with
      cmds := s.cmds.drop n
      result := if n = 0 then s.result else some { status := .fault, data := .none } }

/-- Every command has a next state from every state; on a block with no fault `cp` goes up by one and no fault is recorded, but
for a CPU READ or WRITE on a stale mapping, which leaves `cp` and records one (10_state.md R38, R39, 60_exceptions.md R230,
R234). -/
def Obligations.EveryCommandEndsAndAdvances : Prop :=
  ∀ (i : Instr) (s : State), ∃ t, exec i s = .next t
    ∧ (s.fault = none →
      (t.cp = s.cp + 1 ∧ t.fault = none)
      ∨ t.cp = s.cp ∧ t.fault ≠ none ∧ s.stale = true ∧ t.result = some { status := .fault, data := .none }
        ∧ ((∃ n f addr, i = .read n .cpu f addr) ∨ ∃ n addr data, i = .write n .cpu addr data))

/-! ## The Region registry -/

/-- REGISTER (40_region.md R111): the range and the backing are checked first (`legal`, R110), then that a handle is free; the lowest free
handle gets the record, with a fresh generation when EN is set. -/
def Obligations.RegisterTakesTheLowestFreeHandle : Prop :=
  ∀ (en : Bool) (cls : RegionClass) (bk : BackingCode) (dw : Bool) (base size wB : Word) (s : State) (legal : Prop), s.Inv →
    (legal ↔
      (0 < size.toNat ∧ base.toNat % s.plat.regionAlign = 0 ∧ size.toNat % s.plat.regionAlign = 0
        ∧ base.toNat + size.toNat ≤ 2 ^ s.plat.addrBits)
      ∧ (bk = .smram → 0 < s.plat.smramSize) ∧ (bk = .hooks → wB.toNat < s.plat.nHooks)) →
    (¬ legal → failsWith (exec (.register en cls bk dw base size wB) s) s .errInvalid)
    ∧ (legal → (∀ i, i < s.plat.nRegions → (s.rgnAt (.gen i)).valid = true) →
      failsWith (exec (.register en cls bk dw base size wB) s) s .errFull)
    ∧ ∀ i, legal → i < s.plat.nRegions → (s.rgnAt (.gen i)).valid = false → (∀ j, j < i → (s.rgnAt (.gen j)).valid = true) →
      ∃ t, exec (.register en cls bk dw base size wB) s = .next t
        ∧ t = { s with
            rgn := t.rgn
            genCtr := if en then s.genCtr + 1 else s.genCtr
            stale := s.stale || en
            cp := s.cp + 1
            result := some { status := .ok, data := .handle i } }
        ∧ t.rgnAt (.gen i) =
            { valid := true, base := base.toNat, size := size.toNat, enabled := en
              gen := if en then s.genCtr + 1 else 0
              cls := cls
              backing := match bk with
                | .ram => .direct .ram wB.toNat
                | .rom => .direct .rom wB.toNat
                | .smram => .direct .smram wB.toNat
                | .hooks => .hooks wB.toNat dw }
        ∧ (∀ id, id ≠ .gen i → t.rgnAt id = s.rgnAt id)
        ∧ s.sameMemory t

/-- ENABLE (R112, 10_state.md R27): only a disabled Region changes; it takes the next generation. -/
def Obligations.EnableTakesAFreshGenerationOnce : Prop :=
  ∀ (h : Byte) (s : State),
    (¬ (h.toNat < s.plat.nRegions ∧ (s.rgnAt (.gen h.toNat)).valid = true) → failsWith (exec (.enable h) s) s .errRange)
    ∧ (h.toNat < s.plat.nRegions → (s.rgnAt (.gen h.toNat)).valid = true →
      ∃ t, exec (.enable h) s = .next t
        ∧ t = { s with
            rgn := t.rgn
            genCtr := if (s.rgnAt (.gen h.toNat)).enabled then s.genCtr else s.genCtr + 1
            stale := s.stale || !(s.rgnAt (.gen h.toNat)).enabled
            cp := s.cp + 1
            result := some { status := .ok, data := .none } }
        ∧ t.rgnAt (.gen h.toNat) =
            (if (s.rgnAt (.gen h.toNat)).enabled then s.rgnAt (.gen h.toNat)
            else { s.rgnAt (.gen h.toNat) with enabled := true, gen := s.genCtr + 1 })
        ∧ (∀ id, id ≠ .gen h.toNat → t.rgnAt id = s.rgnAt id)
        ∧ s.sameMemory t)

/-- DISABLE (R113, R27): the Region's enabled flag goes and nothing else of it. -/
def Obligations.DisableClearsOnlyTheFlag : Prop :=
  ∀ (h : Byte) (s : State),
    (¬ (h.toNat < s.plat.nRegions ∧ (s.rgnAt (.gen h.toNat)).valid = true) → failsWith (exec (.disable h) s) s .errRange)
    ∧ (h.toNat < s.plat.nRegions → (s.rgnAt (.gen h.toNat)).valid = true →
      ∃ t, exec (.disable h) s = .next t
        ∧ t = { s with
            rgn := t.rgn
            stale := s.stale || (s.rgnAt (.gen h.toNat)).enabled
            cp := s.cp + 1
            result := some { status := .ok, data := .none } }
        ∧ t.rgnAt (.gen h.toNat) = { s.rgnAt (.gen h.toNat) with enabled := false }
        ∧ (∀ id, id ≠ .gen h.toNat → t.rgnAt id = s.rgnAt id)
        ∧ s.sameMemory t)

/-- SET_BASE (R114): the new range is checked (`legal`, R110); the Region's base moves and nothing else of it; the mapping is
stale when the Region is enabled and the base is another one. -/
def Obligations.SetBaseMovesTheRegion : Prop :=
  ∀ (h : Byte) (base : Word) (s : State) (size : Nat) (legal : Prop), size = (s.rgnAt (.gen h.toNat)).size →
    (legal ↔ 0 < size ∧ base.toNat % s.plat.regionAlign = 0 ∧ size % s.plat.regionAlign = 0
      ∧ base.toNat + size ≤ 2 ^ s.plat.addrBits) →
    (¬ (h.toNat < s.plat.nRegions ∧ (s.rgnAt (.gen h.toNat)).valid = true) →
      failsWith (exec (.setBase h base) s) s .errRange)
    ∧ (h.toNat < s.plat.nRegions → (s.rgnAt (.gen h.toNat)).valid = true → ¬ legal →
      failsWith (exec (.setBase h base) s) s .errInvalid)
    ∧ (h.toNat < s.plat.nRegions → (s.rgnAt (.gen h.toNat)).valid = true → legal →
      ∃ t, exec (.setBase h base) s = .next t
        ∧ t = { s with
            rgn := t.rgn
            stale := s.stale || ((s.rgnAt (.gen h.toNat)).enabled
              && decide ((s.rgnAt (.gen h.toNat)).base ≠ base.toNat))
            cp := s.cp + 1
            result := some { status := .ok, data := .none } }
        ∧ t.rgnAt (.gen h.toNat) = { s.rgnAt (.gen h.toNat) with base := base.toNat }
        ∧ (∀ id, id ≠ .gen h.toNat → t.rgnAt id = s.rgnAt id)
        ∧ s.sameMemory t)

/-- SET_BACKING (R115, 30_encoding.md R95): the backing is checked (`legal`, R110); the Region's backing changes and nothing else of it. -/
def Obligations.SetBackingRetargetsTheRegion : Prop :=
  ∀ (h : Byte) (bk : BackingCode) (dw : Bool) (wB : Word) (s : State) (legal : Prop),
    (legal ↔ (bk = .smram → 0 < s.plat.smramSize) ∧ (bk = .hooks → wB.toNat < s.plat.nHooks)) →
    (¬ (h.toNat < s.plat.nRegions ∧ (s.rgnAt (.gen h.toNat)).valid = true) →
      failsWith (exec (.setBacking h bk dw wB) s) s .errRange)
    ∧ (h.toNat < s.plat.nRegions → (s.rgnAt (.gen h.toNat)).valid = true → ¬ legal →
      failsWith (exec (.setBacking h bk dw wB) s) s .errInvalid)
    ∧ (h.toNat < s.plat.nRegions → (s.rgnAt (.gen h.toNat)).valid = true → legal →
      ∃ t b, exec (.setBacking h bk dw wB) s = .next t
        ∧ b = (match bk with
            | .ram => Backing.direct .ram wB.toNat
            | .rom => .direct .rom wB.toNat
            | .smram => .direct .smram wB.toNat
            | .hooks => .hooks wB.toNat dw)
        ∧ t = { s with
            rgn := t.rgn
            stale := s.stale || ((s.rgnAt (.gen h.toNat)).enabled && decide ((s.rgnAt (.gen h.toNat)).backing ≠ b))
            cp := s.cp + 1
            result := some { status := .ok, data := .none } }
        ∧ t.rgnAt (.gen h.toNat) = { s.rgnAt (.gen h.toNat) with backing := b }
        ∧ (∀ id, id ≠ .gen h.toNat → t.rgnAt id = s.rgnAt id)
        ∧ s.sameMemory t)

/-- RAISE (R102, 70_reset_and_hazards.md R265): DISABLE then ENABLE makes a registered Region newer than every other one,
enabled or not before. -/
def Obligations.RaiseMakesTheRegionTheNewest : Prop :=
  ∀ (h : Byte) (s : State), s.Inv → h.toNat < s.plat.nRegions → (s.rgnAt (.gen h.toNat)).valid = true →
    ∃ t, execSeq (expandPseudo (.raise h)) s = .next t
      ∧ t.rgnAt (.gen h.toNat) = { s.rgnAt (.gen h.toNat) with enabled := true, gen := s.genCtr + 1 }
      ∧ (∀ id, id ≠ .gen h.toNat → t.rgnAt id = s.rgnAt id ∧ (t.rgnAt id).gen < (t.rgnAt (.gen h.toNat)).gen)
      ∧ t.stale = true ∧ t.cp = s.cp + 2

/-- RELOCATE (R102): when the new range is legal (R110; the size of a registered Region already is), the Region is moved, made the newest claimant, and the mapping is no longer stale. -/
def Obligations.RelocateMovesAndRaises : Prop :=
  ∀ (h : Byte) (base : Word) (s : State), s.Inv → h.toNat < s.plat.nRegions →
    (s.rgnAt (.gen h.toNat)).valid = true → base.toNat % s.plat.regionAlign = 0 →
    base.toNat + (s.rgnAt (.gen h.toNat)).size ≤ 2 ^ s.plat.addrBits →
    ∃ t, execSeq (expandPseudo (.relocate h base)) s = .next t
      ∧ t.rgnAt (.gen h.toNat)
          = { s.rgnAt (.gen h.toNat) with base := base.toNat, enabled := true, gen := s.genCtr + 1 }
      ∧ (∀ id, id ≠ .gen h.toNat → t.rgnAt id = s.rgnAt id ∧ (t.rgnAt id).gen < (t.rgnAt (.gen h.toNat)).gen)
      ∧ t.stale = false ∧ t.invalCount = s.invalCount + 1 ∧ t.cp = s.cp + 4

/-! ## The Access-Policy Table -/

/-- SET_POLICY (41_policy_access.md R130, 10_state.md R30): every entry of the range gets the pair, every other entry
stays, and the mapping is stale when an entry changed. -/
def Obligations.SetPolicyOverwritesTheRange : Prop :=
  ∀ (rp wp : Policy) (base size : Word) (s : State), s.Inv →
    (size.toNat = 0 ∨ base.toNat % s.plat.granule ≠ 0 ∨ size.toNat % s.plat.granule ≠ 0
        ∨ 2 ^ s.plat.addrBits < base.toNat + size.toNat →
      failsWith (exec (.setPolicy rp wp base size) s) s .errInvalid)
    ∧ (size.toNat ≠ 0 → base.toNat % s.plat.granule = 0 → size.toNat % s.plat.granule = 0 →
      base.toNat + size.toNat ≤ 2 ^ s.plat.addrBits →
      ∃ t, exec (.setPolicy rp wp base size) s = .next t
        ∧ t = { s with
            rpol := t.rpol
            wpol := t.wpol
            stale := t.stale
            cp := s.cp + 1
            result := some { status := .ok, data := .none } }
        ∧ (∀ g, granuleIn s.plat base.toNat size.toNat g → t.policyAt .read g = rp ∧ t.policyAt .write g = wp)
        ∧ (∀ kind g, ¬ granuleIn s.plat base.toNat size.toNat g → t.policyAt kind g = s.policyAt kind g)
        ∧ (t.stale = true ↔ s.stale = true ∨ s.policyDiffers t)
        ∧ s.sameMemory t)

/-- GET_POLICY (R131): the pair of the granule of the unmasked address, and nothing changes. -/
def Obligations.GetPolicyReadsTheGranule : Prop :=
  ∀ (addr : Word) (s : State),
    exec (.getPolicy addr) s = .next { s with
      cp := s.cp + 1
      result := some
        { status := .ok
          data := .policies (PolicyTable.get s.rpol (addr.toNat % 2 ^ s.plat.addrBits / s.plat.granule))
            (PolicyTable.get s.wpol (addr.toNat % 2 ^ s.plat.addrBits / s.plat.granule)) } }

/-! ## Routing -/

/-- The table of R132: which class of Region a policy routes to, for each agent (20_memory.md R63, R64). -/
def Obligations.ClassPolicyAgentTable : Prop :=
  ∀ (cls : RegionClass) (p : Policy) (ag : Agent),
    eligible cls (agentPolicy ag p) =
      match cls, p, ag with
      | .internal, .internal, _ => true
      | .internal, .external, _ => false
      | .internal, .externalAny, _ => false
      | .internal, .disabled, _ => false
      | .external, .internal, _ => false
      | .external, .external, .cpu => true
      | .external, .external, .bus => false
      | .external, .externalAny, _ => true
      | .external, .disabled, _ => false
      | .bypass, _, _ => true

/-- The routing function (20_memory.md R61–R67): the address is reduced to the bus width and loses bit 20 while the gate is
closed (`x`, `a`); the policy of its granule, as the agent sees it, is `p`; a Region that claims the address (`cl`) and is newer
than every other that does gets the access, and with no claimant the access is a fill. -/
def Obligations.RouteGoesToTheNewestClaimant : Prop :=
  ∀ (s : State) (ag : Agent) (aIn : Word) (n : Width) (kind : Kind) (x a : Nat) (q p : Policy) (cl : RegionId → Prop)
    (size : Arr → Nat),
    x = aIn.toNat % 2 ^ s.plat.addrBits →
    a = (if s.effectiveA20 = false ∧ x.testBit 20 = true then x - 0x100000 else x) →
    q = s.policyAt kind (a / s.plat.granule) →
    p = (if ag = .bus ∧ q = .external then .disabled else q) →
    (∀ id, cl id ↔
      (s.rgnAt id).valid = true ∧ (s.rgnAt id).enabled = true ∧ (s.rgnAt id).base ≤ a
        ∧ a < (s.rgnAt id).base + (s.rgnAt id).size
        ∧ ((s.rgnAt id).cls = .bypass ∨ ((s.rgnAt id).cls = .internal ∧ p = .internal)
          ∨ ((s.rgnAt id).cls = .external ∧ (p = .external ∨ p = .externalAny)))) →
    size .ram = s.plat.ramSize → size .rom = s.plat.romSize → size .smram = s.plat.smramSize →
    (∀ id, cl id → (∀ id', id' ≠ id → cl id' → (s.rgnAt id').gen < (s.rgnAt id).gen) →
      s.route ag aIn n kind =
        match (s.rgnAt id).backing with
        | .direct arr o =>
          if o + (a - (s.rgnAt id).base) + widthBytes n > size arr then .fill .outOfRange a
          else .direct id arr (o + (a - (s.rgnAt id).base)) a
        | .hooks h _ => .hook id h a (a - (s.rgnAt id).base))
    ∧ ((∀ id, ¬ cl id) → s.route ag aIn n kind = .fill (if p = .disabled then .policyDisabled else .noRegion) a)

/-- DECODE (R134), and R71 whole: the route is the result, stale mapping or not; no array, hook draw, log entry or anything
else changes, and every access still has afterwards the route it had. -/
def Obligations.DecodeReportsTheRoute : Prop :=
  ∀ (n : Width) (kind : Kind) (ag : Agent) (addr : Word) (s : State),
    ∃ t, exec (.decode n kind ag addr) s = .next t
      ∧ t = { s with cp := s.cp + 1, result := some { status := .ok, data := .route (s.route ag addr n kind) } }
      ∧ ∀ ag' addr' n' kind', t.route ag' addr' n' kind' = s.route ag' addr' n' kind'

/-- R172 whole: the gate is closed only when all three sources are 0; while it is closed the mask takes 0x100000 from a bus
address with bit 20 set and keeps every other bit (R61), so an address with bit 20 set routes as the one with bit 20 clear;
while it is open no bit of the bus address is changed. -/
def Obligations.MaskedGateIgnoresBitTwenty : Prop :=
  (∀ src : A20Sources, a20Or src = false ↔ src.kbc = false ∧ src.alt = false ∧ src.port = false)
    ∧ (∀ s : State, s.Inv → s.effectiveA20 = a20Or s.a20Src)
    ∧ (∀ (s : State) (aIn : Word) (x : Nat), x = aIn.toNat % 2 ^ s.plat.addrBits → s.effectiveA20 = false →
      s.a20Mask aIn = if x.testBit 20 = true then x - 0x100000 else x)
    ∧ (∀ (s : State) (ag : Agent) (aIn : Word) (n : Width) (kind : Kind), s.effectiveA20 = false →
      s.route ag (aIn ||| 0x100000) n kind = s.route ag (aIn &&& ~~~0x100000) n kind)
    ∧ ∀ (s : State) (aIn : Word), s.effectiveA20 = true → s.a20Mask aIn = aIn.toNat % 2 ^ s.plat.addrBits

/-! ## Reads and writes -/

/-- READ of an array (R135, R68, R73): byte k of the value is array byte `off + k`, the bytes above the width are 0, and
nothing changes. F makes no difference. -/
def Obligations.ReadOfAnArrayIsLittleEndian : Prop :=
  ∀ (n : Width) (ag : Agent) (fetch : Bool) (addr : Word) (s : State) (id : RegionId) (arr : Arr) (off a : Nat),
    ag = .bus ∨ s.stale = false → s.route ag addr n .read = .direct id arr off a →
    ∃ v : Word, exec (.read n ag fetch addr) s
        = .next { s with cp := s.cp + 1, result := some { status := .ok, data := .value v } }
      ∧ ∀ k, k < 4 → v.extractLsb' (8 * k) 8 = if k < widthBytes n then s.arrRead arr (off + k) else 0

/-- A dropped READ (R72, R67): the all-ones value of the width, and an OOR event when the access ran past an array. -/
def Obligations.DroppedReadGivesAllOnes : Prop :=
  ∀ (n : Width) (ag : Agent) (fetch : Bool) (addr : Word) (s : State) (reason : FillReason) (a : Nat),
    ag = .bus ∨ s.stale = false → s.route ag addr n .read = .fill reason a →
    ∃ v : Word, v.toNat + 1 = 2 ^ (8 * widthBytes n)
      ∧ exec (.read n ag fetch addr) s = .next { s with
          events := if reason = .outOfRange then s.events ++ [Event.oor .read ag a n] else s.events
          cp := s.cp + 1
          result := some { status := .ok, data := .value v } }

/-- READ through a hook set (R70, R135): one call and one log entry, or two word calls, the low word first, for a width of 4
on a set without double-word hooks; the answers are whatever the device gives, cut to the width (log 3). -/
def Obligations.HookReadLogsItsCalls : Prop :=
  ∀ (n : Width) (ag : Agent) (fetch : Bool) (addr : Word) (s : State) (id : RegionId) (h a offR : Nat),
    ag = .bus ∨ s.stale = false → s.route ag addr n .read = .hook id h a offR →
    (n ≠ .dword ∨ (∃ h', (s.rgnAt id).backing = .hooks h' true) →
      ∃ v : Word, v.toNat < 2 ^ (8 * widthBytes n)
        ∧ exec (.read n ag fetch addr) s = .next { s with
            events := s.events ++ [Event.hookRd h a offR n v]
            draws := s.draws + 1
            cp := s.cp + 1
            result := some { status := .ok, data := .value v } })
    ∧ (n = .dword → (∃ h', (s.rgnAt id).backing = .hooks h' false) →
      ∃ lo hi : Word, lo.toNat < 0x10000 ∧ hi.toNat < 0x10000
        ∧ exec (.read n ag fetch addr) s = .next { s with
            events := s.events
              ++ [Event.hookRd h a offR .word lo, Event.hookRd h (a + 2) (offR + 2) .word hi]
            draws := s.draws + 2
            cp := s.cp + 1
            result := some { status := .ok, data := .value (lo + hi * 0x10000) } })

/-- WRITE to `ram` or `smram` (R136, R69, R73): byte k of the data goes to `off + k` for the width's bytes, the bits above are
ignored, and every other byte of every array stays. -/
def Obligations.WriteToAnArrayStoresItsLowBytes : Prop :=
  ∀ (n : Width) (ag : Agent) (addr data : Word) (s : State) (id : RegionId) (arr : Arr) (off a : Nat),
    ag = .bus ∨ s.stale = false → s.route ag addr n .write = .direct id arr off a → arr ≠ .rom →
    ∃ t, exec (.write n ag addr data) s = .next t
      ∧ t = { s with
          ram := t.ram, smram := t.smram, cp := s.cp + 1, result := some { status := .ok, data := .none } }
      ∧ (∀ k, k < widthBytes n → t.arrRead arr (off + k) = data.extractLsb' (8 * k) 8)
      ∧ ∀ arr' off', outsideBytes arr off (widthBytes n) arr' off' → t.arrRead arr' off' = s.arrRead arr' off'

/-- A WRITE that is dropped or routed to the ROM (R69, R67, R136): status OK, and no byte changes; an access past the end of an
array is logged. -/
def Obligations.DiscardedWriteChangesNoByte : Prop :=
  ∀ (n : Width) (ag : Agent) (addr data : Word) (s : State), ag = .bus ∨ s.stale = false →
    (∀ reason a, s.route ag addr n .write = .fill reason a →
      exec (.write n ag addr data) s = .next { s with
        events := if reason = .outOfRange then s.events ++ [Event.oor .write ag a n] else s.events
        cp := s.cp + 1
        result := some { status := .ok, data := .none } })
    ∧ ∀ id off a, s.route ag addr n .write = .direct id .rom off a →
      exec (.write n ag addr data) s
        = .next { s with cp := s.cp + 1, result := some { status := .ok, data := .none } }

/-- WRITE through a hook set (R70, R136): log entries of the low bytes of the data and nothing else in the block; a width of 4
on a set without double-word hooks is two word calls, the low word first. -/
def Obligations.HookWriteLogsItsCalls : Prop :=
  ∀ (n : Width) (ag : Agent) (addr data : Word) (s : State) (id : RegionId) (h a offR : Nat),
    ag = .bus ∨ s.stale = false → s.route ag addr n .write = .hook id h a offR →
    (n ≠ .dword ∨ (∃ h', (s.rgnAt id).backing = .hooks h' true) →
      exec (.write n ag addr data) s = .next { s with
        events := s.events
          ++ [Event.hookWr h a offR n (BitVec.ofNat 32 (data.toNat % 2 ^ (8 * widthBytes n)))]
        cp := s.cp + 1
        result := some { status := .ok, data := .none } })
    ∧ (n = .dword → (∃ h', (s.rgnAt id).backing = .hooks h' false) →
      exec (.write n ag addr data) s = .next { s with
        events := s.events
          ++ [Event.hookWr h a offR .word (BitVec.ofNat 32 (data.toNat % 0x10000)),
            Event.hookWr h (a + 2) (offR + 2) .word (BitVec.ofNat 32 (data.toNat / 0x10000))]
        cp := s.cp + 1
        result := some { status := .ok, data := .none } })

/-- A read returns the bytes of the latest earlier write to the same array bytes, whatever the addresses and agents the two
accesses use (R80). -/
def Obligations.ReadAfterWriteGivesTheData : Prop :=
  ∀ (n : Width) (ag ag' : Agent) (fetch : Bool) (addr addr' data : Word) (s : State) (id id' : RegionId) (arr : Arr)
    (off a a' : Nat),
    s.stale = false → arr ≠ .rom → s.route ag addr n .write = .direct id arr off a →
    s.route ag' addr' n .read = .direct id' arr off a' →
    ∃ t, execSeq [.write n ag addr data, .read n ag' fetch addr'] s = .next t
      ∧ t.result = some { status := .ok, data := .value (BitVec.ofNat 32 (data.toNat % 2 ^ (8 * widthBytes n))) }

/-- The stale-map fault (60_exceptions.md R234): a CPU READ or WRITE on a stale mapping writes the fault record, answers FAULT,
keeps `cp`, and does no access. -/
def Obligations.StaleCpuAccessTakesTheFault : Prop :=
  ∀ (n : Width) (fetch : Bool) (addr data : Word) (s : State), s.stale = true →
    exec (.read n .cpu fetch addr) s = .next { s with
      fault := some { pos := s.cp, kind := if fetch then .fetch else .read, aIn := addr }
      result := some { status := .fault, data := .none } }
    ∧ exec (.write n .cpu addr data) s = .next { s with
      fault := some { pos := s.cp, kind := .write, aIn := addr }
      result := some { status := .fault, data := .none } }

/-! ## The Shadow Controller -/

/-- R152 whole: the first global-mode rule in list order that names the window and whose selector has its value decides;
without one, the window's own selectors go through the map. -/
def Obligations.WindowPairTakesTheFirstGlobalRule : Prop :=
  ∀ (cfg : ShadowCfg) (sreg : List Byte) (i : Nat) (w : ShadowWindow) (eval : Sel → Bool),
    (∀ sel, eval sel = ((sreg.getD sel.reg 0).getLsbD sel.bit ^^ sel.inv)) →
    (∀ (j : Nat) (r : GlobalRule), cfg.glob[j]? = some r → i ∈ r.wins → eval r.sel = r.val →
      (∀ (j' : Nat) (r' : GlobalRule), j' < j → cfg.glob[j']? = some r' → ¬ (i ∈ r'.wins ∧ eval r'.sel = r'.val)) →
      windowPair cfg sreg i w = r.pair)
    ∧ ((∀ r ∈ cfg.glob, ¬ (i ∈ r.wins ∧ eval r.sel = r.val)) →
      windowPair cfg sreg i w =
        (match eval w.rsel, eval w.wsel with
        | false, false => cfg.map.off
        | false, true => cfg.map.writeOnly
        | true, false => cfg.map.readOnly
        | true, true => cfg.map.on))

/-- SHADOW_WRITE (42_shadow.md R155, R154): the register is written, every window's entries get the pair of the new registers,
every other entry stays, and there is exactly one invalidation. -/
def Obligations.ShadowWriteRecomputesEveryWindow : Prop :=
  ∀ (reg value : Byte) (s : State), s.Inv →
    (s.plat.shadow.nSreg ≤ reg.toNat → failsWith (exec (.shadowWrite reg value) s) s .errRange)
    ∧ (reg.toNat < s.plat.shadow.nSreg →
      ∃ t, exec (.shadowWrite reg value) s = .next t
        ∧ t = { s with
            sreg := s.sreg.set reg.toNat value
            rpol := t.rpol
            wpol := t.wpol
            stale := false
            invalCount := s.invalCount + 1
            events := s.events ++ [Event.inval (s.invalCount + 1)]
            cp := s.cp + 1
            result := some { status := .ok, data := .none } }
        ∧ (∀ i w kind g, s.plat.shadow.win[i]? = some w → granuleIn s.plat w.base w.size g →
          t.policyAt kind g = pairAt (windowPair s.plat.shadow (s.sreg.set reg.toNat value) i w) kind)
        ∧ (∀ kind g, (∀ w ∈ s.plat.shadow.win, ¬ granuleIn s.plat w.base w.size g) →
          t.policyAt kind g = s.policyAt kind g)
        ∧ s.sameMemory t)

/-- SHADOW_RECALC (R157, R154): every window's entries get the pair of the registers, one invalidation; a second recalculation
leaves the policy table as it is. -/
def Obligations.ShadowRecalcTwiceIsRecalcOnce : Prop :=
  ∀ s : State, s.Inv →
    ∃ t u, exec .shadowRecalc s = .next t ∧ exec .shadowRecalc t = .next u
      ∧ t = { s with
          rpol := t.rpol
          wpol := t.wpol
          stale := false
          invalCount := s.invalCount + 1
          events := s.events ++ [Event.inval (s.invalCount + 1)]
          cp := s.cp + 1
          result := some { status := .ok, data := .none } }
      ∧ (∀ i w kind g, s.plat.shadow.win[i]? = some w → granuleIn s.plat w.base w.size g →
        t.policyAt kind g = pairAt (windowPair s.plat.shadow s.sreg i w) kind)
      ∧ (∀ kind g, (∀ w ∈ s.plat.shadow.win, ¬ granuleIn s.plat w.base w.size g) →
        t.policyAt kind g = s.policyAt kind g)
      ∧ s.sameMemory t
      ∧ u.rpol = t.rpol ∧ u.wpol = t.wpol ∧ u.invalCount = t.invalCount + 1

/-- R159 whole: what a recalculation writes depends only on the registers it ends with and on the description: two machines with
one description and one granule that have recalculated, each by SHADOW_RECALC or by a SHADOW_WRITE, and have equal registers agree on every
window's entries; and no command of the Shadow Controller writes an entry outside the windows. -/
def Obligations.RecalcDependsOnlyOnTheRegisters : Prop :=
  (∀ (s s' t t' : State) (i i' : Instr), s.Inv → s'.Inv → s.plat.shadow = s'.plat.shadow →
    s.plat.granule = s'.plat.granule →
    (i = .shadowRecalc ∨ ∃ reg value, i = .shadowWrite reg value ∧ reg.toNat < s.plat.shadow.nSreg) →
    (i' = .shadowRecalc ∨ ∃ reg value, i' = .shadowWrite reg value ∧ reg.toNat < s'.plat.shadow.nSreg) →
    exec i s = .next t → exec i' s' = .next t' → t.sreg = t'.sreg →
    ∀ w ∈ s.plat.shadow.win, ∀ kind g, granuleIn s.plat w.base w.size g → t.policyAt kind g = t'.policyAt kind g)
  ∧ ∀ (s t : State) (i : Instr), s.Inv → opOf i = .shadowRecalc ∨ opOf i = .shadowWrite ∨ opOf i = .shadowRead →
    exec i s = .next t →
    ∀ kind g, (∀ w ∈ s.plat.shadow.win, ¬ granuleIn s.plat w.base w.size g) → t.policyAt kind g = s.policyAt kind g

/-- SHADOW_READ (R156): the last value written, all 8 bits. -/
def Obligations.ShadowReadReturnsTheRegister : Prop :=
  ∀ (reg : Byte) (s : State),
    (s.plat.shadow.nSreg ≤ reg.toNat → failsWith (exec (.shadowRead reg) s) s .errRange)
    ∧ (reg.toNat < s.plat.shadow.nSreg →
      exec (.shadowRead reg) s = .next { s with
        cp := s.cp + 1, result := some { status := .ok, data := .byteValue (s.sreg.getD reg.toNat 0) } })

/-! ## The A20 gate -/

/-- A20_SET (43_a20.md R170): the source is written and the OR recomputed; one invalidation when the source's value changes,
nothing at all when it does not. -/
def Obligations.SourceChangeInvalidatesOnce : Prop :=
  ∀ (src : Byte) (v : Bool) (s : State), s.Inv →
    (2 < src.toNat → failsWith (exec (.a20Set src v) s) s .errRange)
    ∧ (src.toNat ≤ 2 → a20Get s.a20Src src.toNat ≠ v →
      ∃ t, exec (.a20Set src v) s = .next t
        ∧ t = { s with
            a20Src := t.a20Src
            effectiveA20 := t.a20Src.kbc || t.a20Src.alt || t.a20Src.port
            stale := false
            invalCount := s.invalCount + 1
            events := s.events ++ [Event.inval (s.invalCount + 1)]
            cp := s.cp + 1
            result := some { status := .ok, data := .none } }
        ∧ t.a20Src =
            { kbc := if src = 0 then v else s.a20Src.kbc
              alt := if src = 1 then v else s.a20Src.alt
              port := if src = 2 then v else s.a20Src.port }
        ∧ s.sameMemory t)
    ∧ (src.toNat ≤ 2 → a20Get s.a20Src src.toNat = v →
      exec (.a20Set src v) s = .next { s with cp := s.cp + 1, result := some { status := .ok, data := .none } })

/-- A20_GET (R171): the gate's bit and the three sources, PORT_WRITE the highest. -/
def Obligations.GateReadsBack : Prop :=
  ∀ s : State, ∃ b : BitVec 3,
    b.getLsbD 0 = s.a20Src.kbc ∧ b.getLsbD 1 = s.a20Src.alt ∧ b.getLsbD 2 = s.a20Src.port
      ∧ exec .a20Get s
          = .next { s with cp := s.cp + 1, result := some { status := .ok, data := .a20 s.effectiveA20 b } }

/-! ## The SMRAM Overlay Manager -/

/-- SMRAM_DISABLE_ALL (44_smram.md R182): every SMRAM-owned Region is disabled and every window inactive; the other fields of
both, the policies and all other Regions stay. -/
def Obligations.DisableAllHidesEveryWindow : Prop :=
  ∀ s : State, s.Inv →
    ∃ t, exec .smramDisableAll s = .next t
      ∧ t = { s with
          rgn := t.rgn
          smw := t.smw
          stale := t.stale
          cp := s.cp + 1
          result := some { status := .ok, data := .none } }
      ∧ (∀ w, w < s.plat.nSmram →
        t.rgnAt (.smr w) = { s.rgnAt (.smr w) with enabled := false }
          ∧ t.window w = { s.window w with active := false })
      ∧ (∀ id, (∀ w, id ≠ .smr w) → t.rgnAt id = s.rgnAt id)
      ∧ (t.stale = true ↔ s.stale = true ∨ ∃ w, w < s.plat.nSmram ∧ (s.rgnAt (.smr w)).enabled = true)
      ∧ s.sameMemory t

/-- SMRAM_ENABLE (R183, R181): the index is checked before the range; the window's registers are written, its Region takes its
range and array, and a visible window a fresh generation; its granules get INTERNAL for a visible kind and EXTERNAL for a
hidden one. -/
def Obligations.SmramEnableEstablishesTheWindow : Prop :=
  ∀ (w : Byte) (ar aw sep : Bool) (host visible size : Word) (s : State), s.Inv →
    (s.plat.nSmram ≤ w.toNat → failsWith (exec (.smramEnable w ar aw sep host visible size) s) s .errRange)
    ∧ (w.toNat < s.plat.nSmram →
      size.toNat = 0 ∨ visible.toNat % s.plat.granule ≠ 0 ∨ size.toNat % s.plat.granule ≠ 0
        ∨ 2 ^ s.plat.addrBits < visible.toNat + size.toNat ∨ (sep = true ∧ s.plat.smramSize = 0) →
      failsWith (exec (.smramEnable w ar aw sep host visible size) s) s .errInvalid)
    ∧ (w.toNat < s.plat.nSmram →
      size.toNat ≠ 0 → visible.toNat % s.plat.granule = 0 → size.toNat % s.plat.granule = 0 →
      visible.toNat + size.toNat ≤ 2 ^ s.plat.addrBits → (sep = true → s.plat.smramSize ≠ 0) →
      ∃ t, exec (.smramEnable w ar aw sep host visible size) s = .next t
        ∧ t = { s with
            rgn := t.rgn
            genCtr := if s.smm || ar || aw then s.genCtr + 1 else s.genCtr
            rpol := t.rpol
            wpol := t.wpol
            smw := s.smw.set w.toNat
              { active := true, host := host, visible := visible, size := size, allowR := ar, allowW := aw, sep := sep }
            stale := t.stale
            cp := s.cp + 1
            result := some { status := .ok, data := .none } }
        ∧ t.rgnAt (.smr w.toNat) =
            { valid := true, base := visible.toNat, size := size.toNat
              enabled := s.smm || ar || aw
              gen := if s.smm || ar || aw then s.genCtr + 1 else (s.rgnAt (.smr w.toNat)).gen
              cls := .internal
              backing := .direct (if sep then .smram else .ram) host.toNat }
        ∧ (∀ id, id ≠ .smr w.toNat → t.rgnAt id = s.rgnAt id)
        ∧ (∀ g, granuleIn s.plat visible.toNat size.toNat g →
          t.policyAt .read g = (if s.smm || ar then .internal else .external)
            ∧ t.policyAt .write g = (if s.smm || aw then .internal else .external))
        ∧ (∀ kind g, ¬ granuleIn s.plat visible.toNat size.toNat g → t.policyAt kind g = s.policyAt kind g)
        ∧ (t.stale = true ↔ s.stale = true ∨ (s.rgnAt (.smr w.toNat)).enabled = true ∨ (s.smm || ar || aw) = true
          ∨ s.policyDiffers t)
        ∧ s.sameMemory t)

/-- SMRAM_SET_SMM (R184, R180, R181): the latch is written and every active window recomputed in index order: its Region is
enabled exactly when it is visible for some kind, a window that becomes visible takes a fresh generation and one that stays
visible keeps its own; the counter goes up once for each window that becomes visible (R26); of two active windows over one
granule the later one writes its policy; one invalidation. -/
def Obligations.SetSmmRecomputesTheActiveWindows : Prop :=
  ∀ (smm : Bool) (s : State), s.Inv →
    ∃ t, exec (.smramSetSmm smm) s = .next t
      ∧ t = { s with
          rgn := t.rgn
          genCtr := t.genCtr
          rpol := t.rpol
          wpol := t.wpol
          smm := smm
          stale := false
          invalCount := s.invalCount + 1
          events := s.events ++ [Event.inval (s.invalCount + 1)]
          cp := s.cp + 1
          result := some { status := .ok, data := .none } }
      ∧ (∀ w, w < s.plat.nSmram → (s.window w).active = true →
        t.rgnAt (.smr w) = { s.rgnAt (.smr w) with
          enabled := smm || (s.window w).allowR || (s.window w).allowW, gen := (t.rgnAt (.smr w)).gen }
        ∧ ((s.rgnAt (.smr w)).enabled = true ∨ (t.rgnAt (.smr w)).enabled = false →
          (t.rgnAt (.smr w)).gen = (s.rgnAt (.smr w)).gen)
        ∧ ((s.rgnAt (.smr w)).enabled = false → (t.rgnAt (.smr w)).enabled = true →
          s.genCtr < (t.rgnAt (.smr w)).gen ∧ (t.rgnAt (.smr w)).gen ≤ t.genCtr))
      ∧ t.genCtr = s.genCtr + (List.range s.plat.nSmram).countP (fun w =>
        (s.window w).active && (smm || (s.window w).allowR || (s.window w).allowW) && !(s.rgnAt (.smr w)).enabled)
      ∧ (∀ v w, v < w → w < s.plat.nSmram → (s.rgnAt (.smr v)).enabled = false → (t.rgnAt (.smr v)).enabled = true →
        (s.rgnAt (.smr w)).enabled = false → (t.rgnAt (.smr w)).enabled = true →
        (t.rgnAt (.smr v)).gen < (t.rgnAt (.smr w)).gen)
      ∧ (∀ id, (∀ w, w < s.plat.nSmram → (s.window w).active = true → id ≠ .smr w) → t.rgnAt id = s.rgnAt id)
      ∧ (∀ w g, w < s.plat.nSmram → (s.window w).active = true →
        granuleIn s.plat (s.window w).visible.toNat (s.window w).size.toNat g →
        (∀ v, w < v → v < s.plat.nSmram → (s.window v).active = true →
          ¬ granuleIn s.plat (s.window v).visible.toNat (s.window v).size.toNat g) →
        t.policyAt .read g = (if smm || (s.window w).allowR then .internal else .external)
          ∧ t.policyAt .write g = (if smm || (s.window w).allowW then .internal else .external))
      ∧ (∀ kind g, (∀ w, w < s.plat.nSmram → (s.window w).active = true →
          ¬ granuleIn s.plat (s.window w).visible.toNat (s.window w).size.toNat g) →
        t.policyAt kind g = s.policyAt kind g)
      ∧ s.sameMemory t

/-- R185 whole: SMRAM_DISABLE_ALL disables every SMRAM-owned Region, and only SMRAM_ENABLE, or SMRAM_SET_SMM of an active
window, enables one again; so after SMRAM_DISABLE_ALL and any sequence of SMRAM_ENABLE commands an access that routes to an
SMRAM-owned Region routes to one whose window the sequence enabled: a command of the sequence names the window, with
arguments that R183 lets through and visible for some kind. -/
def Obligations.OnlyReenabledWindowsAnswer : Prop :=
  (∀ s : State, s.Inv → ∃ t, exec .smramDisableAll s = .next t ∧ ∀ w, (t.rgnAt (.smr w)).enabled = false)
  ∧ (∀ (i : Instr) (s t : State) (w : Nat), exec i s = .next t → (s.rgnAt (.smr w)).enabled = false →
    (t.rgnAt (.smr w)).enabled = true →
    opOf i = .smramEnable ∨ (opOf i = .smramSetSmm ∧ (s.window w).active = true))
  ∧ ∀ (s : State) (is : List Instr), s.Inv → (∀ i ∈ is, opOf i = .smramEnable) →
    ∃ t, execSeq (.smramDisableAll :: is) s = .next t
      ∧ ∀ ag addr n kind w,
        (∃ arr off a, t.route ag addr n kind = .direct (.smr w) arr off a) →
        ∃ b ar aw sep host visible size, .smramEnable b ar aw sep host visible size ∈ is ∧ b.toNat = w
          ∧ w < s.plat.nSmram ∧ size.toNat ≠ 0 ∧ visible.toNat % s.plat.granule = 0 ∧ size.toNat % s.plat.granule = 0
          ∧ visible.toNat + size.toNat ≤ 2 ^ s.plat.addrBits ∧ (sep = true → s.plat.smramSize ≠ 0)
          ∧ (s.smm = true ∨ ar = true ∨ aw = true)

/-! ## The EMS Page-Remap Window -/

/-- EMS_SET_SLOT (45_ems.md R201, R200): the slot's registers are written; its Region is over the slot's window with the page
behind it, enabled with a fresh generation exactly when the mode and the slot are on; one invalidation. -/
def Obligations.SetSlotRedirectsTheWindow : Prop :=
  ∀ (slot : Byte) (en : Bool) (page : Word) (s : State), s.Inv →
    (s.plat.nEms ≤ slot.toNat ∨ 2 ^ s.plat.emsPageBits ≤ page.toNat →
      failsWith (exec (.emsSetSlot slot en page) s) s .errRange)
    ∧ (slot.toNat < s.plat.nEms → page.toNat < 2 ^ s.plat.emsPageBits →
      ∃ t, exec (.emsSetSlot slot en page) s = .next t
        ∧ t = { s with
            rgn := t.rgn
            genCtr := if s.emsMode && en then s.genCtr + 1 else s.genCtr
            emsSlot := s.emsSlot.set slot.toNat { enabled := en, page := page }
            stale := false
            invalCount := s.invalCount + 1
            events := s.events ++ [Event.inval (s.invalCount + 1)]
            cp := s.cp + 1
            result := some { status := .ok, data := .none } }
        ∧ t.rgnAt (.ems slot.toNat) =
            { valid := true
              base := s.plat.emsVbase.getD slot.toNat 0
              size := s.plat.emsPageSize
              enabled := s.emsMode && en
              gen := if s.emsMode && en then s.genCtr + 1 else (s.rgnAt (.ems slot.toNat)).gen
              cls := .bypass
              backing := .direct .ram (s.plat.emsBackingBase + page.toNat * s.plat.emsPageSize) }
        ∧ (∀ id, id ≠ .ems slot.toNat → t.rgnAt id = s.rgnAt id)
        ∧ s.sameMemory t)

/-- EMS_SET_MODE (R202, R200): every slot is applied in order: its Region is enabled, with a generation newer than all before
the command and than those of the lower slots, exactly when the mode and the slot are on; the counter goes up once for each
of those (R26); one invalidation. -/
def Obligations.SetModeAppliesEverySlot : Prop :=
  ∀ (on : Bool) (s : State), s.Inv →
    ∃ t, exec (.emsSetMode on) s = .next t
      ∧ t = { s with
          rgn := t.rgn
          genCtr := t.genCtr
          emsMode := on
          stale := false
          invalCount := s.invalCount + 1
          events := s.events ++ [Event.inval (s.invalCount + 1)]
          cp := s.cp + 1
          result := some { status := .ok, data := .none } }
      ∧ (∀ k, k < s.plat.nEms →
        t.rgnAt (.ems k) = { s.rgnAt (.ems k) with
          enabled := on && (s.slot k).enabled, gen := (t.rgnAt (.ems k)).gen }
        ∧ (on && (s.slot k).enabled → s.genCtr < (t.rgnAt (.ems k)).gen ∧ (t.rgnAt (.ems k)).gen ≤ t.genCtr)
        ∧ (¬ (on && (s.slot k).enabled) → (t.rgnAt (.ems k)).gen = (s.rgnAt (.ems k)).gen))
      ∧ t.genCtr = s.genCtr + (List.range s.plat.nEms).countP (fun k => on && (s.slot k).enabled)
      ∧ (∀ j k, j < k → k < s.plat.nEms → (t.rgnAt (.ems j)).enabled = true → (t.rgnAt (.ems k)).enabled = true →
        (t.rgnAt (.ems j)).gen < (t.rgnAt (.ems k)).gen)
      ∧ (∀ id, (∀ k, id ≠ .ems k) → t.rgnAt id = s.rgnAt id)
      ∧ s.sameMemory t

/-- R203: an enabled slot that is newer than every other enabled Region over an address of its window answers that address for
every agent, kind and policy, out of the page behind it. -/
def Obligations.EnabledSlotAnswersItsWindow : Prop :=
  ∀ (s : State) (k : Nat) (ag : Agent) (aIn : Word) (n : Width) (kind : Kind) (base off : Nat), s.Inv →
    (s.rgnAt (.ems k)).enabled = true → base = s.plat.emsVbase.getD k 0 →
    base ≤ s.a20Mask aIn → s.a20Mask aIn < base + s.plat.emsPageSize →
    (∀ id, id ≠ .ems k → (s.rgnAt id).enabled = true → (s.rgnAt id).base ≤ s.a20Mask aIn →
      s.a20Mask aIn < (s.rgnAt id).base + (s.rgnAt id).size → (s.rgnAt id).gen < (s.rgnAt (.ems k)).gen) →
    off = s.plat.emsBackingBase + (s.slot k).page.toNat * s.plat.emsPageSize + (s.a20Mask aIn - base) →
    s.route ag aIn n kind =
      if off + widthBytes n > s.plat.ramSize then .fill .outOfRange (s.a20Mask aIn)
      else .direct (.ems k) .ram off (s.a20Mask aIn)

/-- R204: when a slot is disabled by EMS_SET_SLOT, or all of them by EMS_SET_MODE 0, an access at the masked address a under
policy p routes, from the next command on, to the newest of the Regions that remain and claim it (`cl`, R65), and to a fill
when none does; the mapping is not stale. -/
def Obligations.DisabledSlotFallsBack : Prop :=
  ∀ (s t : State) (i : Instr) (gone : RegionId → Prop), s.Inv →
    ((∃ slot page, i = .emsSetSlot slot false page ∧ slot.toNat < s.plat.nEms ∧ page.toNat < 2 ^ s.plat.emsPageBits
        ∧ ∀ id, gone id ↔ id = .ems slot.toNat)
      ∨ (i = .emsSetMode false ∧ ∀ id, gone id ↔ ∃ k, id = .ems k)) →
    exec i s = .next t →
    t.stale = false
    ∧ ∀ (ag : Agent) (aIn : Word) (n : Width) (kind : Kind) (a : Nat) (p : Policy) (cl : RegionId → Prop),
      a = s.a20Mask aIn → p = agentPolicy ag (s.policyAt kind (a / s.plat.granule)) →
      (∀ id, cl id ↔
        ¬ gone id ∧ (s.rgnAt id).valid = true ∧ (s.rgnAt id).enabled = true ∧ (s.rgnAt id).base ≤ a
          ∧ a < (s.rgnAt id).base + (s.rgnAt id).size
          ∧ ((s.rgnAt id).cls = .bypass ∨ ((s.rgnAt id).cls = .internal ∧ p = .internal)
            ∨ ((s.rgnAt id).cls = .external ∧ (p = .external ∨ p = .externalAny)))) →
      (∀ id, cl id → (∀ id', id' ≠ id → cl id' → (s.rgnAt id').gen < (s.rgnAt id).gen) →
        t.claimant p a = some (id, s.rgnAt id)
          ∧ t.route ag aIn n kind =
            match (s.rgnAt id).backing with
            | .direct arr o =>
              if o + (a - (s.rgnAt id).base) + widthBytes n > s.arrSize arr then .fill .outOfRange a
              else .direct id arr (o + (a - (s.rgnAt id).base)) a
            | .hooks h _ => .hook id h a (a - (s.rgnAt id).base))
      ∧ ((∀ id, ¬ cl id) →
        t.claimant p a = none
          ∧ t.route ag aIn n kind = .fill (if p = .disabled then .policyDisabled else .noRegion) a)

/-! ## Invalidation and reset -/

/-- INVALIDATE (46_control.md R220, 20_memory.md R81): the flag clears, the count goes up by one and the call is logged, and
nothing else changes, stale or not. -/
def Obligations.InvalidateClearsTheFlag : Prop :=
  ∀ s : State, exec .invalidate s = .next { s with
    stale := false
    invalCount := s.invalCount + 1
    events := s.events ++ [Event.inval (s.invalCount + 1)]
    cp := s.cp + 1
    result := some { status := .ok, data := .none } }

/-- RESET (R221): every component but `ram`, `smram` and `cp` goes to its power-on value, every byte of every array reads as
before, and `cp` advances. The host's side (packets, parameters, draws) stays: the model's choice (log 12). -/
def Obligations.ResetKeepsOnlyTheArrays : Prop :=
  ∀ s : State, s.Inv →
    ∃ t, exec .reset s = .next t
      ∧ t = { State.powerOn s.plat with
          ram := s.ram, smram := s.smram, cp := s.cp + 1, cmds := s.cmds, draws := s.draws
          result := some { status := .ok, data := .none } }
      ∧ s.sameMemory t

/-- The values of 10_state.md R44 at power-on, component by component. -/
def Obligations.PowerOnValues : Prop :=
  ∀ p : Platform, (State.powerOn p).ram = p.ramInit ∧ (State.powerOn p).smram = p.smramInit
    ∧ (State.powerOn p).rom = p.romImage
    ∧ (∀ i, i < p.nRegions → (State.powerOn p).rgnAt (.gen i) =
      { valid := false, base := 0, size := 0, enabled := false, gen := 0, cls := .internal, backing := .direct .ram 0 })
    ∧ (∀ w, w < p.nSmram → (State.powerOn p).rgnAt (.smr w) =
      { valid := true, base := 0, size := 0, enabled := false, gen := 0, cls := .internal, backing := .direct .ram 0 })
    ∧ (∀ k, k < p.nEms → (State.powerOn p).rgnAt (.ems k) =
      { valid := true, base := p.emsVbase.getD k 0, size := p.emsPageSize, enabled := false, gen := 0, cls := .bypass
        backing := .direct .ram p.emsBackingBase })
    ∧ (State.powerOn p).genCtr = 0 ∧ (State.powerOn p).rpol = p.resetRead ∧ (State.powerOn p).wpol = p.resetWrite
    ∧ (∀ r, r < p.shadow.nSreg → (State.powerOn p).sreg[r]? = some 0)
    ∧ (State.powerOn p).a20Src = { kbc := false, alt := false, port := false }
    ∧ (State.powerOn p).effectiveA20 = false
    ∧ (∀ w, w < p.nSmram → (State.powerOn p).smw[w]? = some
      { active := false, host := 0, visible := 0, size := 0, allowR := false, allowW := false, sep := false })
    ∧ (State.powerOn p).smm = false ∧ (State.powerOn p).emsMode = false
    ∧ (∀ k, k < p.nEms → (State.powerOn p).emsSlot[k]? = some { enabled := false, page := 0 })
    ∧ (State.powerOn p).stale = false ∧ (State.powerOn p).invalCount = 0 ∧ (State.powerOn p).events = []
    ∧ (State.powerOn p).fault = none ∧ (State.powerOn p).cp = 0

/-- R261: right after power-on every access of every agent is a fill, so a read returns all ones and a write changes
nothing. -/
def Obligations.PowerOnAccessesAreFills : Prop :=
  ∀ (p : Platform) (ag : Agent) (addr data : Word) (n : Width) (kind : Kind) (fetch : Bool),
    (∃ reason a, reason ≠ .outOfRange ∧ (State.powerOn p).route ag addr n kind = .fill reason a)
    ∧ (∃ v : Word, v.toNat + 1 = 2 ^ (8 * widthBytes n)
      ∧ exec (.read n ag fetch addr) (State.powerOn p) = .next { State.powerOn p with
          cp := 1, result := some { status := .ok, data := .value v } })
    ∧ exec (.write n ag addr data) (State.powerOn p) = .next { State.powerOn p with
        cp := 1, result := some { status := .ok, data := .none } }

/-! ## The whole machine -/

/-- The invariant holds at reset, on the vector platform. -/
def Obligations.InvHoldsAtReset : Prop := State.reset.Inv

/-- The invariant holds at power-on on every legal platform. -/
def Obligations.InvHoldsAtPowerOn : Prop := ∀ p : Platform, p.wf = true → (State.powerOn p).Inv

/-- Every step keeps the invariant, from every state that has it: the five items of 10_state.md R43 among its fields. -/
def Obligations.EveryStepKeepsInv : Prop := ∀ s t : State, s.Inv → step s = .next t → t.Inv

/-- R233: a command that ends with an error status changes nothing but `cp` and the result record. -/
def Obligations.FailedCommandsChangeNothing : Prop :=
  ∀ (i : Instr) (s t : State) (e : Status) (d : ResultData), exec i s = .next t →
    t.result = some { status := e, data := d } → e ≠ .ok → e ≠ .fault → t = s.failedWith e

/-- R264: which commands, when they end with OK, leave the flag clear, which leave it as it was, and that no command but an
invalidating one clears it. -/
def Obligations.StaleFlagByCommand : Prop :=
  ∀ (i : Instr) (s t : State) (d : ResultData), exec i s = .next t → t.result = some { status := .ok, data := d } →
    (opOf i = .shadowWrite ∨ opOf i = .shadowRecalc ∨ opOf i = .smramSetSmm ∨ opOf i = .emsSetSlot
      ∨ opOf i = .emsSetMode ∨ opOf i = .invalidate ∨ opOf i = .reset → t.stale = false)
    ∧ (opOf i = .getPolicy ∨ opOf i = .decode ∨ opOf i = .read ∨ opOf i = .write ∨ opOf i = .shadowRead
      ∨ opOf i = .a20Get → t.stale = s.stale)
    ∧ (opOf i = .register ∨ opOf i = .enable ∨ opOf i = .disable ∨ opOf i = .setBase ∨ opOf i = .setBacking
      ∨ opOf i = .setPolicy ∨ opOf i = .smramDisableAll ∨ opOf i = .smramEnable → s.stale = true → t.stale = true)

/-- R42, R21, R23, R26, R28, R29, R31–R37, R39, R45: which commands write which part of the state; nothing writes the
parameters, and the ROM stays what it is, or ROM_IMAGE after RESET. -/
def Obligations.EachPartHasItsWriters : Prop :=
  ∀ (i : Instr) (s t : State), exec i s = .next t →
    t.plat = s.plat
    ∧ (opOf i ≠ .reset → t.rom = s.rom) ∧ (opOf i = .reset → t.rom = s.plat.romImage)
    ∧ (opOf i ≠ .write → s.ram = t.ram ∧ s.smram = t.smram)
    ∧ (opOf i ≠ .shadowWrite → opOf i ≠ .reset → t.sreg = s.sreg)
    ∧ (opOf i ≠ .setPolicy → opOf i ≠ .shadowWrite → opOf i ≠ .shadowRecalc → opOf i ≠ .smramEnable →
      opOf i ≠ .smramSetSmm → opOf i ≠ .reset → t.rpol = s.rpol ∧ t.wpol = s.wpol)
    ∧ (opOf i ≠ .a20Set → opOf i ≠ .reset → t.a20Src = s.a20Src ∧ t.effectiveA20 = s.effectiveA20)
    ∧ (opOf i ≠ .smramEnable → opOf i ≠ .smramDisableAll → opOf i ≠ .reset → t.smw = s.smw)
    ∧ (opOf i ≠ .smramSetSmm → opOf i ≠ .reset → t.smm = s.smm)
    ∧ (opOf i ≠ .emsSetMode → opOf i ≠ .reset → t.emsMode = s.emsMode)
    ∧ (opOf i ≠ .emsSetSlot → opOf i ≠ .reset → t.emsSlot = s.emsSlot)
    ∧ (opOf i ≠ .register → opOf i ≠ .enable → opOf i ≠ .disable → opOf i ≠ .setBase → opOf i ≠ .setBacking →
      opOf i ≠ .reset → t.rgn.gen = s.rgn.gen)
    ∧ (opOf i ≠ .smramEnable → opOf i ≠ .smramDisableAll → opOf i ≠ .smramSetSmm → opOf i ≠ .reset →
      t.rgn.smr = s.rgn.smr)
    ∧ (opOf i ≠ .emsSetSlot → opOf i ≠ .emsSetMode → opOf i ≠ .reset → t.rgn.ems = s.rgn.ems)
    ∧ (opOf i ≠ .register → opOf i ≠ .enable → opOf i ≠ .smramEnable → opOf i ≠ .smramSetSmm → opOf i ≠ .emsSetSlot →
      opOf i ≠ .emsSetMode → opOf i ≠ .reset → t.genCtr = s.genCtr)
    ∧ (opOf i = .getPolicy ∨ opOf i = .decode ∨ opOf i = .read ∨ opOf i = .write ∨ opOf i = .shadowRead
      ∨ opOf i = .a20Get → t.stale = s.stale)
    ∧ (opOf i ≠ .shadowWrite → opOf i ≠ .shadowRecalc → opOf i ≠ .a20Set → opOf i ≠ .smramSetSmm →
      opOf i ≠ .emsSetSlot → opOf i ≠ .emsSetMode → opOf i ≠ .invalidate → opOf i ≠ .reset →
      t.invalCount = s.invalCount ∧ (opOf i ≠ .read → opOf i ≠ .write → t.events = s.events))
    ∧ (opOf i ≠ .read → opOf i ≠ .write → opOf i ≠ .reset → t.fault = s.fault)
    ∧ (s.stale = false → opOf i ≠ .reset → t.fault = s.fault) ∧ (opOf i = .reset → s.fault = none → t.fault = none)
    ∧ t.cmds = s.cmds ∧ (opOf i ≠ .read → t.draws = s.draws)

end
end

