-- ==== Sys2Proof/Laws/Memory.lean ====
section
/-! SUPPORT. The laws of the writable byte arrays: read after write, everything else unchanged, and the canonical
form kept. -/

namespace Sys2Proof.Machine

@[simp] theorem Memory.read_nil (off : Nat) : Memory.read [] off = Memory.blank := rfl

theorem Memory.read_cons (k : Nat) (b : Byte) (m : Memory) (off : Nat) :
    Memory.read ((k, b) :: m) off = if off = k then b else Memory.read m off := rfl

theorem Memory.read_put_same (m : Memory) (off : Nat) (b : Byte) (h : ∀ c ∈ m, c.1 ≠ off) :
    Memory.read (Memory.put m off b) off = b := by
  induction m with
  | nil => simp [Memory.put, Memory.read_cons]
  | cons c m ih =>
    obtain ⟨k, d⟩ := c
    have hk : off ≠ k := fun e => h (k, d) (by simp) e.symm
    simp only [Memory.put]
    split
    · simp [Memory.read_cons]
    · simp [Memory.read_cons, hk, ih (fun c hc => h c (by simp [hc]))]

theorem Memory.read_put_other (m : Memory) (off a : Nat) (b : Byte) (h : a ≠ off) :
    Memory.read (Memory.put m off b) a = Memory.read m a := by
  induction m with
  | nil => simp [Memory.put, Memory.read_cons, h]
  | cons c m ih =>
    obtain ⟨k, d⟩ := c
    simp only [Memory.put]
    split
    · simp [Memory.read_cons, h]
    · simp [Memory.read_cons, ih]

theorem Memory.read_filter_same (m : Memory) (off : Nat) :
    Memory.read (m.filter (fun c => c.1 ≠ off)) off = Memory.blank := by
  induction m with
  | nil => rfl
  | cons c m ih =>
    obtain ⟨k, d⟩ := c
    by_cases hk : k = off
    · simpa [hk] using ih
    · simpa [hk, Memory.read_cons, Ne.symm hk] using ih

theorem Memory.read_filter_other (m : Memory) (off a : Nat) (h : a ≠ off) :
    Memory.read (m.filter (fun c => c.1 ≠ off)) a = Memory.read m a := by
  induction m with
  | nil => rfl
  | cons c m ih =>
    obtain ⟨k, d⟩ := c
    by_cases hk : k = off
    · subst hk
      simpa [Memory.read_cons, h] using ih
    · simp only [ne_eq, decide_not] at ih
      simp [hk, Memory.read_cons, ih]

/-- A read after a write to the same place gives the byte written. -/
@[simp] theorem Memory.read_write_same (m : Memory) (off : Nat) (b : Byte) :
    Memory.read (Memory.write m off b) off = b := by
  unfold Memory.write
  split
  · next hb => rw [Memory.read_filter_same, hb]
  · exact Memory.read_put_same _ _ _ (fun c hc => by simpa using (List.mem_filter.1 hc).2)

/-- A write leaves every other place alone. -/
theorem Memory.read_write_other (m : Memory) (off a : Nat) (b : Byte) (h : a ≠ off) :
    Memory.read (Memory.write m off b) a = Memory.read m a := by
  unfold Memory.write
  split
  · exact Memory.read_filter_other m off a h
  · rw [Memory.read_put_other _ _ _ _ h, Memory.read_filter_other m off a h]

theorem Memory.read_write (m : Memory) (off a : Nat) (b : Byte) :
    Memory.read (Memory.write m off b) a = if a = off then b else Memory.read m a := by
  by_cases h : a = off
  · simp [h]
  · simp [h, Memory.read_write_other m off a b h]

theorem Memory.mem_put (m : Memory) (off : Nat) (b : Byte) (c : Host.Cell) :
    c ∈ Memory.put m off b ↔ c = (off, b) ∨ c ∈ m := by
  induction m with
  | nil => simp [Memory.put]
  | cons d m ih =>
    obtain ⟨k, e⟩ := d
    simp only [Memory.put]
    split
    · simp
    · simp only [List.mem_cons, ih]
      tauto

theorem Memory.pairwise_put (m : Memory) (off : Nat) (b : Byte)
    (hm : m.Pairwise (fun c d => c.1 < d.1)) (h : ∀ c ∈ m, c.1 ≠ off) :
    (Memory.put m off b).Pairwise (fun c d => c.1 < d.1) := by
  induction m with
  | nil => simp [Memory.put]
  | cons d m ih =>
    obtain ⟨k, e⟩ := d
    obtain ⟨hk, hm'⟩ := List.pairwise_cons.1 hm
    simp only [Memory.put]
    split
    · next hlt =>
      refine List.pairwise_cons.2 ⟨fun c hc => ?_, hm⟩
      rcases List.mem_cons.1 hc with rfl | hc
      · exact hlt
      · exact Nat.lt_trans hlt (hk c hc)
    · next hlt =>
      have hne : k ≠ off := h (k, e) (by simp)
      refine List.pairwise_cons.2 ⟨fun c hc => ?_, ih hm' (fun c hc => h c (by simp [hc]))⟩
      rcases (Memory.mem_put m off b c).1 hc with rfl | hc
      · simp only; omega
      · exact hk c hc

/-- Every write keeps the canonical form. -/
theorem Memory.wf_write (m : Memory) (off : Nat) (b : Byte) (h : Memory.wf m) :
    Memory.wf (Memory.write m off b) := by
  have hf : (m.filter (fun c => c.1 ≠ off)).Pairwise (fun c d => c.1 < d.1) := h.1.filter _
  unfold Memory.write
  split
  · exact ⟨hf, fun c hc => h.2 c (List.mem_filter.1 hc).1⟩
  · next hb =>
    refine ⟨Memory.pairwise_put _ _ _ hf (fun c hc => by simpa using (List.mem_filter.1 hc).2), fun c hc => ?_⟩
    rcases (Memory.mem_put _ _ _ c).1 hc with rfl | hc
    · exact hb
    · exact h.2 c (List.mem_filter.1 hc).1

/-- A write inside the array keeps every listed offset inside it. -/
theorem Memory.below_write (m : Memory) (off size : Nat) (b : Byte) (h : Memory.below m size) (ho : off < size) :
    Memory.below (Memory.write m off b) size := by
  intro c hc
  unfold Memory.write at hc
  split at hc
  · exact h c (List.mem_filter.1 hc).1
  · rcases (Memory.mem_put _ _ _ c).1 hc with rfl | hc
    · exact ho
    · exact h c (List.mem_filter.1 hc).1

end Sys2Proof.Machine
end

