-- ==== Sys2Proof/Laws/State.lean ====
section
/-! SUPPORT. The fields of a state after each update: one lemma for each field an update leaves alone, and one for each
it writes. -/

namespace Sys2Proof.Machine

variable (s : State)

/-! ### log -/

@[simp] theorem State.log_ram (e : Event) : (s.log e).ram = s.ram := rfl
@[simp] theorem State.log_rom (e : Event) : (s.log e).rom = s.rom := rfl
@[simp] theorem State.log_smram (e : Event) : (s.log e).smram = s.smram := rfl
@[simp] theorem State.log_rgn (e : Event) : (s.log e).rgn = s.rgn := rfl
@[simp] theorem State.log_genCtr (e : Event) : (s.log e).genCtr = s.genCtr := rfl
@[simp] theorem State.log_rpol (e : Event) : (s.log e).rpol = s.rpol := rfl
@[simp] theorem State.log_wpol (e : Event) : (s.log e).wpol = s.wpol := rfl
@[simp] theorem State.log_sreg (e : Event) : (s.log e).sreg = s.sreg := rfl
@[simp] theorem State.log_a20Src (e : Event) : (s.log e).a20Src = s.a20Src := rfl
@[simp] theorem State.log_effectiveA20 (e : Event) : (s.log e).effectiveA20 = s.effectiveA20 := rfl
@[simp] theorem State.log_smw (e : Event) : (s.log e).smw = s.smw := rfl
@[simp] theorem State.log_smm (e : Event) : (s.log e).smm = s.smm := rfl
@[simp] theorem State.log_emsMode (e : Event) : (s.log e).emsMode = s.emsMode := rfl
@[simp] theorem State.log_emsSlot (e : Event) : (s.log e).emsSlot = s.emsSlot := rfl
@[simp] theorem State.log_stale (e : Event) : (s.log e).stale = s.stale := rfl
@[simp] theorem State.log_invalCount (e : Event) : (s.log e).invalCount = s.invalCount := rfl
@[simp] theorem State.log_fault (e : Event) : (s.log e).fault = s.fault := rfl
@[simp] theorem State.log_cp (e : Event) : (s.log e).cp = s.cp := rfl
@[simp] theorem State.log_plat (e : Event) : (s.log e).plat = s.plat := rfl
@[simp] theorem State.log_cmds (e : Event) : (s.log e).cmds = s.cmds := rfl
@[simp] theorem State.log_result (e : Event) : (s.log e).result = s.result := rfl
@[simp] theorem State.log_draws (e : Event) : (s.log e).draws = s.draws := rfl

/-! ### invalidate -/

@[simp] theorem State.invalidate_ram : (s.invalidate).ram = s.ram := rfl
@[simp] theorem State.invalidate_rom : (s.invalidate).rom = s.rom := rfl
@[simp] theorem State.invalidate_smram : (s.invalidate).smram = s.smram := rfl
@[simp] theorem State.invalidate_rgn : (s.invalidate).rgn = s.rgn := rfl
@[simp] theorem State.invalidate_genCtr : (s.invalidate).genCtr = s.genCtr := rfl
@[simp] theorem State.invalidate_rpol : (s.invalidate).rpol = s.rpol := rfl
@[simp] theorem State.invalidate_wpol : (s.invalidate).wpol = s.wpol := rfl
@[simp] theorem State.invalidate_sreg : (s.invalidate).sreg = s.sreg := rfl
@[simp] theorem State.invalidate_a20Src : (s.invalidate).a20Src = s.a20Src := rfl
@[simp] theorem State.invalidate_effectiveA20 : (s.invalidate).effectiveA20 = s.effectiveA20 := rfl
@[simp] theorem State.invalidate_smw : (s.invalidate).smw = s.smw := rfl
@[simp] theorem State.invalidate_smm : (s.invalidate).smm = s.smm := rfl
@[simp] theorem State.invalidate_emsMode : (s.invalidate).emsMode = s.emsMode := rfl
@[simp] theorem State.invalidate_emsSlot : (s.invalidate).emsSlot = s.emsSlot := rfl
@[simp] theorem State.invalidate_fault : (s.invalidate).fault = s.fault := rfl
@[simp] theorem State.invalidate_cp : (s.invalidate).cp = s.cp := rfl
@[simp] theorem State.invalidate_plat : (s.invalidate).plat = s.plat := rfl
@[simp] theorem State.invalidate_cmds : (s.invalidate).cmds = s.cmds := rfl
@[simp] theorem State.invalidate_result : (s.invalidate).result = s.result := rfl
@[simp] theorem State.invalidate_draws : (s.invalidate).draws = s.draws := rfl

/-! ### done -/

@[simp] theorem State.done_ram (d : ResultData) : (s.done d).ram = s.ram := rfl
@[simp] theorem State.done_rom (d : ResultData) : (s.done d).rom = s.rom := rfl
@[simp] theorem State.done_smram (d : ResultData) : (s.done d).smram = s.smram := rfl
@[simp] theorem State.done_rgn (d : ResultData) : (s.done d).rgn = s.rgn := rfl
@[simp] theorem State.done_genCtr (d : ResultData) : (s.done d).genCtr = s.genCtr := rfl
@[simp] theorem State.done_rpol (d : ResultData) : (s.done d).rpol = s.rpol := rfl
@[simp] theorem State.done_wpol (d : ResultData) : (s.done d).wpol = s.wpol := rfl
@[simp] theorem State.done_sreg (d : ResultData) : (s.done d).sreg = s.sreg := rfl
@[simp] theorem State.done_a20Src (d : ResultData) : (s.done d).a20Src = s.a20Src := rfl
@[simp] theorem State.done_effectiveA20 (d : ResultData) : (s.done d).effectiveA20 = s.effectiveA20 := rfl
@[simp] theorem State.done_smw (d : ResultData) : (s.done d).smw = s.smw := rfl
@[simp] theorem State.done_smm (d : ResultData) : (s.done d).smm = s.smm := rfl
@[simp] theorem State.done_emsMode (d : ResultData) : (s.done d).emsMode = s.emsMode := rfl
@[simp] theorem State.done_emsSlot (d : ResultData) : (s.done d).emsSlot = s.emsSlot := rfl
@[simp] theorem State.done_stale (d : ResultData) : (s.done d).stale = s.stale := rfl
@[simp] theorem State.done_invalCount (d : ResultData) : (s.done d).invalCount = s.invalCount := rfl
@[simp] theorem State.done_events (d : ResultData) : (s.done d).events = s.events := rfl
@[simp] theorem State.done_fault (d : ResultData) : (s.done d).fault = s.fault := rfl
@[simp] theorem State.done_plat (d : ResultData) : (s.done d).plat = s.plat := rfl
@[simp] theorem State.done_cmds (d : ResultData) : (s.done d).cmds = s.cmds := rfl
@[simp] theorem State.done_draws (d : ResultData) : (s.done d).draws = s.draws := rfl

/-! ### fail -/

@[simp] theorem State.fail_ram (e : Status) : (s.fail e).ram = s.ram := rfl
@[simp] theorem State.fail_rom (e : Status) : (s.fail e).rom = s.rom := rfl
@[simp] theorem State.fail_smram (e : Status) : (s.fail e).smram = s.smram := rfl
@[simp] theorem State.fail_rgn (e : Status) : (s.fail e).rgn = s.rgn := rfl
@[simp] theorem State.fail_genCtr (e : Status) : (s.fail e).genCtr = s.genCtr := rfl
@[simp] theorem State.fail_rpol (e : Status) : (s.fail e).rpol = s.rpol := rfl
@[simp] theorem State.fail_wpol (e : Status) : (s.fail e).wpol = s.wpol := rfl
@[simp] theorem State.fail_sreg (e : Status) : (s.fail e).sreg = s.sreg := rfl
@[simp] theorem State.fail_a20Src (e : Status) : (s.fail e).a20Src = s.a20Src := rfl
@[simp] theorem State.fail_effectiveA20 (e : Status) : (s.fail e).effectiveA20 = s.effectiveA20 := rfl
@[simp] theorem State.fail_smw (e : Status) : (s.fail e).smw = s.smw := rfl
@[simp] theorem State.fail_smm (e : Status) : (s.fail e).smm = s.smm := rfl
@[simp] theorem State.fail_emsMode (e : Status) : (s.fail e).emsMode = s.emsMode := rfl
@[simp] theorem State.fail_emsSlot (e : Status) : (s.fail e).emsSlot = s.emsSlot := rfl
@[simp] theorem State.fail_stale (e : Status) : (s.fail e).stale = s.stale := rfl
@[simp] theorem State.fail_invalCount (e : Status) : (s.fail e).invalCount = s.invalCount := rfl
@[simp] theorem State.fail_events (e : Status) : (s.fail e).events = s.events := rfl
@[simp] theorem State.fail_fault (e : Status) : (s.fail e).fault = s.fault := rfl
@[simp] theorem State.fail_plat (e : Status) : (s.fail e).plat = s.plat := rfl
@[simp] theorem State.fail_cmds (e : Status) : (s.fail e).cmds = s.cmds := rfl
@[simp] theorem State.fail_draws (e : Status) : (s.fail e).draws = s.draws := rfl

/-! ### takeStaleMap -/

@[simp] theorem State.takeStaleMap_ram (kind : FaultKind) (aIn : Word) : (s.takeStaleMap kind aIn).ram = s.ram := rfl
@[simp] theorem State.takeStaleMap_rom (kind : FaultKind) (aIn : Word) : (s.takeStaleMap kind aIn).rom = s.rom := rfl
@[simp] theorem State.takeStaleMap_smram (kind : FaultKind) (aIn : Word) : (s.takeStaleMap kind aIn).smram = s.smram := rfl
@[simp] theorem State.takeStaleMap_rgn (kind : FaultKind) (aIn : Word) : (s.takeStaleMap kind aIn).rgn = s.rgn := rfl
@[simp] theorem State.takeStaleMap_genCtr (kind : FaultKind) (aIn : Word) : (s.takeStaleMap kind aIn).genCtr = s.genCtr := rfl
@[simp] theorem State.takeStaleMap_rpol (kind : FaultKind) (aIn : Word) : (s.takeStaleMap kind aIn).rpol = s.rpol := rfl
@[simp] theorem State.takeStaleMap_wpol (kind : FaultKind) (aIn : Word) : (s.takeStaleMap kind aIn).wpol = s.wpol := rfl
@[simp] theorem State.takeStaleMap_sreg (kind : FaultKind) (aIn : Word) : (s.takeStaleMap kind aIn).sreg = s.sreg := rfl
@[simp] theorem State.takeStaleMap_a20Src (kind : FaultKind) (aIn : Word) : (s.takeStaleMap kind aIn).a20Src = s.a20Src := rfl
@[simp] theorem State.takeStaleMap_effectiveA20 (kind : FaultKind) (aIn : Word) : (s.takeStaleMap kind aIn).effectiveA20 = s.effectiveA20 := rfl
@[simp] theorem State.takeStaleMap_smw (kind : FaultKind) (aIn : Word) : (s.takeStaleMap kind aIn).smw = s.smw := rfl
@[simp] theorem State.takeStaleMap_smm (kind : FaultKind) (aIn : Word) : (s.takeStaleMap kind aIn).smm = s.smm := rfl
@[simp] theorem State.takeStaleMap_emsMode (kind : FaultKind) (aIn : Word) : (s.takeStaleMap kind aIn).emsMode = s.emsMode := rfl
@[simp] theorem State.takeStaleMap_emsSlot (kind : FaultKind) (aIn : Word) : (s.takeStaleMap kind aIn).emsSlot = s.emsSlot := rfl
@[simp] theorem State.takeStaleMap_stale (kind : FaultKind) (aIn : Word) : (s.takeStaleMap kind aIn).stale = s.stale := rfl
@[simp] theorem State.takeStaleMap_invalCount (kind : FaultKind) (aIn : Word) : (s.takeStaleMap kind aIn).invalCount = s.invalCount := rfl
@[simp] theorem State.takeStaleMap_events (kind : FaultKind) (aIn : Word) : (s.takeStaleMap kind aIn).events = s.events := rfl
@[simp] theorem State.takeStaleMap_cp (kind : FaultKind) (aIn : Word) : (s.takeStaleMap kind aIn).cp = s.cp := rfl
@[simp] theorem State.takeStaleMap_plat (kind : FaultKind) (aIn : Word) : (s.takeStaleMap kind aIn).plat = s.plat := rfl
@[simp] theorem State.takeStaleMap_cmds (kind : FaultKind) (aIn : Word) : (s.takeStaleMap kind aIn).cmds = s.cmds := rfl
@[simp] theorem State.takeStaleMap_draws (kind : FaultKind) (aIn : Word) : (s.takeStaleMap kind aIn).draws = s.draws := rfl

/-! ### haltedCommand -/

@[simp] theorem State.haltedCommand_ram : (s.haltedCommand).ram = s.ram := rfl
@[simp] theorem State.haltedCommand_rom : (s.haltedCommand).rom = s.rom := rfl
@[simp] theorem State.haltedCommand_smram : (s.haltedCommand).smram = s.smram := rfl
@[simp] theorem State.haltedCommand_rgn : (s.haltedCommand).rgn = s.rgn := rfl
@[simp] theorem State.haltedCommand_genCtr : (s.haltedCommand).genCtr = s.genCtr := rfl
@[simp] theorem State.haltedCommand_rpol : (s.haltedCommand).rpol = s.rpol := rfl
@[simp] theorem State.haltedCommand_wpol : (s.haltedCommand).wpol = s.wpol := rfl
@[simp] theorem State.haltedCommand_sreg : (s.haltedCommand).sreg = s.sreg := rfl
@[simp] theorem State.haltedCommand_a20Src : (s.haltedCommand).a20Src = s.a20Src := rfl
@[simp] theorem State.haltedCommand_effectiveA20 : (s.haltedCommand).effectiveA20 = s.effectiveA20 := rfl
@[simp] theorem State.haltedCommand_smw : (s.haltedCommand).smw = s.smw := rfl
@[simp] theorem State.haltedCommand_smm : (s.haltedCommand).smm = s.smm := rfl
@[simp] theorem State.haltedCommand_emsMode : (s.haltedCommand).emsMode = s.emsMode := rfl
@[simp] theorem State.haltedCommand_emsSlot : (s.haltedCommand).emsSlot = s.emsSlot := rfl
@[simp] theorem State.haltedCommand_stale : (s.haltedCommand).stale = s.stale := rfl
@[simp] theorem State.haltedCommand_invalCount : (s.haltedCommand).invalCount = s.invalCount := rfl
@[simp] theorem State.haltedCommand_events : (s.haltedCommand).events = s.events := rfl
@[simp] theorem State.haltedCommand_fault : (s.haltedCommand).fault = s.fault := rfl
@[simp] theorem State.haltedCommand_cp : (s.haltedCommand).cp = s.cp := rfl
@[simp] theorem State.haltedCommand_plat : (s.haltedCommand).plat = s.plat := rfl
@[simp] theorem State.haltedCommand_cmds : (s.haltedCommand).cmds = s.cmds := rfl
@[simp] theorem State.haltedCommand_draws : (s.haltedCommand).draws = s.draws := rfl

/-! ### bumpGen -/

@[simp] theorem State.bumpGen_ram : (s.bumpGen).ram = s.ram := rfl
@[simp] theorem State.bumpGen_rom : (s.bumpGen).rom = s.rom := rfl
@[simp] theorem State.bumpGen_smram : (s.bumpGen).smram = s.smram := rfl
@[simp] theorem State.bumpGen_rgn : (s.bumpGen).rgn = s.rgn := rfl
@[simp] theorem State.bumpGen_rpol : (s.bumpGen).rpol = s.rpol := rfl
@[simp] theorem State.bumpGen_wpol : (s.bumpGen).wpol = s.wpol := rfl
@[simp] theorem State.bumpGen_sreg : (s.bumpGen).sreg = s.sreg := rfl
@[simp] theorem State.bumpGen_a20Src : (s.bumpGen).a20Src = s.a20Src := rfl
@[simp] theorem State.bumpGen_effectiveA20 : (s.bumpGen).effectiveA20 = s.effectiveA20 := rfl
@[simp] theorem State.bumpGen_smw : (s.bumpGen).smw = s.smw := rfl
@[simp] theorem State.bumpGen_smm : (s.bumpGen).smm = s.smm := rfl
@[simp] theorem State.bumpGen_emsMode : (s.bumpGen).emsMode = s.emsMode := rfl
@[simp] theorem State.bumpGen_emsSlot : (s.bumpGen).emsSlot = s.emsSlot := rfl
@[simp] theorem State.bumpGen_stale : (s.bumpGen).stale = s.stale := rfl
@[simp] theorem State.bumpGen_invalCount : (s.bumpGen).invalCount = s.invalCount := rfl
@[simp] theorem State.bumpGen_events : (s.bumpGen).events = s.events := rfl
@[simp] theorem State.bumpGen_fault : (s.bumpGen).fault = s.fault := rfl
@[simp] theorem State.bumpGen_cp : (s.bumpGen).cp = s.cp := rfl
@[simp] theorem State.bumpGen_plat : (s.bumpGen).plat = s.plat := rfl
@[simp] theorem State.bumpGen_cmds : (s.bumpGen).cmds = s.cmds := rfl
@[simp] theorem State.bumpGen_result : (s.bumpGen).result = s.result := rfl
@[simp] theorem State.bumpGen_draws : (s.bumpGen).draws = s.draws := rfl

/-! ### setRgn -/

@[simp] theorem State.setRgn_ram (id : RegionId) (r : Region) : (s.setRgn id r).ram = s.ram := by cases id <;> rfl
@[simp] theorem State.setRgn_rom (id : RegionId) (r : Region) : (s.setRgn id r).rom = s.rom := by cases id <;> rfl
@[simp] theorem State.setRgn_smram (id : RegionId) (r : Region) : (s.setRgn id r).smram = s.smram := by cases id <;> rfl
@[simp] theorem State.setRgn_genCtr (id : RegionId) (r : Region) : (s.setRgn id r).genCtr = s.genCtr := by cases id <;> rfl
@[simp] theorem State.setRgn_rpol (id : RegionId) (r : Region) : (s.setRgn id r).rpol = s.rpol := by cases id <;> rfl
@[simp] theorem State.setRgn_wpol (id : RegionId) (r : Region) : (s.setRgn id r).wpol = s.wpol := by cases id <;> rfl
@[simp] theorem State.setRgn_sreg (id : RegionId) (r : Region) : (s.setRgn id r).sreg = s.sreg := by cases id <;> rfl
@[simp] theorem State.setRgn_a20Src (id : RegionId) (r : Region) : (s.setRgn id r).a20Src = s.a20Src := by cases id <;> rfl
@[simp] theorem State.setRgn_effectiveA20 (id : RegionId) (r : Region) : (s.setRgn id r).effectiveA20 = s.effectiveA20 := by cases id <;> rfl
@[simp] theorem State.setRgn_smw (id : RegionId) (r : Region) : (s.setRgn id r).smw = s.smw := by cases id <;> rfl
@[simp] theorem State.setRgn_smm (id : RegionId) (r : Region) : (s.setRgn id r).smm = s.smm := by cases id <;> rfl
@[simp] theorem State.setRgn_emsMode (id : RegionId) (r : Region) : (s.setRgn id r).emsMode = s.emsMode := by cases id <;> rfl
@[simp] theorem State.setRgn_emsSlot (id : RegionId) (r : Region) : (s.setRgn id r).emsSlot = s.emsSlot := by cases id <;> rfl
@[simp] theorem State.setRgn_stale (id : RegionId) (r : Region) : (s.setRgn id r).stale = s.stale := by cases id <;> rfl
@[simp] theorem State.setRgn_invalCount (id : RegionId) (r : Region) : (s.setRgn id r).invalCount = s.invalCount := by cases id <;> rfl
@[simp] theorem State.setRgn_events (id : RegionId) (r : Region) : (s.setRgn id r).events = s.events := by cases id <;> rfl
@[simp] theorem State.setRgn_fault (id : RegionId) (r : Region) : (s.setRgn id r).fault = s.fault := by cases id <;> rfl
@[simp] theorem State.setRgn_cp (id : RegionId) (r : Region) : (s.setRgn id r).cp = s.cp := by cases id <;> rfl
@[simp] theorem State.setRgn_plat (id : RegionId) (r : Region) : (s.setRgn id r).plat = s.plat := by cases id <;> rfl
@[simp] theorem State.setRgn_cmds (id : RegionId) (r : Region) : (s.setRgn id r).cmds = s.cmds := by cases id <;> rfl
@[simp] theorem State.setRgn_result (id : RegionId) (r : Region) : (s.setRgn id r).result = s.result := by cases id <;> rfl
@[simp] theorem State.setRgn_draws (id : RegionId) (r : Region) : (s.setRgn id r).draws = s.draws := by cases id <;> rfl

/-! ### enableRgn -/

@[simp] theorem State.enableRgn_ram (id : RegionId) : (s.enableRgn id).ram = s.ram := by unfold State.enableRgn; split <;> simp
@[simp] theorem State.enableRgn_rom (id : RegionId) : (s.enableRgn id).rom = s.rom := by unfold State.enableRgn; split <;> simp
@[simp] theorem State.enableRgn_smram (id : RegionId) : (s.enableRgn id).smram = s.smram := by unfold State.enableRgn; split <;> simp
@[simp] theorem State.enableRgn_rpol (id : RegionId) : (s.enableRgn id).rpol = s.rpol := by unfold State.enableRgn; split <;> simp
@[simp] theorem State.enableRgn_wpol (id : RegionId) : (s.enableRgn id).wpol = s.wpol := by unfold State.enableRgn; split <;> simp
@[simp] theorem State.enableRgn_sreg (id : RegionId) : (s.enableRgn id).sreg = s.sreg := by unfold State.enableRgn; split <;> simp
@[simp] theorem State.enableRgn_a20Src (id : RegionId) : (s.enableRgn id).a20Src = s.a20Src := by unfold State.enableRgn; split <;> simp
@[simp] theorem State.enableRgn_effectiveA20 (id : RegionId) : (s.enableRgn id).effectiveA20 = s.effectiveA20 := by unfold State.enableRgn; split <;> simp
@[simp] theorem State.enableRgn_smw (id : RegionId) : (s.enableRgn id).smw = s.smw := by unfold State.enableRgn; split <;> simp
@[simp] theorem State.enableRgn_smm (id : RegionId) : (s.enableRgn id).smm = s.smm := by unfold State.enableRgn; split <;> simp
@[simp] theorem State.enableRgn_emsMode (id : RegionId) : (s.enableRgn id).emsMode = s.emsMode := by unfold State.enableRgn; split <;> simp
@[simp] theorem State.enableRgn_emsSlot (id : RegionId) : (s.enableRgn id).emsSlot = s.emsSlot := by unfold State.enableRgn; split <;> simp
@[simp] theorem State.enableRgn_stale (id : RegionId) : (s.enableRgn id).stale = s.stale := by unfold State.enableRgn; split <;> simp
@[simp] theorem State.enableRgn_invalCount (id : RegionId) : (s.enableRgn id).invalCount = s.invalCount := by unfold State.enableRgn; split <;> simp
@[simp] theorem State.enableRgn_events (id : RegionId) : (s.enableRgn id).events = s.events := by unfold State.enableRgn; split <;> simp
@[simp] theorem State.enableRgn_fault (id : RegionId) : (s.enableRgn id).fault = s.fault := by unfold State.enableRgn; split <;> simp
@[simp] theorem State.enableRgn_cp (id : RegionId) : (s.enableRgn id).cp = s.cp := by unfold State.enableRgn; split <;> simp
@[simp] theorem State.enableRgn_plat (id : RegionId) : (s.enableRgn id).plat = s.plat := by unfold State.enableRgn; split <;> simp
@[simp] theorem State.enableRgn_cmds (id : RegionId) : (s.enableRgn id).cmds = s.cmds := by unfold State.enableRgn; split <;> simp
@[simp] theorem State.enableRgn_result (id : RegionId) : (s.enableRgn id).result = s.result := by unfold State.enableRgn; split <;> simp
@[simp] theorem State.enableRgn_draws (id : RegionId) : (s.enableRgn id).draws = s.draws := by unfold State.enableRgn; split <;> simp

/-! ### disableRgn -/

@[simp] theorem State.disableRgn_ram (id : RegionId) : (s.disableRgn id).ram = s.ram := by simp [State.disableRgn]
@[simp] theorem State.disableRgn_rom (id : RegionId) : (s.disableRgn id).rom = s.rom := by simp [State.disableRgn]
@[simp] theorem State.disableRgn_smram (id : RegionId) : (s.disableRgn id).smram = s.smram := by simp [State.disableRgn]
@[simp] theorem State.disableRgn_genCtr (id : RegionId) : (s.disableRgn id).genCtr = s.genCtr := by simp [State.disableRgn]
@[simp] theorem State.disableRgn_rpol (id : RegionId) : (s.disableRgn id).rpol = s.rpol := by simp [State.disableRgn]
@[simp] theorem State.disableRgn_wpol (id : RegionId) : (s.disableRgn id).wpol = s.wpol := by simp [State.disableRgn]
@[simp] theorem State.disableRgn_sreg (id : RegionId) : (s.disableRgn id).sreg = s.sreg := by simp [State.disableRgn]
@[simp] theorem State.disableRgn_a20Src (id : RegionId) : (s.disableRgn id).a20Src = s.a20Src := by simp [State.disableRgn]
@[simp] theorem State.disableRgn_effectiveA20 (id : RegionId) : (s.disableRgn id).effectiveA20 = s.effectiveA20 := by simp [State.disableRgn]
@[simp] theorem State.disableRgn_smw (id : RegionId) : (s.disableRgn id).smw = s.smw := by simp [State.disableRgn]
@[simp] theorem State.disableRgn_smm (id : RegionId) : (s.disableRgn id).smm = s.smm := by simp [State.disableRgn]
@[simp] theorem State.disableRgn_emsMode (id : RegionId) : (s.disableRgn id).emsMode = s.emsMode := by simp [State.disableRgn]
@[simp] theorem State.disableRgn_emsSlot (id : RegionId) : (s.disableRgn id).emsSlot = s.emsSlot := by simp [State.disableRgn]
@[simp] theorem State.disableRgn_stale (id : RegionId) : (s.disableRgn id).stale = s.stale := by simp [State.disableRgn]
@[simp] theorem State.disableRgn_invalCount (id : RegionId) : (s.disableRgn id).invalCount = s.invalCount := by simp [State.disableRgn]
@[simp] theorem State.disableRgn_events (id : RegionId) : (s.disableRgn id).events = s.events := by simp [State.disableRgn]
@[simp] theorem State.disableRgn_fault (id : RegionId) : (s.disableRgn id).fault = s.fault := by simp [State.disableRgn]
@[simp] theorem State.disableRgn_cp (id : RegionId) : (s.disableRgn id).cp = s.cp := by simp [State.disableRgn]
@[simp] theorem State.disableRgn_plat (id : RegionId) : (s.disableRgn id).plat = s.plat := by simp [State.disableRgn]
@[simp] theorem State.disableRgn_cmds (id : RegionId) : (s.disableRgn id).cmds = s.cmds := by simp [State.disableRgn]
@[simp] theorem State.disableRgn_result (id : RegionId) : (s.disableRgn id).result = s.result := by simp [State.disableRgn]
@[simp] theorem State.disableRgn_draws (id : RegionId) : (s.disableRgn id).draws = s.draws := by simp [State.disableRgn]

/-! ### policyFill -/

@[simp] theorem State.policyFill_ram (base size : Nat) (pair : PolicyPair) : (s.policyFill base size pair).ram = s.ram := rfl
@[simp] theorem State.policyFill_rom (base size : Nat) (pair : PolicyPair) : (s.policyFill base size pair).rom = s.rom := rfl
@[simp] theorem State.policyFill_smram (base size : Nat) (pair : PolicyPair) : (s.policyFill base size pair).smram = s.smram := rfl
@[simp] theorem State.policyFill_rgn (base size : Nat) (pair : PolicyPair) : (s.policyFill base size pair).rgn = s.rgn := rfl
@[simp] theorem State.policyFill_genCtr (base size : Nat) (pair : PolicyPair) : (s.policyFill base size pair).genCtr = s.genCtr := rfl
@[simp] theorem State.policyFill_sreg (base size : Nat) (pair : PolicyPair) : (s.policyFill base size pair).sreg = s.sreg := rfl
@[simp] theorem State.policyFill_a20Src (base size : Nat) (pair : PolicyPair) : (s.policyFill base size pair).a20Src = s.a20Src := rfl
@[simp] theorem State.policyFill_effectiveA20 (base size : Nat) (pair : PolicyPair) : (s.policyFill base size pair).effectiveA20 = s.effectiveA20 := rfl
@[simp] theorem State.policyFill_smw (base size : Nat) (pair : PolicyPair) : (s.policyFill base size pair).smw = s.smw := rfl
@[simp] theorem State.policyFill_smm (base size : Nat) (pair : PolicyPair) : (s.policyFill base size pair).smm = s.smm := rfl
@[simp] theorem State.policyFill_emsMode (base size : Nat) (pair : PolicyPair) : (s.policyFill base size pair).emsMode = s.emsMode := rfl
@[simp] theorem State.policyFill_emsSlot (base size : Nat) (pair : PolicyPair) : (s.policyFill base size pair).emsSlot = s.emsSlot := rfl
@[simp] theorem State.policyFill_stale (base size : Nat) (pair : PolicyPair) : (s.policyFill base size pair).stale = s.stale := rfl
@[simp] theorem State.policyFill_invalCount (base size : Nat) (pair : PolicyPair) : (s.policyFill base size pair).invalCount = s.invalCount := rfl
@[simp] theorem State.policyFill_events (base size : Nat) (pair : PolicyPair) : (s.policyFill base size pair).events = s.events := rfl
@[simp] theorem State.policyFill_fault (base size : Nat) (pair : PolicyPair) : (s.policyFill base size pair).fault = s.fault := rfl
@[simp] theorem State.policyFill_cp (base size : Nat) (pair : PolicyPair) : (s.policyFill base size pair).cp = s.cp := rfl
@[simp] theorem State.policyFill_plat (base size : Nat) (pair : PolicyPair) : (s.policyFill base size pair).plat = s.plat := rfl
@[simp] theorem State.policyFill_cmds (base size : Nat) (pair : PolicyPair) : (s.policyFill base size pair).cmds = s.cmds := rfl
@[simp] theorem State.policyFill_result (base size : Nat) (pair : PolicyPair) : (s.policyFill base size pair).result = s.result := rfl
@[simp] theorem State.policyFill_draws (base size : Nat) (pair : PolicyPair) : (s.policyFill base size pair).draws = s.draws := rfl

/-! ### arrWrite -/

@[simp] theorem State.arrWrite_rom (arr : Arr) (off : Nat) (b : Byte) : (s.arrWrite arr off b).rom = s.rom := by cases arr <;> rfl
@[simp] theorem State.arrWrite_rgn (arr : Arr) (off : Nat) (b : Byte) : (s.arrWrite arr off b).rgn = s.rgn := by cases arr <;> rfl
@[simp] theorem State.arrWrite_genCtr (arr : Arr) (off : Nat) (b : Byte) : (s.arrWrite arr off b).genCtr = s.genCtr := by cases arr <;> rfl
@[simp] theorem State.arrWrite_rpol (arr : Arr) (off : Nat) (b : Byte) : (s.arrWrite arr off b).rpol = s.rpol := by cases arr <;> rfl
@[simp] theorem State.arrWrite_wpol (arr : Arr) (off : Nat) (b : Byte) : (s.arrWrite arr off b).wpol = s.wpol := by cases arr <;> rfl
@[simp] theorem State.arrWrite_sreg (arr : Arr) (off : Nat) (b : Byte) : (s.arrWrite arr off b).sreg = s.sreg := by cases arr <;> rfl
@[simp] theorem State.arrWrite_a20Src (arr : Arr) (off : Nat) (b : Byte) : (s.arrWrite arr off b).a20Src = s.a20Src := by cases arr <;> rfl
@[simp] theorem State.arrWrite_effectiveA20 (arr : Arr) (off : Nat) (b : Byte) : (s.arrWrite arr off b).effectiveA20 = s.effectiveA20 := by cases arr <;> rfl
@[simp] theorem State.arrWrite_smw (arr : Arr) (off : Nat) (b : Byte) : (s.arrWrite arr off b).smw = s.smw := by cases arr <;> rfl
@[simp] theorem State.arrWrite_smm (arr : Arr) (off : Nat) (b : Byte) : (s.arrWrite arr off b).smm = s.smm := by cases arr <;> rfl
@[simp] theorem State.arrWrite_emsMode (arr : Arr) (off : Nat) (b : Byte) : (s.arrWrite arr off b).emsMode = s.emsMode := by cases arr <;> rfl
@[simp] theorem State.arrWrite_emsSlot (arr : Arr) (off : Nat) (b : Byte) : (s.arrWrite arr off b).emsSlot = s.emsSlot := by cases arr <;> rfl
@[simp] theorem State.arrWrite_stale (arr : Arr) (off : Nat) (b : Byte) : (s.arrWrite arr off b).stale = s.stale := by cases arr <;> rfl
@[simp] theorem State.arrWrite_invalCount (arr : Arr) (off : Nat) (b : Byte) : (s.arrWrite arr off b).invalCount = s.invalCount := by cases arr <;> rfl
@[simp] theorem State.arrWrite_events (arr : Arr) (off : Nat) (b : Byte) : (s.arrWrite arr off b).events = s.events := by cases arr <;> rfl
@[simp] theorem State.arrWrite_fault (arr : Arr) (off : Nat) (b : Byte) : (s.arrWrite arr off b).fault = s.fault := by cases arr <;> rfl
@[simp] theorem State.arrWrite_cp (arr : Arr) (off : Nat) (b : Byte) : (s.arrWrite arr off b).cp = s.cp := by cases arr <;> rfl
@[simp] theorem State.arrWrite_plat (arr : Arr) (off : Nat) (b : Byte) : (s.arrWrite arr off b).plat = s.plat := by cases arr <;> rfl
@[simp] theorem State.arrWrite_cmds (arr : Arr) (off : Nat) (b : Byte) : (s.arrWrite arr off b).cmds = s.cmds := by cases arr <;> rfl
@[simp] theorem State.arrWrite_result (arr : Arr) (off : Nat) (b : Byte) : (s.arrWrite arr off b).result = s.result := by cases arr <;> rfl
@[simp] theorem State.arrWrite_draws (arr : Arr) (off : Nat) (b : Byte) : (s.arrWrite arr off b).draws = s.draws := by cases arr <;> rfl

/-! ### setA20 -/

@[simp] theorem State.setA20_ram (k : Nat) (v : Bool) : (s.setA20 k v).ram = s.ram := rfl
@[simp] theorem State.setA20_rom (k : Nat) (v : Bool) : (s.setA20 k v).rom = s.rom := rfl
@[simp] theorem State.setA20_smram (k : Nat) (v : Bool) : (s.setA20 k v).smram = s.smram := rfl
@[simp] theorem State.setA20_rgn (k : Nat) (v : Bool) : (s.setA20 k v).rgn = s.rgn := rfl
@[simp] theorem State.setA20_genCtr (k : Nat) (v : Bool) : (s.setA20 k v).genCtr = s.genCtr := rfl
@[simp] theorem State.setA20_rpol (k : Nat) (v : Bool) : (s.setA20 k v).rpol = s.rpol := rfl
@[simp] theorem State.setA20_wpol (k : Nat) (v : Bool) : (s.setA20 k v).wpol = s.wpol := rfl
@[simp] theorem State.setA20_sreg (k : Nat) (v : Bool) : (s.setA20 k v).sreg = s.sreg := rfl
@[simp] theorem State.setA20_smw (k : Nat) (v : Bool) : (s.setA20 k v).smw = s.smw := rfl
@[simp] theorem State.setA20_smm (k : Nat) (v : Bool) : (s.setA20 k v).smm = s.smm := rfl
@[simp] theorem State.setA20_emsMode (k : Nat) (v : Bool) : (s.setA20 k v).emsMode = s.emsMode := rfl
@[simp] theorem State.setA20_emsSlot (k : Nat) (v : Bool) : (s.setA20 k v).emsSlot = s.emsSlot := rfl
@[simp] theorem State.setA20_stale (k : Nat) (v : Bool) : (s.setA20 k v).stale = s.stale := rfl
@[simp] theorem State.setA20_invalCount (k : Nat) (v : Bool) : (s.setA20 k v).invalCount = s.invalCount := rfl
@[simp] theorem State.setA20_events (k : Nat) (v : Bool) : (s.setA20 k v).events = s.events := rfl
@[simp] theorem State.setA20_fault (k : Nat) (v : Bool) : (s.setA20 k v).fault = s.fault := rfl
@[simp] theorem State.setA20_cp (k : Nat) (v : Bool) : (s.setA20 k v).cp = s.cp := rfl
@[simp] theorem State.setA20_plat (k : Nat) (v : Bool) : (s.setA20 k v).plat = s.plat := rfl
@[simp] theorem State.setA20_cmds (k : Nat) (v : Bool) : (s.setA20 k v).cmds = s.cmds := rfl
@[simp] theorem State.setA20_result (k : Nat) (v : Bool) : (s.setA20 k v).result = s.result := rfl
@[simp] theorem State.setA20_draws (k : Nat) (v : Bool) : (s.setA20 k v).draws = s.draws := rfl

/-! ### setWindow -/

@[simp] theorem State.setWindow_ram (w : Nat) (v : SmramWindow) : (s.setWindow w v).ram = s.ram := rfl
@[simp] theorem State.setWindow_rom (w : Nat) (v : SmramWindow) : (s.setWindow w v).rom = s.rom := rfl
@[simp] theorem State.setWindow_smram (w : Nat) (v : SmramWindow) : (s.setWindow w v).smram = s.smram := rfl
@[simp] theorem State.setWindow_rgn (w : Nat) (v : SmramWindow) : (s.setWindow w v).rgn = s.rgn := rfl
@[simp] theorem State.setWindow_genCtr (w : Nat) (v : SmramWindow) : (s.setWindow w v).genCtr = s.genCtr := rfl
@[simp] theorem State.setWindow_rpol (w : Nat) (v : SmramWindow) : (s.setWindow w v).rpol = s.rpol := rfl
@[simp] theorem State.setWindow_wpol (w : Nat) (v : SmramWindow) : (s.setWindow w v).wpol = s.wpol := rfl
@[simp] theorem State.setWindow_sreg (w : Nat) (v : SmramWindow) : (s.setWindow w v).sreg = s.sreg := rfl
@[simp] theorem State.setWindow_a20Src (w : Nat) (v : SmramWindow) : (s.setWindow w v).a20Src = s.a20Src := rfl
@[simp] theorem State.setWindow_effectiveA20 (w : Nat) (v : SmramWindow) : (s.setWindow w v).effectiveA20 = s.effectiveA20 := rfl
@[simp] theorem State.setWindow_smm (w : Nat) (v : SmramWindow) : (s.setWindow w v).smm = s.smm := rfl
@[simp] theorem State.setWindow_emsMode (w : Nat) (v : SmramWindow) : (s.setWindow w v).emsMode = s.emsMode := rfl
@[simp] theorem State.setWindow_emsSlot (w : Nat) (v : SmramWindow) : (s.setWindow w v).emsSlot = s.emsSlot := rfl
@[simp] theorem State.setWindow_stale (w : Nat) (v : SmramWindow) : (s.setWindow w v).stale = s.stale := rfl
@[simp] theorem State.setWindow_invalCount (w : Nat) (v : SmramWindow) : (s.setWindow w v).invalCount = s.invalCount := rfl
@[simp] theorem State.setWindow_events (w : Nat) (v : SmramWindow) : (s.setWindow w v).events = s.events := rfl
@[simp] theorem State.setWindow_fault (w : Nat) (v : SmramWindow) : (s.setWindow w v).fault = s.fault := rfl
@[simp] theorem State.setWindow_cp (w : Nat) (v : SmramWindow) : (s.setWindow w v).cp = s.cp := rfl
@[simp] theorem State.setWindow_plat (w : Nat) (v : SmramWindow) : (s.setWindow w v).plat = s.plat := rfl
@[simp] theorem State.setWindow_cmds (w : Nat) (v : SmramWindow) : (s.setWindow w v).cmds = s.cmds := rfl
@[simp] theorem State.setWindow_result (w : Nat) (v : SmramWindow) : (s.setWindow w v).result = s.result := rfl
@[simp] theorem State.setWindow_draws (w : Nat) (v : SmramWindow) : (s.setWindow w v).draws = s.draws := rfl

/-! ### setSlot -/

@[simp] theorem State.setSlot_ram (k : Nat) (v : EmsSlot) : (s.setSlot k v).ram = s.ram := rfl
@[simp] theorem State.setSlot_rom (k : Nat) (v : EmsSlot) : (s.setSlot k v).rom = s.rom := rfl
@[simp] theorem State.setSlot_smram (k : Nat) (v : EmsSlot) : (s.setSlot k v).smram = s.smram := rfl
@[simp] theorem State.setSlot_rgn (k : Nat) (v : EmsSlot) : (s.setSlot k v).rgn = s.rgn := rfl
@[simp] theorem State.setSlot_genCtr (k : Nat) (v : EmsSlot) : (s.setSlot k v).genCtr = s.genCtr := rfl
@[simp] theorem State.setSlot_rpol (k : Nat) (v : EmsSlot) : (s.setSlot k v).rpol = s.rpol := rfl
@[simp] theorem State.setSlot_wpol (k : Nat) (v : EmsSlot) : (s.setSlot k v).wpol = s.wpol := rfl
@[simp] theorem State.setSlot_sreg (k : Nat) (v : EmsSlot) : (s.setSlot k v).sreg = s.sreg := rfl
@[simp] theorem State.setSlot_a20Src (k : Nat) (v : EmsSlot) : (s.setSlot k v).a20Src = s.a20Src := rfl
@[simp] theorem State.setSlot_effectiveA20 (k : Nat) (v : EmsSlot) : (s.setSlot k v).effectiveA20 = s.effectiveA20 := rfl
@[simp] theorem State.setSlot_smw (k : Nat) (v : EmsSlot) : (s.setSlot k v).smw = s.smw := rfl
@[simp] theorem State.setSlot_smm (k : Nat) (v : EmsSlot) : (s.setSlot k v).smm = s.smm := rfl
@[simp] theorem State.setSlot_emsMode (k : Nat) (v : EmsSlot) : (s.setSlot k v).emsMode = s.emsMode := rfl
@[simp] theorem State.setSlot_stale (k : Nat) (v : EmsSlot) : (s.setSlot k v).stale = s.stale := rfl
@[simp] theorem State.setSlot_invalCount (k : Nat) (v : EmsSlot) : (s.setSlot k v).invalCount = s.invalCount := rfl
@[simp] theorem State.setSlot_events (k : Nat) (v : EmsSlot) : (s.setSlot k v).events = s.events := rfl
@[simp] theorem State.setSlot_fault (k : Nat) (v : EmsSlot) : (s.setSlot k v).fault = s.fault := rfl
@[simp] theorem State.setSlot_cp (k : Nat) (v : EmsSlot) : (s.setSlot k v).cp = s.cp := rfl
@[simp] theorem State.setSlot_plat (k : Nat) (v : EmsSlot) : (s.setSlot k v).plat = s.plat := rfl
@[simp] theorem State.setSlot_cmds (k : Nat) (v : EmsSlot) : (s.setSlot k v).cmds = s.cmds := rfl
@[simp] theorem State.setSlot_result (k : Nat) (v : EmsSlot) : (s.setSlot k v).result = s.result := rfl
@[simp] theorem State.setSlot_draws (k : Nat) (v : EmsSlot) : (s.setSlot k v).draws = s.draws := rfl

/-! ### What the updates write -/

@[simp] theorem State.log_events (e : Event) : (s.log e).events = s.events ++ [e] := rfl
@[simp] theorem State.invalidate_stale : s.invalidate.stale = false := rfl
@[simp] theorem State.invalidate_invalCount : s.invalidate.invalCount = s.invalCount + 1 := rfl
@[simp] theorem State.invalidate_events :
    s.invalidate.events = s.events ++ [Event.inval (s.invalCount + 1)] := rfl
@[simp] theorem State.done_cp (d : ResultData) : (s.done d).cp = s.cp + 1 := rfl
@[simp] theorem State.done_result (d : ResultData) :
    (s.done d).result = some { status := .ok, data := d } := rfl
@[simp] theorem State.fail_cp (e : Status) : (s.fail e).cp = s.cp + 1 := rfl
@[simp] theorem State.fail_result (e : Status) :
    (s.fail e).result = some { status := e, data := .none } := rfl
@[simp] theorem State.takeStaleMap_fault (kind : FaultKind) (aIn : Word) :
    (s.takeStaleMap kind aIn).fault = some { pos := s.cp, kind := kind, aIn := aIn } := rfl
@[simp] theorem State.takeStaleMap_result (kind : FaultKind) (aIn : Word) :
    (s.takeStaleMap kind aIn).result = some { status := .fault, data := .none } := rfl
@[simp] theorem State.haltedCommand_result :
    s.haltedCommand.result = some { status := .fault, data := .none } := rfl
@[simp] theorem State.bumpGen_genCtr : s.bumpGen.genCtr = s.genCtr + 1 := rfl
@[simp] theorem State.policyFill_rpol (base size : Nat) (pair : PolicyPair) :
    (s.policyFill base size pair).rpol
      = PolicyTable.fill s.rpol (base / s.plat.granule) ((base + size) / s.plat.granule) pair.rp := rfl
@[simp] theorem State.policyFill_wpol (base size : Nat) (pair : PolicyPair) :
    (s.policyFill base size pair).wpol
      = PolicyTable.fill s.wpol (base / s.plat.granule) ((base + size) / s.plat.granule) pair.wp := rfl
@[simp] theorem State.setA20_a20Src (k : Nat) (v : Bool) : (s.setA20 k v).a20Src = a20Put s.a20Src k v := rfl
@[simp] theorem State.setA20_effectiveA20 (k : Nat) (v : Bool) :
    (s.setA20 k v).effectiveA20 = a20Or (a20Put s.a20Src k v) := rfl
@[simp] theorem State.setWindow_smw (w : Nat) (v : SmramWindow) : (s.setWindow w v).smw = s.smw.set w v := rfl
@[simp] theorem State.setSlot_emsSlot (k : Nat) (v : EmsSlot) :
    (s.setSlot k v).emsSlot = s.emsSlot.set k v := rfl

/-! ### noteMapChange: only `stale` -/

@[simp] theorem State.noteMapChange_ram (t : State) : (s.noteMapChange t).ram = t.ram := rfl
@[simp] theorem State.noteMapChange_rom (t : State) : (s.noteMapChange t).rom = t.rom := rfl
@[simp] theorem State.noteMapChange_smram (t : State) : (s.noteMapChange t).smram = t.smram := rfl
@[simp] theorem State.noteMapChange_rgn (t : State) : (s.noteMapChange t).rgn = t.rgn := rfl
@[simp] theorem State.noteMapChange_genCtr (t : State) : (s.noteMapChange t).genCtr = t.genCtr := rfl
@[simp] theorem State.noteMapChange_rpol (t : State) : (s.noteMapChange t).rpol = t.rpol := rfl
@[simp] theorem State.noteMapChange_wpol (t : State) : (s.noteMapChange t).wpol = t.wpol := rfl
@[simp] theorem State.noteMapChange_sreg (t : State) : (s.noteMapChange t).sreg = t.sreg := rfl
@[simp] theorem State.noteMapChange_a20Src (t : State) : (s.noteMapChange t).a20Src = t.a20Src := rfl
@[simp] theorem State.noteMapChange_effectiveA20 (t : State) : (s.noteMapChange t).effectiveA20 = t.effectiveA20 := rfl
@[simp] theorem State.noteMapChange_smw (t : State) : (s.noteMapChange t).smw = t.smw := rfl
@[simp] theorem State.noteMapChange_smm (t : State) : (s.noteMapChange t).smm = t.smm := rfl
@[simp] theorem State.noteMapChange_emsMode (t : State) : (s.noteMapChange t).emsMode = t.emsMode := rfl
@[simp] theorem State.noteMapChange_emsSlot (t : State) : (s.noteMapChange t).emsSlot = t.emsSlot := rfl
@[simp] theorem State.noteMapChange_invalCount (t : State) : (s.noteMapChange t).invalCount = t.invalCount := rfl
@[simp] theorem State.noteMapChange_events (t : State) : (s.noteMapChange t).events = t.events := rfl
@[simp] theorem State.noteMapChange_fault (t : State) : (s.noteMapChange t).fault = t.fault := rfl
@[simp] theorem State.noteMapChange_cp (t : State) : (s.noteMapChange t).cp = t.cp := rfl
@[simp] theorem State.noteMapChange_plat (t : State) : (s.noteMapChange t).plat = t.plat := rfl
@[simp] theorem State.noteMapChange_cmds (t : State) : (s.noteMapChange t).cmds = t.cmds := rfl
@[simp] theorem State.noteMapChange_result (t : State) : (s.noteMapChange t).result = t.result := rfl
@[simp] theorem State.noteMapChange_draws (t : State) : (s.noteMapChange t).draws = t.draws := rfl
@[simp] theorem State.noteMapChange_stale (t : State) :
    (s.noteMapChange t).stale = (t.stale || mapChanged s t) := rfl

end Sys2Proof.Machine
end

