-- ==== Sys2Proof/Laws/Arrays.lean ====
section
/-! SUPPORT. The laws of array reads and writes, one byte and several, and of the bytes of a word. -/

namespace Sys2Proof.Machine

variable (s t : State)

theorem State.arrRead_congr (h1 : t.ram = s.ram) (h2 : t.rom = s.rom) (h3 : t.smram = s.smram) (arr : Arr)
    (off : Nat) : t.arrRead arr off = s.arrRead arr off := by
  cases arr <;> simp only [State.arrRead, h1, h2, h3]

theorem State.arrSize_congr (h : t.plat = s.plat) (arr : Arr) : t.arrSize arr = s.arrSize arr := by
  cases arr <;> simp only [State.arrSize, h]

/-- What a one-byte write can do (R21, R69): it changes that byte, and nothing in the ROM. -/
theorem State.arrRead_arrWrite (arr : Arr) (off : Nat) (b : Byte) (arr' : Arr) (off' : Nat) :
    (s.arrWrite arr off b).arrRead arr' off' =
      if arr' = arr ∧ arr ≠ .rom ∧ off' = off then b else s.arrRead arr' off' := by
  cases arr <;> cases arr' <;> simp [State.arrWrite, State.arrRead, Memory.read_write]

/-- What a write of n bytes can do (R69, R73): byte k of the value goes to `off + k`. -/
theorem State.arrRead_arrWriteLe (arr : Arr) (off : Nat) (v : Word) (n : Nat) (arr' : Arr) (off' : Nat) :
    (s.arrWriteLe arr off v n).arrRead arr' off' =
      if arr' = arr ∧ arr ≠ .rom ∧ off ≤ off' ∧ off' < off + n then byteOf v (off' - off)
      else s.arrRead arr' off' := by
  induction n with
  | zero =>
    rw [if_neg (by omega)]
    rfl
  | succ n ih =>
    simp only [State.arrWriteLe, State.arrRead_arrWrite, ih]
    by_cases h : arr' = arr ∧ arr ≠ .rom ∧ off' = off + n
    · rw [if_pos h, if_pos ⟨h.1, h.2.1, by omega, by omega⟩]
      congr 1
      omega
    · rw [if_neg h]
      by_cases h2 : arr' = arr ∧ arr ≠ .rom ∧ off ≤ off' ∧ off' < off + n
      · rw [if_pos h2, if_pos ⟨h2.1, h2.2.1, h2.2.2.1, by omega⟩]
      · rw [if_neg h2, if_neg]
        rintro ⟨h3, h4, h5, h6⟩
        exact h2 ⟨h3, h4, h5, by by_contra hn; exact h ⟨h3, h4, by omega⟩⟩

/-- A write of n bytes touches `ram` and `smram` only. -/
theorem State.arrWriteLe_frame (arr : Arr) (off : Nat) (v : Word) (n : Nat) :
    s.arrWriteLe arr off v n =
      { s with ram := (s.arrWriteLe arr off v n).ram, smram := (s.arrWriteLe arr off v n).smram } := by
  induction n with
  | zero => rfl
  | succ n ih =>
    have hw : ∀ (u : State) (b : Byte), u.arrWrite arr (off + n) b
        = { u with ram := (u.arrWrite arr (off + n) b).ram, smram := (u.arrWrite arr (off + n) b).smram } := by
      intro u b
      cases arr <;> rfl
    simp only [State.arrWriteLe]
    rw [hw, ih]

/-- A write routed to the ROM changes nothing (R69). -/
theorem State.arrWriteLe_rom (off : Nat) (v : Word) (n : Nat) : s.arrWriteLe .rom off v n = s := by
  induction n with
  | zero => rfl
  | succ n ih => simp [State.arrWriteLe, ih, State.arrWrite]

theorem State.length_arrBytes (arr : Arr) (off n : Nat) : (s.arrBytes arr off n).length = n := by
  induction n generalizing off with
  | zero => rfl
  | succ n ih => simp [State.arrBytes, ih]

theorem State.getD_arrBytes (arr : Arr) (off n k : Nat) (h : k < n) :
    (s.arrBytes arr off n).getD k 0 = s.arrRead arr (off + k) := by
  induction n generalizing off k with
  | zero => omega
  | succ n ih =>
    cases k with
    | zero => rfl
    | succ k =>
      have := ih (off + 1) k (by omega)
      simp only [State.arrBytes, List.getD_cons_succ, this]
      congr 1
      omega

theorem leValue_lt (l : List Byte) : leValue l < 256 ^ l.length := by
  induction l with
  | nil => simp [leValue]
  | cons b l ih =>
    have := b.isLt
    simp only [leValue, List.length_cons, Nat.pow_succ]
    omega

/-- Digit k of a little-endian value is its byte k. -/
theorem leValue_digit (l : List Byte) (k : Nat) : leValue l / 256 ^ k % 256 = (l.getD k 0).toNat := by
  induction l generalizing k with
  | nil => simp [leValue]
  | cons b l ih =>
    have hb := b.isLt
    cases k with
    | zero => simp only [leValue, List.getD_cons_zero, Nat.pow_zero, Nat.div_one]; omega
    | succ k =>
      have : leValue (b :: l) / 256 = leValue l := by simp only [leValue]; omega
      rw [Nat.pow_succ, Nat.mul_comm, ← Nat.div_div_eq_div_mul, this, List.getD_cons_succ, ih]

theorem byteOf_toNat (v : Word) (k : Nat) : (byteOf v k).toNat = v.toNat / 256 ^ k % 256 := by
  have : (256 : Nat) ^ k = 2 ^ (8 * k) := by rw [Nat.pow_mul]
  simp [byteOf, Nat.shiftRight_eq_div_pow, this]

/-- A word is its four bytes. -/
theorem word_ext (v w : Word) (h : ∀ k, k < 4 → byteOf v k = byteOf w k) : v = w := by
  apply BitVec.eq_of_toNat_eq
  have hv := v.isLt
  have hw := w.isLt
  have e : ∀ k, k < 4 → v.toNat / 256 ^ k % 256 = w.toNat / 256 ^ k % 256 := fun k hk => by
    rw [← byteOf_toNat, ← byteOf_toNat, h k hk]
  have e0 := e 0 (by omega)
  have e1 := e 1 (by omega)
  have e2 := e 2 (by omega)
  have e3 := e 3 (by omega)
  norm_num at e0 e1 e2 e3
  omega

theorem byteOf_ofNat (x k : Nat) (h : k < 4) : (byteOf (BitVec.ofNat 32 x) k).toNat = x / 256 ^ k % 256 := by
  rw [byteOf_toNat, BitVec.toNat_ofNat]
  have hk : k = 0 ∨ k = 1 ∨ k = 2 ∨ k = 3 := by omega
  rcases hk with rfl | rfl | rfl | rfl <;> norm_num <;> omega

/-- The bytes of a little-endian read (R68, R73): byte k is the array's byte `off + k`, and the others are 0. -/
theorem State.byteOf_arrReadLe (arr : Arr) (off n k : Nat) (h : k < 4) :
    byteOf (s.arrReadLe arr off n) k = if k < n then s.arrRead arr (off + k) else 0 := by
  apply BitVec.eq_of_toNat_eq
  rw [State.arrReadLe, byteOf_ofNat _ _ h, leValue_digit]
  split
  · next hk => rw [s.getD_arrBytes arr off n k hk]
  · next hk => rw [List.getD_eq_default _ _ (by rw [s.length_arrBytes]; omega)]

/-- The bytes of the low n bytes of a word: the first n bytes, and the others are 0 (R136). -/
theorem byteOf_lowBytes (n : Width) (v : Word) (k : Nat) (h : k < 4) :
    byteOf (lowBytes n v) k = if k < widthBytes n then byteOf v k else 0 := by
  apply BitVec.eq_of_toNat_eq
  rw [lowBytes, byteOf_ofNat _ _ h]
  have hk : k = 0 ∨ k = 1 ∨ k = 2 ∨ k = 3 := by omega
  rcases hk with rfl | rfl | rfl | rfl <;> cases n <;> simp [widthBytes, byteOf_toNat] <;> omega

/-- Where the n bytes of a value have been written, a read of n bytes gives the value's low n bytes. -/
theorem State.arrReadLe_arrWriteLe (arr : Arr) (off : Nat) (v : Word) (n : Width) (h : arr ≠ .rom) :
    (s.arrWriteLe arr off v (widthBytes n)).arrReadLe arr off (widthBytes n) = lowBytes n v := by
  refine word_ext _ _ (fun k hk => ?_)
  rw [State.byteOf_arrReadLe _ _ _ _ _ hk, byteOf_lowBytes _ _ _ hk]
  split
  · next hlt =>
    rw [State.arrRead_arrWriteLe, if_pos ⟨rfl, h, by omega, by omega⟩]
    congr 1
    omega
  · rfl

theorem lowBytes_idem (n : Width) (v : Word) : lowBytes n (lowBytes n v) = lowBytes n v := by
  refine word_ext _ _ (fun k hk => ?_)
  simp only [byteOf_lowBytes _ _ _ hk]
  split <;> rfl

/-- A byte of a narrowed word below the width is the word's byte. -/
theorem byteOf_lowBytes_lt (n : Width) (v : Word) (k : Nat) (h : k < widthBytes n) :
    byteOf (lowBytes n v) k = byteOf v k := by
  have : widthBytes n ≤ 4 := by cases n <;> decide
  rw [byteOf_lowBytes n v k (by omega), if_pos h]

end Sys2Proof.Machine
end

