-- ==== Sys2Proof/Laws/Access.lean ====
section
/-! SUPPORT. What the access operations do, once for each route (20_memory.md R66–R72), and the address mask. -/

namespace Sys2Proof.Machine

variable (s : State)

/-- An access that R133 lets through. -/
theorem State.staleAccess_false (ag : Agent) (h : ag = .bus ∨ s.stale = false) : s.staleAccess ag = false := by
  rcases h with h | h <;> simp [State.staleAccess, h]

/-- The low bytes of a word are below the width's bound. -/
theorem lowBytes_lt (n : Width) (v : Word) : (lowBytes n v).toNat < 2 ^ (8 * widthBytes n) := by
  have := Nat.mod_lt v.toNat (Nat.two_pow_pos (8 * widthBytes n))
  rw [lowBytes, BitVec.toNat_ofNat]
  exact Nat.lt_of_le_of_lt (Nat.mod_le _ _) this

/-- A width of 4 keeps the whole word. -/
@[simp] theorem lowBytes_dword (v : Word) : lowBytes .dword v = v := by
  apply BitVec.eq_of_toNat_eq
  have := v.isLt
  simp only [lowBytes, widthBytes, BitVec.toNat_ofNat]
  omega

/-- The low half of a word (R70). -/
theorem and_low_half (v : Word) : v &&& 0xFFFF#32 = BitVec.ofNat 32 (v.toNat % 0x10000) := by
  apply BitVec.eq_of_toNat_eq
  rw [BitVec.toNat_and, BitVec.toNat_ofNat (x := v.toNat % 0x10000), show BitVec.toNat 0xFFFF#32 = 0xFFFF from rfl,
    Nat.and_two_pow_sub_one_eq_mod v.toNat 16]
  have := v.isLt
  omega

/-- The high half of a word (R70). -/
theorem shift_high_half (v : Word) : v >>> 16 = BitVec.ofNat 32 (v.toNat / 0x10000) := by
  apply BitVec.eq_of_toNat_eq
  rw [BitVec.toNat_ushiftRight, BitVec.toNat_ofNat, Nat.shiftRight_eq_div_pow]
  have := v.isLt
  omega

/-- Bit 20 goes and every other bit stays (R61). -/
theorem clearBit20_testBit (y j : Nat) : (clearBit20 y).testBit j = (y.testBit j && decide (j ≠ 20)) := by
  have h : clearBit20 y = 2 ^ 21 * (y / 2 ^ 21) + y % 2 ^ 20 := by unfold clearBit20; omega
  rw [h, Nat.testBit_two_pow_mul_add _ (by have := Nat.mod_lt y (show 0 < 2 ^ 20 by norm_num); omega)]
  split
  · rw [Nat.testBit_mod_two_pow]
    by_cases h20 : j = 20
    · simp [h20]
    · simp [h20, show j < 20 by omega]
  · rw [Nat.testBit_div_two_pow, show j - 21 + 21 = j by omega]
    simp [show j ≠ 20 by omega]

/-- Clearing bit 20 takes 0x100000 from an address that has it (R61). -/
theorem clearBit20_eq (x : Nat) : clearBit20 x = if x.testBit 20 = true then x - 0x100000 else x := by
  have h : x.testBit 20 = decide (x / 0x100000 % 2 = 1) := by
    rw [Nat.testBit_eq_decide_div_mod_eq]
  unfold clearBit20
  rw [h]
  simp only [decide_eq_true_eq]
  split <;> omega

/-- The masked address while the gate is closed (R61). -/
theorem State.a20Mask_closed (aIn : Word) (h : s.effectiveA20 = false) :
    s.a20Mask aIn = if (aIn.toNat % 2 ^ s.plat.addrBits).testBit 20 = true
      then aIn.toNat % 2 ^ s.plat.addrBits - 0x100000 else aIn.toNat % 2 ^ s.plat.addrBits := by
  rw [← clearBit20_eq]
  simp [State.a20Mask, h]

/-- The masked address while the gate is open (R61). -/
theorem State.a20Mask_open (aIn : Word) (h : s.effectiveA20 = true) :
    s.a20Mask aIn = aIn.toNat % 2 ^ s.plat.addrBits := by simp [State.a20Mask, h]

/-- A read that is dropped (R72). -/
theorem State.memRead_fill (ag : Agent) (aIn : Word) (n : Width) (reason : FillReason) (a : Nat)
    (h : s.route ag aIn n .read = .fill reason a) : s.memRead ag aIn n = (s.noteDrop .read ag n reason a, ones n) := by
  simp only [State.memRead, h]

/-- A read of an array (R68). -/
theorem State.memRead_direct (ag : Agent) (aIn : Word) (n : Width) (id : RegionId) (arr : Arr) (off a : Nat)
    (h : s.route ag aIn n .read = .direct id arr off a) :
    s.memRead ag aIn n = (s, s.arrReadLe arr off (widthBytes n)) := by
  simp only [State.memRead, h]

/-- A read through a hook set (R70). -/
theorem State.memRead_hook (ag : Agent) (aIn : Word) (n : Width) (id : RegionId) (k a off : Nat)
    (h : s.route ag aIn n .read = .hook id k a off) :
    s.memRead ag aIn n = s.hookRead k (backingDword (s.rgnAt id).backing) a off n := by
  simp only [State.memRead, h]

/-- A write that is dropped (R72). -/
theorem State.memWrite_fill (ag : Agent) (aIn : Word) (n : Width) (v : Word) (reason : FillReason) (a : Nat)
    (h : s.route ag aIn n .write = .fill reason a) : s.memWrite ag aIn n v = s.noteDrop .write ag n reason a := by
  simp only [State.memWrite, h]

/-- A write to an array (R69). -/
theorem State.memWrite_direct (ag : Agent) (aIn : Word) (n : Width) (v : Word) (id : RegionId) (arr : Arr) (off a : Nat)
    (h : s.route ag aIn n .write = .direct id arr off a) :
    s.memWrite ag aIn n v = s.arrWriteLe arr off v (widthBytes n) := by
  simp only [State.memWrite, h]

/-- A write through a hook set (R70). -/
theorem State.memWrite_hook (ag : Agent) (aIn : Word) (n : Width) (v : Word) (id : RegionId) (k a off : Nat)
    (h : s.route ag aIn n .write = .hook id k a off) :
    s.memWrite ag aIn n v = s.hookWrite k (backingDword (s.rgnAt id).backing) a off n v := by
  simp only [State.memWrite, h]

/-- All that a read can change in the block: the event log and the count of answers drawn (R68, R70, R72). -/
theorem State.memRead_frame (ag : Agent) (aIn : Word) (n : Width) :
    (s.memRead ag aIn n).1 =
      { s with events := (s.memRead ag aIn n).1.events, draws := (s.memRead ag aIn n).1.draws } := by
  unfold State.memRead
  split
  · next reason _ _ => cases reason <;> rfl
  · rfl
  · unfold State.hookRead
    split <;> rfl

/-- All that a write can change in the block: the two writable arrays and the event log (R69, R70, R72). -/
theorem State.memWrite_frame (ag : Agent) (aIn : Word) (n : Width) (v : Word) :
    s.memWrite ag aIn n v =
      { s with
        ram := (s.memWrite ag aIn n v).ram
        smram := (s.memWrite ag aIn n v).smram
        events := (s.memWrite ag aIn n v).events } := by
  unfold State.memWrite
  split
  · next reason _ _ => cases reason <;> rfl
  · conv_lhs => rw [State.arrWriteLe_frame]
    rw [State.arrWriteLe_frame]
  · unfold State.hookWrite
    split <;> rfl

end Sys2Proof.Machine
end

