-- ==== Sys2Proof/Laws/Regions.lean ====
section
/-! SUPPORT. The laws of the Region table, of the claimant, and of the change of the mapping: for each operation, what it
can do. -/

namespace Sys2Proof.Machine

variable (s t : State)

/-- The id names a record of the table. -/
def State.hasRgn (s : State) : RegionId → Prop
  | .gen i => i < s.rgn.gen.length
  | .smr w => w < s.rgn.smr.length
  | .ems e => e < s.rgn.ems.length

/-! ### Reading records -/

theorem State.rgnAt_congr (h : t.rgn = s.rgn) (id : RegionId) : t.rgnAt id = s.rgnAt id := by
  cases id <;> simp only [State.rgnAt, h]

theorem State.hasRgn_congr (h : t.rgn = s.rgn) (id : RegionId) : t.hasRgn id ↔ s.hasRgn id := by
  cases id <;> simp only [State.hasRgn, h]

@[simp] theorem State.rgnAt_log (e : Event) (id : RegionId) : (s.log e).rgnAt id = s.rgnAt id := by cases id <;> rfl
@[simp] theorem State.rgnAt_invalidate (id : RegionId) : s.invalidate.rgnAt id = s.rgnAt id := by cases id <;> rfl
@[simp] theorem State.rgnAt_done (d : ResultData) (id : RegionId) : (s.done d).rgnAt id = s.rgnAt id := by
  cases id <;> rfl
@[simp] theorem State.rgnAt_fail (e : Status) (id : RegionId) : (s.fail e).rgnAt id = s.rgnAt id := by cases id <;> rfl
@[simp] theorem State.rgnAt_noteMapChange (id : RegionId) : (s.noteMapChange t).rgnAt id = t.rgnAt id := by
  cases id <;> rfl
@[simp] theorem State.rgnAt_bumpGen (id : RegionId) : s.bumpGen.rgnAt id = s.rgnAt id := by cases id <;> rfl
@[simp] theorem State.rgnAt_policyFill (b z : Nat) (p : PolicyPair) (id : RegionId) :
    (s.policyFill b z p).rgnAt id = s.rgnAt id := by cases id <;> rfl
@[simp] theorem State.rgnAt_setWindow (w : Nat) (v : SmramWindow) (id : RegionId) :
    (s.setWindow w v).rgnAt id = s.rgnAt id := by cases id <;> rfl
@[simp] theorem State.rgnAt_setSlot (k : Nat) (v : EmsSlot) (id : RegionId) :
    (s.setSlot k v).rgnAt id = s.rgnAt id := by cases id <;> rfl
@[simp] theorem State.rgnAt_setA20 (k : Nat) (v : Bool) (id : RegionId) :
    (s.setA20 k v).rgnAt id = s.rgnAt id := by cases id <;> rfl
@[simp] theorem State.rgnAt_arrWrite (arr : Arr) (off : Nat) (b : Byte) (id : RegionId) :
    (s.arrWrite arr off b).rgnAt id = s.rgnAt id := State.rgnAt_congr _ _ (by simp) _

/-- A record the table does not hold reads as an unregistered one (log 17). -/
theorem State.rgnAt_absent (id : RegionId) (h : ¬ s.hasRgn id) : s.rgnAt id = Region.unregistered := by
  cases id <;> simp only [State.hasRgn, Nat.not_lt] at h <;>
    simp [State.rgnAt, List.getD_eq_getElem?_getD, List.getElem?_eq_none h]

theorem State.hasRgn_of_enabled (id : RegionId) (h : (s.rgnAt id).enabled = true) : s.hasRgn id := by
  by_contra hn
  simp [s.rgnAt_absent id hn, Region.unregistered] at h

theorem State.hasRgn_of_valid (id : RegionId) (h : (s.rgnAt id).valid = true) : s.hasRgn id := by
  by_contra hn
  simp [s.rgnAt_absent id hn, Region.unregistered] at h

/-! ### Writing records -/

theorem getD_set_same {α : Type} (l : List α) (i : Nat) (x d : α) (h : i < l.length) : (l.set i x).getD i d = x := by
  simp [List.getD_eq_getElem?_getD, h]

theorem getD_set_other {α : Type} (l : List α) (i j : Nat) (x d : α) (h : j ≠ i) :
    (l.set i x).getD j d = l.getD j d := by
  simp [List.getD_eq_getElem?_getD, List.getElem?_set_ne (Ne.symm h)]

@[simp] theorem State.setRgn_lengths (id : RegionId) (r : Region) :
    (s.setRgn id r).rgn.gen.length = s.rgn.gen.length ∧ (s.setRgn id r).rgn.smr.length = s.rgn.smr.length
      ∧ (s.setRgn id r).rgn.ems.length = s.rgn.ems.length := by
  cases id <;> simp [State.setRgn]

@[simp] theorem State.hasRgn_setRgn (id id' : RegionId) (r : Region) : (s.setRgn id r).hasRgn id' ↔ s.hasRgn id' := by
  cases id' <;> simp [State.hasRgn]

theorem State.rgnAt_setRgn_same (id : RegionId) (r : Region) (h : s.hasRgn id) : (s.setRgn id r).rgnAt id = r := by
  cases id <;> exact getD_set_same _ _ _ _ h

theorem State.rgnAt_setRgn_other (id id' : RegionId) (r : Region) (h : id' ≠ id) :
    (s.setRgn id r).rgnAt id' = s.rgnAt id' := by
  cases id <;> cases id' <;> first
    | rfl
    | exact getD_set_other _ _ _ _ _ (fun e => h (by rw [e]))

/-- What writing a record can do. -/
theorem State.rgnAt_setRgn (id id' : RegionId) (r : Region) (h : s.hasRgn id) :
    (s.setRgn id r).rgnAt id' = if id' = id then r else s.rgnAt id' := by
  split
  · next e => rw [e, s.rgnAt_setRgn_same id r h]
  · next e => exact s.rgnAt_setRgn_other id id' r e

theorem State.setRgn_absent (id : RegionId) (r : Region) (h : ¬ s.hasRgn id) : s.setRgn id r = s := by
  cases id <;> simp only [State.hasRgn, Nat.not_lt] at h <;>
    simp [State.setRgn, List.set_eq_of_length_le h]

/-- What DisableRgn can do (R27): it clears the record's enabled flag and nothing else. -/
theorem State.rgnAt_disableRgn (id id' : RegionId) :
    (s.disableRgn id).rgnAt id' = if id' = id then { s.rgnAt id with enabled := false } else s.rgnAt id' := by
  by_cases h : s.hasRgn id
  · exact s.rgnAt_setRgn id id' _ h
  · rw [State.disableRgn, s.setRgn_absent id _ h]
    split
    · next e => rw [e, s.rgnAt_absent id h]; rfl
    · rfl

/-- What EnableRgn can do (R27): a disabled record is enabled with the next generation, and nothing else. -/
theorem State.rgnAt_enableRgn (id id' : RegionId) (h : s.hasRgn id) :
    (s.enableRgn id).rgnAt id' =
      if id' = id ∧ (s.rgnAt id).enabled = false then { s.rgnAt id with enabled := true, gen := s.genCtr + 1 }
      else s.rgnAt id' := by
  unfold State.enableRgn
  split
  · next he => simp [he]
  · next he =>
    have he' : (s.rgnAt id).enabled = false := by simpa using he
    rw [State.rgnAt_setRgn _ _ _ _ ((State.hasRgn_congr s s.bumpGen rfl id).2 h)]
    simp [he']

theorem State.enableRgn_genCtr (id : RegionId) :
    (s.enableRgn id).genCtr = if (s.rgnAt id).enabled then s.genCtr else s.genCtr + 1 := by
  unfold State.enableRgn
  split <;> simp

@[simp] theorem State.enableRgn_lengths (id : RegionId) :
    (s.enableRgn id).rgn.gen.length = s.rgn.gen.length ∧ (s.enableRgn id).rgn.smr.length = s.rgn.smr.length
      ∧ (s.enableRgn id).rgn.ems.length = s.rgn.ems.length := by
  unfold State.enableRgn
  split <;> simp

@[simp] theorem State.disableRgn_lengths (id : RegionId) :
    (s.disableRgn id).rgn.gen.length = s.rgn.gen.length ∧ (s.disableRgn id).rgn.smr.length = s.rgn.smr.length
      ∧ (s.disableRgn id).rgn.ems.length = s.rgn.ems.length := by
  simp [State.disableRgn]

/-! ### The list of all records, and the claimant -/

theorem mem_withIds (mk : Nat → RegionId) (k : Nat) (l : List Region) (c : RegionId × Region) :
    c ∈ withIds mk k l ↔ ∃ i, ∃ h : i < l.length, c = (mk (k + i), l[i]) := by
  induction l generalizing k with
  | nil => simp [withIds]
  | cons r l ih =>
    simp only [withIds, List.mem_cons, ih, List.length_cons]
    constructor
    · rintro (rfl | ⟨i, h, rfl⟩)
      · exact ⟨0, by omega, rfl⟩
      · exact ⟨i + 1, by omega, by simp [Nat.add_comm 1 i, Nat.add_assoc]⟩
    · rintro ⟨i, h, rfl⟩
      cases i with
      | zero => exact .inl rfl
      | succ i => exact .inr ⟨i, by omega, by simp [Nat.add_comm 1 i, Nat.add_assoc]⟩

/-- The decoder's list holds every record of the three partitions, each under its id (R23). -/
theorem State.mem_regions (c : RegionId × Region) : c ∈ s.regions ↔ s.hasRgn c.1 ∧ s.rgnAt c.1 = c.2 := by
  obtain ⟨id, r⟩ := c
  simp only [State.regions, List.mem_append, mem_withIds, Prod.mk.injEq, Nat.zero_add]
  constructor
  · rintro ((⟨i, h, rfl, rfl⟩ | ⟨i, h, rfl, rfl⟩) | ⟨i, h, rfl, rfl⟩) <;>
      exact ⟨h, by simp [State.rgnAt, List.getD_eq_getElem?_getD, h]⟩
  · rintro ⟨h, rfl⟩
    cases id with
    | gen i => exact .inl (.inl ⟨i, h, rfl, by
        simp only [State.hasRgn] at h; simp [State.rgnAt, List.getD_eq_getElem?_getD, h]⟩)
    | smr i => exact .inl (.inr ⟨i, h, rfl, by
        simp only [State.hasRgn] at h; simp [State.rgnAt, List.getD_eq_getElem?_getD, h]⟩)
    | ems i => exact .inr ⟨i, h, rfl, by
        simp only [State.hasRgn] at h; simp [State.rgnAt, List.getD_eq_getElem?_getD, h]⟩

theorem newest_eq_none (cs : List (RegionId × Region)) : newest cs = none ↔ cs = [] := by
  cases cs with
  | nil => simp [newest]
  | cons c cs =>
    simp only [newest, reduceCtorEq, iff_false]
    split
    · simp
    · split <;> simp

/-- The newest of a list is in it, and none of it is newer. -/
theorem newest_spec (cs : List (RegionId × Region)) (c : RegionId × Region) (h : newest cs = some c) :
    c ∈ cs ∧ ∀ d ∈ cs, d.2.gen ≤ c.2.gen := by
  induction cs generalizing c with
  | nil => simp [newest] at h
  | cons e cs ih =>
    simp only [newest] at h
    split at h
    · next hn =>
      have := (newest_eq_none cs).1 hn
      simp only [Option.some.injEq] at h
      subst h
      simp [this]
    · next d hd =>
      obtain ⟨hm, hle⟩ := ih d hd
      split at h <;> simp only [Option.some.injEq] at h <;> subst h
      · next hlt =>
        refine ⟨List.mem_cons_of_mem _ hm, fun x hx => ?_⟩
        rcases List.mem_cons.1 hx with rfl | hx
        · omega
        · exact hle x hx
      · next hlt =>
        refine ⟨List.mem_cons_self, fun x hx => ?_⟩
        rcases List.mem_cons.1 hx with rfl | hx
        · exact Nat.le_refl _
        · have := hle x hx
          omega

/-- The four conditions of R65, with the class's part written out (20_memory.md R64). -/
theorem claims_iff (p : Policy) (a : Nat) (r : Region) :
    claims p a r = true ↔ r.valid = true ∧ r.enabled = true ∧ r.base ≤ a ∧ a < r.base + r.size
      ∧ (r.cls = .bypass ∨ (r.cls = .internal ∧ p = .internal)
        ∨ (r.cls = .external ∧ (p = .external ∨ p = .externalAny))) := by
  have he : eligible r.cls p = true ↔ (r.cls = .bypass ∨ (r.cls = .internal ∧ p = .internal)
      ∨ (r.cls = .external ∧ (p = .external ∨ p = .externalAny))) := by
    cases r.cls <;> simp [eligible]
  simp only [claims, Bool.and_eq_true, decide_eq_true_eq, and_assoc, he]

theorem claims_enabled (p : Policy) (a : Nat) (r : Region) (h : claims p a r = true) : r.enabled = true := by
  simp only [claims, Bool.and_eq_true] at h
  exact h.1.1.1.2

/-- What the claimant can be (R65): a record that claims the address, and none that claims it is newer. -/
theorem State.claimant_some (p : Policy) (a : Nat) (id : RegionId) (r : Region)
    (h : s.claimant p a = some (id, r)) :
    s.rgnAt id = r ∧ claims p a r = true ∧ ∀ id', claims p a (s.rgnAt id') = true → (s.rgnAt id').gen ≤ r.gen := by
  obtain ⟨hm, hle⟩ := newest_spec _ _ h
  obtain ⟨hm, hc⟩ := List.mem_filter.1 hm
  obtain ⟨-, hr⟩ := (s.mem_regions _).1 hm
  refine ⟨hr, hc, fun id' hid' => hle (id', s.rgnAt id') (List.mem_filter.2 ⟨(s.mem_regions _).2 ⟨?_, rfl⟩, hid'⟩)⟩
  exact s.hasRgn_of_enabled id' (claims_enabled p a _ hid')

/-- There is no claimant exactly when no record claims the address (R65). -/
theorem State.claimant_none (p : Policy) (a : Nat) :
    s.claimant p a = none ↔ ∀ id, claims p a (s.rgnAt id) = false := by
  unfold State.claimant
  rw [newest_eq_none, List.filter_eq_nil_iff]
  constructor
  · intro h id
    by_contra hc
    have hc : claims p a (s.rgnAt id) = true := by simpa using hc
    exact h (id, s.rgnAt id) ((s.mem_regions _).2 ⟨s.hasRgn_of_enabled id (claims_enabled p a _ hc), rfl⟩) hc
  · intro h c hc
    rw [← ((s.mem_regions c).1 hc).2]
    simp [h c.1]

/-- A claimant newer than every other one is the claimant (R65). -/
theorem State.claimant_eq (p : Policy) (a : Nat) (id : RegionId) (hc : claims p a (s.rgnAt id) = true)
    (hmax : ∀ id', id' ≠ id → claims p a (s.rgnAt id') = true → (s.rgnAt id').gen < (s.rgnAt id).gen) :
    s.claimant p a = some (id, s.rgnAt id) := by
  cases hcl : s.claimant p a with
  | none => simp [(s.claimant_none p a).1 hcl id] at hc
  | some c =>
    obtain ⟨id', r⟩ := c
    obtain ⟨hr, hc', hle⟩ := s.claimant_some p a id' r hcl
    by_cases hid : id' = id
    · subst hid
      rw [hr]
    · have h1 := hmax id' hid (by rw [hr]; exact hc')
      have h2 := hle id hc
      rw [hr] at h1
      omega

/-! ### The change of the mapping (R35) -/

theorem partitionChanged_iff (b a : List Region) (h : b.length = a.length) :
    partitionChanged b a = true ↔
      ∃ i, regionChanged (b.getD i Region.unregistered) (a.getD i Region.unregistered) = true := by
  simp only [partitionChanged, List.any_eq_true, Prod.exists]
  constructor
  · rintro ⟨x, y, hm, hc⟩
    obtain ⟨i, hi, hxy⟩ := List.mem_iff_getElem.1 hm
    simp only [List.length_zip] at hi
    simp only [List.getElem_zip, Prod.mk.injEq] at hxy
    refine ⟨i, ?_⟩
    have h1 : i < b.length := by omega
    have h2 : i < a.length := by omega
    simp only [List.getD_eq_getElem?_getD, List.getElem?_eq_getElem h1, List.getElem?_eq_getElem h2,
      Option.getD_some, hxy.1, hxy.2, hc]
  · rintro ⟨i, hc⟩
    by_cases hi : i < b.length
    · have h2 : i < a.length := by omega
      refine ⟨b[i], a[i], ?_, ?_⟩
      · exact List.mem_iff_getElem.2 ⟨i, by simp; omega, by simp⟩
      · simpa [List.getD_eq_getElem?_getD, hi, h2] using hc
    · have h2 : ¬ i < a.length := by omega
      simp [List.getD_eq_getElem?_getD, hi, h2, regionChanged] at hc

/-- Two Region tables of the same shape. -/
def State.sameShape (s t : State) : Prop :=
  s.rgn.gen.length = t.rgn.gen.length ∧ s.rgn.smr.length = t.rgn.smr.length
    ∧ s.rgn.ems.length = t.rgn.ems.length

/-- When a command changes the mapping (R35): a Region changed, or a policy table, or the gate. -/
theorem mapChanged_iff (h : s.sameShape t) :
    mapChanged s t = true ↔
      (∃ id, regionChanged (s.rgnAt id) (t.rgnAt id) = true) ∨ s.rpol ≠ t.rpol ∨ s.wpol ≠ t.wpol
        ∨ s.effectiveA20 ≠ t.effectiveA20 := by
  simp only [mapChanged, Bool.or_eq_true, partitionChanged_iff _ _ h.1, partitionChanged_iff _ _ h.2.1,
    partitionChanged_iff _ _ h.2.2, decide_eq_true_eq, bne_iff_ne]
  constructor
  · rintro (((((⟨i, h⟩ | ⟨i, h⟩) | ⟨i, h⟩) | h) | h) | h)
    · exact .inl ⟨.gen i, h⟩
    · exact .inl ⟨.smr i, h⟩
    · exact .inl ⟨.ems i, h⟩
    · exact .inr (.inl h)
    · exact .inr (.inr (.inl h))
    · exact .inr (.inr (.inr h))
  · rintro (⟨id, h⟩ | h | h | h)
    · cases id with
      | gen i => exact .inl (.inl (.inl (.inl (.inl ⟨i, h⟩))))
      | smr i => exact .inl (.inl (.inl (.inl (.inr ⟨i, h⟩))))
      | ems i => exact .inl (.inl (.inl (.inr ⟨i, h⟩)))
    · exact .inl (.inl (.inr h))
    · exact .inl (.inr h)
    · exact .inr h

theorem regionChanged_self (r : Region) : regionChanged r r = false := by simp [regionChanged]

/-- A command that writes one record changes the mapping exactly when that record changes in a decode-relevant field
(R35). -/
theorem mapChanged_one (id : RegionId) (h : s.sameShape t) (hp : t.rpol = s.rpol ∧ t.wpol = s.wpol)
    (ha : t.effectiveA20 = s.effectiveA20) (ho : ∀ id', id' ≠ id → t.rgnAt id' = s.rgnAt id') :
    mapChanged s t = regionChanged (s.rgnAt id) (t.rgnAt id) := by
  rw [Bool.eq_iff_iff, mapChanged_iff s t h]
  simp only [hp.1, hp.2, ha, ne_eq, not_true_eq_false, or_false]
  constructor
  · rintro ⟨id', hc⟩
    by_cases hid : id' = id
    · rwa [hid] at hc
    · simp [ho id' hid, regionChanged_self] at hc
  · exact fun hc => ⟨id, hc⟩

end Sys2Proof.Machine
end

