-- ==== Sys2Proof/Laws/Loops.lean ====
section
/-! SUPPORT. The induction over a loop of the pseudocode, and the frames of the operations the loops repeat. -/

namespace Sys2Proof.Machine

theorem forRange_zero (f : Nat → State → State) (s : State) : forRange 0 f s = s := rfl

theorem forRange_succ (n : Nat) (f : Nat → State → State) (s : State) :
    forRange (n + 1) f s = f n (forRange n f s) := by
  simp [forRange, List.range_succ]

/-- What every pass of a loop keeps, the loop keeps: the passes 0 … n − 1 in order. -/
theorem forRange_induction (P : Nat → State → Prop) (n : Nat) (f : Nat → State → State) (s : State) (h0 : P 0 s)
    (hs : ∀ i t, i < n → P i t → P (i + 1) (f i t)) : P n (forRange n f s) := by
  induction n with
  | zero => exact h0
  | succ n ih =>
    rw [forRange_succ]
    exact hs n _ (by omega) (ih (fun i t hi => hs i t (by omega)))

/-- The parts of the state that the policy and Region operations leave alone. -/
structure State.SameRest (s t : State) : Prop where
  ram : t.ram = s.ram
  rom : t.rom = s.rom
  smram : t.smram = s.smram
  sreg : t.sreg = s.sreg
  a20Src : t.a20Src = s.a20Src
  effectiveA20 : t.effectiveA20 = s.effectiveA20
  smm : t.smm = s.smm
  emsMode : t.emsMode = s.emsMode
  stale : t.stale = s.stale
  invalCount : t.invalCount = s.invalCount
  events : t.events = s.events
  fault : t.fault = s.fault
  cp : t.cp = s.cp
  plat : t.plat = s.plat
  cmds : t.cmds = s.cmds
  result : t.result = s.result
  draws : t.draws = s.draws

theorem State.SameRest.refl (s : State) : s.SameRest s := by constructor <;> rfl

theorem State.SameRest.trans {s t u : State} (h : s.SameRest t) (k : t.SameRest u) : s.SameRest u where
  ram := k.ram.trans h.ram
  rom := k.rom.trans h.rom
  smram := k.smram.trans h.smram
  sreg := k.sreg.trans h.sreg
  a20Src := k.a20Src.trans h.a20Src
  effectiveA20 := k.effectiveA20.trans h.effectiveA20
  smm := k.smm.trans h.smm
  emsMode := k.emsMode.trans h.emsMode
  stale := k.stale.trans h.stale
  invalCount := k.invalCount.trans h.invalCount
  events := k.events.trans h.events
  fault := k.fault.trans h.fault
  cp := k.cp.trans h.cp
  plat := k.plat.trans h.plat
  cmds := k.cmds.trans h.cmds
  result := k.result.trans h.result
  draws := k.draws.trans h.draws

theorem State.sameRest_setRgn (s : State) (id : RegionId) (r : Region) : s.SameRest (s.setRgn id r) := by
  constructor <;> simp

theorem State.sameRest_enableRgn (s : State) (id : RegionId) : s.SameRest (s.enableRgn id) := by
  constructor <;> simp

theorem State.sameRest_disableRgn (s : State) (id : RegionId) : s.SameRest (s.disableRgn id) := by
  constructor <;> simp

theorem State.sameRest_policyFill (s : State) (b z : Nat) (p : PolicyPair) : s.SameRest (s.policyFill b z p) := by
  constructor <;> simp

theorem State.sameRest_setWindow (s : State) (w : Nat) (v : SmramWindow) : s.SameRest (s.setWindow w v) := by
  constructor <;> simp

theorem State.sameRest_setSlot (s : State) (k : Nat) (v : EmsSlot) : s.SameRest (s.setSlot k v) := by
  constructor <;> simp

/-- A loop whose passes leave the rest alone leaves it alone. -/
theorem forRange_sameRest (n : Nat) (f : Nat → State → State) (s : State)
    (h : ∀ (i : Nat) (t : State), t.SameRest (f i t)) :
    s.SameRest (forRange n f s) :=
  forRange_induction (fun _ t => s.SameRest t) n f s (.refl s) (fun i t _ ht => ht.trans (h i t))

end Sys2Proof.Machine
end

