-- ==== Sys2Proof/Laws/PolicyTable.lean ====
section
/-! SUPPORT. The laws of the Access-Policy Table: what a fill changes, the canonical form kept, and equal entries
being equal data. -/

namespace Sys2Proof.Machine

@[simp] theorem PolicyTable.getFrom_nil (d : Policy) (g : Nat) : PolicyTable.getFrom d [] g = d := rfl

theorem PolicyTable.getFrom_cons (d : Policy) (k : Nat) (v : Policy) (t : PolicyTable) (g : Nat) :
    PolicyTable.getFrom d ((k, v) :: t) g = if k ≤ g then PolicyTable.getFrom v t g else d := rfl

/-- Where every change of a prefix has happened, the value is that of the rest from the prefix's last policy. -/
theorem PolicyTable.getFrom_append_le (d : Policy) (p q : PolicyTable) (g : Nat) (h : ∀ c ∈ p, c.1 ≤ g) :
    PolicyTable.getFrom d (p ++ q) g = PolicyTable.getFrom (PolicyTable.lastFrom d p) q g := by
  induction p generalizing d with
  | nil => rfl
  | cons c p ih =>
    obtain ⟨k, v⟩ := c
    have hk : k ≤ g := h (k, v) (by simp)
    simp only [List.cons_append, PolicyTable.getFrom_cons, if_pos hk, PolicyTable.lastFrom]
    exact ih v (fun c hc => h c (by simp [hc]))

/-- A list whose first change is after g has not begun at g. -/
theorem PolicyTable.getFrom_late (d : Policy) (t : PolicyTable) (g : Nat) (h : ∀ c ∈ t.head?, g < c.1) :
    PolicyTable.getFrom d t g = d := by
  cases t with
  | nil => rfl
  | cons c t =>
    obtain ⟨k, v⟩ := c
    have : g < k := h (k, v) (by simp)
    simp [PolicyTable.getFrom_cons, Nat.not_le.2 this]

/-- Before `lo`, only the changes before `lo` matter. -/
theorem PolicyTable.getFrom_takeWhile_lt (d : Policy) (t q : PolicyTable) (lo g : Nat) (hg : g < lo)
    (hq : ∀ c ∈ q.head?, g < c.1) :
    PolicyTable.getFrom d (t.takeWhile (fun c => c.1 < lo) ++ q) g = PolicyTable.getFrom d t g := by
  induction t generalizing d with
  | nil => simpa using PolicyTable.getFrom_late d q g hq
  | cons c t ih =>
    obtain ⟨k, v⟩ := c
    by_cases hk : k < lo
    · simp only [List.takeWhile_cons, hk, decide_true, if_true, List.cons_append, PolicyTable.getFrom_cons, ih]
    · have : ¬ k ≤ g := by omega
      simp only [List.takeWhile_cons, hk, decide_false, Bool.false_eq_true, if_false, List.nil_append,
        PolicyTable.getFrom_cons, if_neg this]
      exact PolicyTable.getFrom_late d q g hq

/-- From `hi` up, the table is its part after `hi` from the policy at `hi`. -/
theorem PolicyTable.getFrom_dropWhile_le (d : Policy) (t : PolicyTable) (hi g : Nat) (hg : hi ≤ g) :
    PolicyTable.getFrom (PolicyTable.getFrom d t hi) (t.dropWhile (fun c => c.1 ≤ hi)) g
      = PolicyTable.getFrom d t g := by
  induction t generalizing d with
  | nil => rfl
  | cons c t ih =>
    obtain ⟨k, v⟩ := c
    by_cases hk : k ≤ hi
    · have hkg : k ≤ g := Nat.le_trans hk hg
      simp only [List.dropWhile_cons, hk, decide_true, if_true, PolicyTable.getFrom_cons, hkg]
      exact ih v
    · simp [hk, PolicyTable.getFrom_cons]

theorem PolicyTable.head_dropWhile_le (t : PolicyTable) (hi : Nat) :
    ∀ c ∈ (t.dropWhile (fun c => c.1 ≤ hi)).head?, hi < c.1 := by
  intro c hc
  have h := List.head?_dropWhile_not (fun c : Nat × Policy => decide (c.1 ≤ hi)) t
  cases hd : (t.dropWhile (fun c => c.1 ≤ hi)).head? with
  | none => simp [hd] at hc
  | some e =>
    rw [hd] at hc h
    simp only [Option.mem_def, Option.some.injEq] at hc
    subst hc
    simpa using h

theorem PolicyTable.mem_takeWhile_lt (t : PolicyTable) (lo : Nat) :
    ∀ c ∈ t.takeWhile (fun c => c.1 < lo), c.1 < lo := by
  intro c hc
  simpa using List.mem_takeWhile_imp hc

/-- A change takes effect from its place on. -/
theorem PolicyTable.getFrom_change (d v : Policy) (k : Nat) (q : PolicyTable) (g : Nat) (hg : k ≤ g) :
    PolicyTable.getFrom d (PolicyTable.change d k v ++ q) g = PolicyTable.getFrom v q g := by
  unfold PolicyTable.change
  split
  · next h => simp [h]
  · simp [PolicyTable.getFrom_cons, hg]

theorem PolicyTable.head_change_append (d v : Policy) (k : Nat) (q : PolicyTable) (g : Nat) (hg : g < k)
    (hq : ∀ c ∈ q.head?, g < c.1) : ∀ c ∈ (PolicyTable.change d k v ++ q).head?, g < c.1 := by
  unfold PolicyTable.change
  split
  · simpa using hq
  · simpa using hg

/-- What a fill can do (R30): the entries of the range become v, and every other entry stays. -/
theorem PolicyTable.get_fill (t : PolicyTable) (lo hi : Nat) (v : Policy) (g : Nat) :
    PolicyTable.get (PolicyTable.fill t lo hi v) g
      = if lo ≤ g ∧ g < hi then v else PolicyTable.get t g := by
  unfold PolicyTable.fill
  by_cases h : lo < hi
  · rw [if_pos h]
    have hpost := PolicyTable.head_dropWhile_le t hi
    simp only [List.append_assoc]
    by_cases h1 : g < lo
    · rw [if_neg (by omega)]
      refine PolicyTable.getFrom_takeWhile_lt _ _ _ lo g h1 ?_
      refine PolicyTable.head_change_append _ _ _ _ _ h1 ?_
      exact PolicyTable.head_change_append _ _ _ _ _ (by omega) (fun c hc => by have := hpost c hc; omega)
    · have hpre : ∀ c ∈ t.takeWhile (fun c => c.1 < lo), c.1 ≤ g := fun c hc => by
        have := PolicyTable.mem_takeWhile_lt t lo c hc
        omega
      unfold PolicyTable.get
      rw [PolicyTable.getFrom_append_le _ _ _ g hpre, PolicyTable.getFrom_change _ _ _ _ _ (by omega)]
      by_cases h2 : g < hi
      · rw [if_pos ⟨by omega, h2⟩]
        exact PolicyTable.getFrom_late _ _ _
          (PolicyTable.head_change_append _ _ _ _ _ h2 (fun c hc => by have := hpost c hc; omega))
      · rw [if_neg (by omega), PolicyTable.getFrom_change _ _ _ _ _ (by omega)]
        exact PolicyTable.getFrom_dropWhile_le _ t hi g (by omega)
  · rw [if_neg h, if_neg (by omega)]

theorem PolicyTable.wfFrom_cons (d : Policy) (k : Nat) (v : Policy) (t : PolicyTable) :
    PolicyTable.wfFrom d ((k, v) :: t) = true ↔
      v ≠ d ∧ (∀ c ∈ t, k < c.1) ∧ PolicyTable.wfFrom v t = true := by
  simp [PolicyTable.wfFrom, and_assoc]

/-- Two lists of changes in canonical form with the same entries are the same list. -/
theorem PolicyTable.eq_of_getFrom (d : Policy) (t u : PolicyTable) (ht : PolicyTable.wfFrom d t = true)
    (hu : PolicyTable.wfFrom d u = true)
    (h : ∀ g, PolicyTable.getFrom d t g = PolicyTable.getFrom d u g) : t = u := by
  have key : ∀ (d : Policy) (k : Nat) (v : Policy) (t u : PolicyTable),
      PolicyTable.wfFrom d ((k, v) :: t) = true →
      (∀ c ∈ u.head?, k < c.1) →
      PolicyTable.getFrom d ((k, v) :: t) k ≠ PolicyTable.getFrom d u k := by
    intro d k v t u ht hu
    obtain ⟨hv, hk, -⟩ := (PolicyTable.wfFrom_cons d k v t).1 ht
    rw [PolicyTable.getFrom_late d u k hu]
    simp only [PolicyTable.getFrom_cons, Nat.le_refl, if_true]
    rw [PolicyTable.getFrom_late v t k (fun c hc => hk c (List.mem_of_mem_head? hc))]
    exact hv
  induction t generalizing d u with
  | nil =>
    cases u with
    | nil => rfl
    | cons c u => exact absurd (h c.1).symm (key d c.1 c.2 u [] hu (by simp))
  | cons b t ih =>
    cases u with
    | nil => exact absurd (h b.1) (key d b.1 b.2 t [] ht (by simp))
    | cons c u =>
      obtain ⟨k, v⟩ := b
      obtain ⟨l, w⟩ := c
      rcases Nat.lt_trichotomy k l with hlt | rfl | hlt
      · exact absurd (h k) (key d k v t _ ht (by simpa using hlt))
      · obtain ⟨hv, hk, ht'⟩ := (PolicyTable.wfFrom_cons d k v t).1 ht
        obtain ⟨hw, hl, hu'⟩ := (PolicyTable.wfFrom_cons d k w u).1 hu
        have hvw : v = w := by
          have := h k
          simp only [PolicyTable.getFrom_cons, Nat.le_refl, if_true] at this
          rwa [PolicyTable.getFrom_late v t k (fun c hc => hk c (List.mem_of_mem_head? hc)),
            PolicyTable.getFrom_late w u k (fun c hc => hl c (List.mem_of_mem_head? hc))] at this
        subst hvw
        have : t = u := by
          refine ih v u ht' hu' (fun g => ?_)
          by_cases hg : k ≤ g
          · simpa [PolicyTable.getFrom_cons, hg] using h g
          · rw [PolicyTable.getFrom_late v t g (fun c hc => by
                have := hk c (List.mem_of_mem_head? hc); omega),
              PolicyTable.getFrom_late v u g (fun c hc => by
                have := hl c (List.mem_of_mem_head? hc); omega)]
        rw [this]
      · exact absurd (h l).symm (key d l w u _ hu (by simpa using hlt))

/-- Equal entries are equal data. -/
theorem PolicyTable.eq_of_get (t u : PolicyTable) (n m : Nat) (ht : PolicyTable.wf t n = true)
    (hu : PolicyTable.wf u m = true) (h : ∀ g, PolicyTable.get t g = PolicyTable.get u g) : t = u := by
  simp only [PolicyTable.wf, Bool.and_eq_true] at ht hu
  exact PolicyTable.eq_of_getFrom .internal t u ht.1 hu.1 h

theorem PolicyTable.wfFrom_append (d : Policy) (p q : PolicyTable) :
    PolicyTable.wfFrom d (p ++ q) = true ↔
      PolicyTable.wfFrom d p = true ∧ (∀ b ∈ p, ∀ c ∈ q, b.1 < c.1)
        ∧ PolicyTable.wfFrom (PolicyTable.lastFrom d p) q = true := by
  induction p generalizing d with
  | nil => simp [PolicyTable.wfFrom, PolicyTable.lastFrom]
  | cons c p ih =>
    obtain ⟨k, v⟩ := c
    simp only [List.cons_append, PolicyTable.wfFrom_cons, ih, PolicyTable.lastFrom, List.mem_append,
      List.mem_cons]
    constructor
    · rintro ⟨h1, h2, h3, h4, h5⟩
      exact ⟨⟨h1, fun c hc => h2 c (.inl hc), h3⟩,
        fun b hb c hc => hb.elim (fun e => e ▸ h2 c (.inr hc)) (fun hb => h4 b hb c hc), h5⟩
    · rintro ⟨⟨h1, h2, h3⟩, h4, h5⟩
      exact ⟨h1, fun c hc => hc.elim (h2 c) (h4 (k, v) (.inl rfl) c), h3, fun b hb => h4 b (.inr hb), h5⟩

theorem PolicyTable.wfFrom_change (d v : Policy) (k : Nat) : PolicyTable.wfFrom d (PolicyTable.change d k v) = true := by
  unfold PolicyTable.change
  split
  · rfl
  · next h => exact (PolicyTable.wfFrom_cons d k v []).2 ⟨h, by simp, rfl⟩

theorem PolicyTable.lastFrom_change (d v : Policy) (k : Nat) : PolicyTable.lastFrom d (PolicyTable.change d k v) = v := by
  unfold PolicyTable.change
  split
  · next h => exact h.symm
  · rfl

theorem PolicyTable.mem_change (d v : Policy) (k : Nat) : ∀ c ∈ PolicyTable.change d k v, c.1 = k := by
  unfold PolicyTable.change
  split <;> simp

/-- In a list in canonical form, what is left after dropping the changes up to `hi` is in canonical form from the
policy at `hi`, and lies wholly after `hi`. -/
theorem PolicyTable.wfFrom_dropWhile (d : Policy) (t : PolicyTable) (hi : Nat)
    (h : PolicyTable.wfFrom d t = true) :
    PolicyTable.wfFrom (PolicyTable.getFrom d t hi) (t.dropWhile (fun c => c.1 ≤ hi)) = true
      ∧ ∀ c ∈ t.dropWhile (fun c => c.1 ≤ hi), hi < c.1 := by
  induction t generalizing d with
  | nil => simp [PolicyTable.wfFrom]
  | cons c t ih =>
    obtain ⟨k, v⟩ := c
    obtain ⟨h1, h2, h3⟩ := (PolicyTable.wfFrom_cons d k v t).1 h
    by_cases hk : k ≤ hi
    · simpa [List.dropWhile_cons, hk, PolicyTable.getFrom_cons] using ih v h3
    · simp only [List.dropWhile_cons, hk, decide_false, Bool.false_eq_true, if_false, PolicyTable.getFrom_cons]
      refine ⟨h, fun c hc => ?_⟩
      rcases List.mem_cons.1 hc with rfl | hc
      · simpa using hk
      · have := h2 c hc
        omega

/-- A fill keeps the canonical form. -/
theorem PolicyTable.wf_fill (t : PolicyTable) (lo hi ng : Nat) (v : Policy) (h : PolicyTable.wf t ng = true)
    (hhi : hi ≤ ng) : PolicyTable.wf (PolicyTable.fill t lo hi v) ng = true := by
  unfold PolicyTable.fill
  split
  · next hlt =>
    simp only [PolicyTable.wf, Bool.and_eq_true, List.all_eq_true, decide_eq_true_eq] at h ⊢
    obtain ⟨hw, hb⟩ := h
    have hpre := PolicyTable.mem_takeWhile_lt t lo
    have hsplit := (PolicyTable.wfFrom_append Policy.internal (t.takeWhile (fun c => c.1 < lo))
      (t.dropWhile (fun c => c.1 < lo))).1 (by rwa [List.takeWhile_append_dropWhile])
    obtain ⟨hd, hd'⟩ := PolicyTable.wfFrom_dropWhile .internal t hi hw
    constructor
    · simp only [List.append_assoc]
      refine (PolicyTable.wfFrom_append _ _ _).2 ⟨hsplit.1, ?_, ?_⟩
      · intro b hb c hc
        have h1 := hpre b hb
        rcases List.mem_append.1 hc with hc | hc
        · have := PolicyTable.mem_change _ _ _ c hc
          omega
        · rcases List.mem_append.1 hc with hc | hc
          · have := PolicyTable.mem_change _ _ _ c hc
            omega
          · have := hd' c hc
            omega
      · refine (PolicyTable.wfFrom_append _ _ _).2 ⟨PolicyTable.wfFrom_change _ _ _, ?_, ?_⟩
        · intro b hb c hc
          have h1 := PolicyTable.mem_change _ _ _ b hb
          rcases List.mem_append.1 hc with hc | hc
          · have := PolicyTable.mem_change _ _ _ c hc
            omega
          · have := hd' c hc
            omega
        · rw [PolicyTable.lastFrom_change]
          refine (PolicyTable.wfFrom_append _ _ _).2 ⟨PolicyTable.wfFrom_change _ _ _, ?_, ?_⟩
          · intro b hb c hc
            have h1 := PolicyTable.mem_change _ _ _ b hb
            have := hd' c hc
            omega
          · rw [PolicyTable.lastFrom_change]
            exact hd
    · intro c hc
      simp only [List.mem_append] at hc
      rcases hc with ((hc | hc) | hc) | hc
      · exact hb c ((List.takeWhile_sublist _).subset hc)
      · have := PolicyTable.mem_change _ _ _ c hc
        omega
      · have := PolicyTable.mem_change _ _ _ c hc
        omega
      · exact hb c ((List.dropWhile_sublist _).subset hc)
  · exact h

end Sys2Proof.Machine
end

