-- ==== Sys2Proof/Laws/Windows.lean ====
section
/-! SUPPORT. What the operations of the Shadow, SMRAM and EMS controllers can do, and what their loops can do. -/

namespace Sys2Proof.Machine

variable (s t : State)

/-! ### Records and tables -/

/-- A state that agrees with s on the rest is s with the mapping fields of that state. -/
theorem State.SameRest.update {s t : State} (h : s.SameRest t) :
    t = { s with
      rgn := t.rgn, genCtr := t.genCtr, rpol := t.rpol, wpol := t.wpol, smw := t.smw, emsSlot := t.emsSlot } := by
  obtain ⟨h1, h2, h3, h4, h5, h6, h7, h8, h9, h10, h11, h12, h13, h14, h15, h16, h17⟩ := h
  cases s
  cases t
  simp only at *
  subst_vars
  rfl

/-- What a Region command leaves: the Region table and the counter of u, `stale` set when the mapping changed. -/
theorem State.SameRest.noteMapChange_done {s u : State} (h : s.SameRest u) (hr : u.rpol = s.rpol) (hw : u.wpol = s.wpol)
    (hm : u.smw = s.smw) (he : u.emsSlot = s.emsSlot) (d : ResultData) :
    (s.noteMapChange u).done d = { s with
      rgn := u.rgn, genCtr := u.genCtr, stale := s.stale || mapChanged s u, cp := s.cp + 1
      result := some { status := .ok, data := d } } := by
  have hu := h.update
  rw [hr, hw, hm, he] at hu
  have h1 : u.stale = s.stale := h.stale
  have h2 : u.cp = s.cp := h.cp
  unfold State.noteMapChange State.done
  rw [h1]
  simp only [h2]
  generalize mapChanged s u = m
  conv_lhs => rw [hu]

/-- What PolicyFill can do (R30), entry by entry. -/
theorem State.policyAt_policyFill (b z : Nat) (pair : PolicyPair) (kind : Kind) (g : Nat) :
    (s.policyFill b z pair).policyAt kind g =
      if b / s.plat.granule ≤ g ∧ g < (b + z) / s.plat.granule then pairAt pair kind else s.policyAt kind g := by
  cases kind <;> simp only [State.policyAt, State.policyFill_rpol, State.policyFill_wpol, PolicyTable.get_fill, pairAt]

theorem State.policyAt_congr (h1 : t.rpol = s.rpol) (h2 : t.wpol = s.wpol) (kind : Kind) (g : Nat) :
    t.policyAt kind g = s.policyAt kind g := by
  cases kind <;> simp only [State.policyAt, h1, h2]

@[simp] theorem State.policyAt_setRgn (id : RegionId) (r : Region) (kind : Kind) (g : Nat) :
    (s.setRgn id r).policyAt kind g = s.policyAt kind g := State.policyAt_congr _ _ (by simp) (by simp) _ _
@[simp] theorem State.policyAt_enableRgn (id : RegionId) (kind : Kind) (g : Nat) :
    (s.enableRgn id).policyAt kind g = s.policyAt kind g := State.policyAt_congr _ _ (by simp) (by simp) _ _
@[simp] theorem State.policyAt_disableRgn (id : RegionId) (kind : Kind) (g : Nat) :
    (s.disableRgn id).policyAt kind g = s.policyAt kind g := State.policyAt_congr _ _ (by simp) (by simp) _ _
@[simp] theorem State.policyAt_setWindow (w : Nat) (v : SmramWindow) (kind : Kind) (g : Nat) :
    (s.setWindow w v).policyAt kind g = s.policyAt kind g := State.policyAt_congr _ _ rfl rfl _ _
@[simp] theorem State.policyAt_setSlot (k : Nat) (v : EmsSlot) (kind : Kind) (g : Nat) :
    (s.setSlot k v).policyAt kind g = s.policyAt kind g := State.policyAt_congr _ _ rfl rfl _ _
@[simp] theorem State.policyAt_invalidate (kind : Kind) (g : Nat) :
    s.invalidate.policyAt kind g = s.policyAt kind g := State.policyAt_congr _ _ rfl rfl _ _
@[simp] theorem State.policyAt_done (d : ResultData) (kind : Kind) (g : Nat) :
    (s.done d).policyAt kind g = s.policyAt kind g := State.policyAt_congr _ _ rfl rfl _ _
@[simp] theorem State.policyAt_noteMapChange (kind : Kind) (g : Nat) :
    (s.noteMapChange t).policyAt kind g = t.policyAt kind g := State.policyAt_congr _ _ rfl rfl _ _

/-! ### SmrApply (R181) -/

/-- The Region window w has after its registers are applied. -/
def State.appliedWindow (s : State) (w : Nat) : Region :=
  { s.rgnAt (.smr w) with
    base := (s.window w).visible.toNat
    size := (s.window w).size.toNat
    cls := .internal
    backing := windowBacking (s.window w)
    enabled := shown s.smm (s.window w)
    gen := if shown s.smm (s.window w) && !(s.rgnAt (.smr w)).enabled then s.genCtr + 1 else (s.rgnAt (.smr w)).gen }

theorem State.sameRest_smrApply (w : Nat) : s.SameRest (s.smrApply w) := by
  have h1 : s.SameRest (s.placeWindow w) := s.sameRest_setRgn _ _
  have h2 : (s.placeWindow w).SameRest ((s.placeWindow w).showWindow w) := by
    unfold State.showWindow
    split
    · exact State.sameRest_enableRgn _ _
    · exact State.sameRest_disableRgn _ _
  have h3 : ∀ u : State, u.SameRest (u.fillWindow w) := by
    intro u
    unfold State.fillWindow
    split
    · exact State.sameRest_policyFill _ _ _ _
    · exact .refl _
  exact (h1.trans h2).trans (h3 _)

@[simp] theorem State.placeWindow_smw (w : Nat) : (s.placeWindow w).smw = s.smw := by simp [State.placeWindow]
@[simp] theorem State.placeWindow_emsSlot (w : Nat) : (s.placeWindow w).emsSlot = s.emsSlot := by
  simp [State.placeWindow]
@[simp] theorem State.showWindow_smw (w : Nat) : (s.showWindow w).smw = s.smw := by
  unfold State.showWindow; split <;> simp
@[simp] theorem State.showWindow_emsSlot (w : Nat) : (s.showWindow w).emsSlot = s.emsSlot := by
  unfold State.showWindow; split <;> simp
@[simp] theorem State.fillWindow_smw (w : Nat) : (s.fillWindow w).smw = s.smw := by
  unfold State.fillWindow; split <;> simp
@[simp] theorem State.fillWindow_emsSlot (w : Nat) : (s.fillWindow w).emsSlot = s.emsSlot := by
  unfold State.fillWindow; split <;> simp
@[simp] theorem State.fillWindow_rgn (w : Nat) : (s.fillWindow w).rgn = s.rgn := by
  unfold State.fillWindow; split <;> simp
@[simp] theorem State.fillWindow_genCtr (w : Nat) : (s.fillWindow w).genCtr = s.genCtr := by
  unfold State.fillWindow; split <;> simp
@[simp] theorem State.smrApply_smw (w : Nat) : (s.smrApply w).smw = s.smw := by simp [State.smrApply]
@[simp] theorem State.smrApply_emsSlot (w : Nat) : (s.smrApply w).emsSlot = s.emsSlot := by simp [State.smrApply]

theorem State.window_congr (h : t.smw = s.smw) (w : Nat) : t.window w = s.window w := by simp only [State.window, h]

/-- What SmrApply does to the Region table: the window's own Region, and no other. -/
theorem State.rgnAt_smrApply (w : Nat) (id : RegionId) (h : s.hasRgn (.smr w)) :
    (s.smrApply w).rgnAt id = if id = .smr w then s.appliedWindow w else s.rgnAt id := by
  have hw : (s.placeWindow w).window w = s.window w := State.window_congr _ _ (by simp) w
  have hsmm : (s.placeWindow w).smm = s.smm := by simp [State.placeWindow]
  have hg : (s.placeWindow w).genCtr = s.genCtr := by simp [State.placeWindow]
  have hp : ∀ id', (s.placeWindow w).rgnAt id' =
      if id' = .smr w then { s.rgnAt (.smr w) with
        base := (s.window w).visible.toNat, size := (s.window w).size.toNat, cls := .internal
        backing := windowBacking (s.window w) } else s.rgnAt id' := fun id' => s.rgnAt_setRgn _ id' _ h
  have hh : (s.placeWindow w).hasRgn (.smr w) := by simpa [State.placeWindow] using h
  unfold State.smrApply
  rw [State.rgnAt_congr _ _ (State.fillWindow_rgn _ _)]
  unfold State.showWindow State.appliedWindow
  rw [hw, hsmm]
  cases hs : shown s.smm (s.window w) with
  | true =>
    rw [if_pos rfl, State.rgnAt_enableRgn _ _ _ hh]
    simp only [hp, if_true, hg]
    by_cases hid : id = .smr w
    · subst hid
      cases (s.rgnAt (.smr w)).enabled <;> simp
    · simp [hid]
  | false =>
    rw [if_neg (by simp), State.rgnAt_disableRgn]
    simp only [hp, if_true]
    by_cases hid : id = .smr w <;> simp [hid]

/-- What SmrApply does to the generation counter: it goes up when the window becomes visible. -/
theorem State.genCtr_smrApply (w : Nat) (h : s.hasRgn (.smr w)) :
    (s.smrApply w).genCtr
      = if shown s.smm (s.window w) && !(s.rgnAt (.smr w)).enabled then s.genCtr + 1 else s.genCtr := by
  have hw : (s.placeWindow w).window w = s.window w := State.window_congr _ _ (by simp) w
  have hsmm : (s.placeWindow w).smm = s.smm := by simp [State.placeWindow]
  have hg : (s.placeWindow w).genCtr = s.genCtr := by simp [State.placeWindow]
  have hp : ((s.placeWindow w).rgnAt (.smr w)).enabled = (s.rgnAt (.smr w)).enabled := by
    unfold State.placeWindow; rw [State.rgnAt_setRgn_same _ _ _ h]
  unfold State.smrApply
  rw [State.fillWindow_genCtr]
  unfold State.showWindow
  rw [hw, hsmm]
  cases shown s.smm (s.window w) <;> simp [State.enableRgn_genCtr, hp, hg]
  cases (s.rgnAt (.smr w)).enabled <;> simp

/-- What SmrApply does to the policy table: an active window's granules get its pair. -/
theorem State.policyAt_smrApply (w : Nat) (kind : Kind) (g : Nat) :
    (s.smrApply w).policyAt kind g =
      if (s.window w).active = true ∧ granuleIn s.plat (s.window w).visible.toNat (s.window w).size.toNat g
      then pairAt (windowPolicy s.smm (s.window w)) kind else s.policyAt kind g := by
  have hw : ((s.placeWindow w).showWindow w).window w = s.window w := State.window_congr _ _ (by simp) w
  have hsmm : ((s.placeWindow w).showWindow w).smm = s.smm := by
    unfold State.showWindow State.placeWindow; split <;> simp
  have hplat : ((s.placeWindow w).showWindow w).plat = s.plat := by
    unfold State.showWindow State.placeWindow; split <;> simp
  have hpol : ((s.placeWindow w).showWindow w).policyAt kind g = s.policyAt kind g := by
    unfold State.showWindow State.placeWindow; split <;> simp
  unfold State.smrApply State.fillWindow granuleIn
  rw [hw, hsmm]
  cases (s.window w).active <;> simp [State.policyAt_policyFill, hplat, hpol]

@[simp] theorem State.smrApply_lengths (w : Nat) :
    (s.smrApply w).rgn.gen.length = s.rgn.gen.length ∧ (s.smrApply w).rgn.smr.length = s.rgn.smr.length
      ∧ (s.smrApply w).rgn.ems.length = s.rgn.ems.length := by
  unfold State.smrApply
  rw [State.fillWindow_rgn]
  unfold State.showWindow State.placeWindow
  split <;> simp

/-! ### EmsApply (R200) -/

/-- The Region slot k has after its registers are applied. -/
def State.appliedSlot (s : State) (k : Nat) : Region :=
  { s.slotRegion k with
    enabled := s.emsMode && (s.slot k).enabled
    gen := if s.emsMode && (s.slot k).enabled then s.genCtr + 1 else (s.rgnAt (.ems k)).gen }

theorem State.sameRest_emsApply (k : Nat) : s.SameRest (s.emsApply k) := by
  unfold State.emsApply
  split
  · exact (State.sameRest_setRgn _ _ _).trans (State.sameRest_enableRgn _ _)
  · exact State.sameRest_setRgn _ _ _

@[simp] theorem State.emsApply_smw (k : Nat) : (s.emsApply k).smw = s.smw := by unfold State.emsApply; split <;> simp
@[simp] theorem State.emsApply_emsSlot (k : Nat) : (s.emsApply k).emsSlot = s.emsSlot := by
  unfold State.emsApply; split <;> simp
@[simp] theorem State.emsApply_rpol (k : Nat) : (s.emsApply k).rpol = s.rpol := by unfold State.emsApply; split <;> simp
@[simp] theorem State.emsApply_wpol (k : Nat) : (s.emsApply k).wpol = s.wpol := by unfold State.emsApply; split <;> simp
@[simp] theorem State.emsApply_lengths (k : Nat) :
    (s.emsApply k).rgn.gen.length = s.rgn.gen.length ∧ (s.emsApply k).rgn.smr.length = s.rgn.smr.length
      ∧ (s.emsApply k).rgn.ems.length = s.rgn.ems.length := by
  unfold State.emsApply; split <;> simp

/-- What EmsApply does to the Region table: the slot's own Region, and no other. -/
theorem State.rgnAt_emsApply (k : Nat) (id : RegionId) (h : s.hasRgn (.ems k)) :
    (s.emsApply k).rgnAt id = if id = .ems k then s.appliedSlot k else s.rgnAt id := by
  unfold State.emsApply State.appliedSlot
  cases hs : (s.emsMode && (s.slot k).enabled) with
  | true =>
    rw [if_pos rfl, State.rgnAt_enableRgn _ _ _ (by simpa using h), State.rgnAt_setRgn_same _ _ _ h,
      State.rgnAt_setRgn _ _ _ _ h]
    by_cases hid : id = .ems k <;> simp [hid, State.slotRegion]
  | false =>
    rw [if_neg (by simp), State.rgnAt_setRgn _ _ _ _ h]
    by_cases hid : id = .ems k <;> simp [hid, State.slotRegion]

/-- What EmsApply does to the generation counter. -/
theorem State.genCtr_emsApply (k : Nat) (h : s.hasRgn (.ems k)) :
    (s.emsApply k).genCtr = if s.emsMode && (s.slot k).enabled then s.genCtr + 1 else s.genCtr := by
  unfold State.emsApply
  split
  · rw [State.enableRgn_genCtr, State.rgnAt_setRgn_same _ _ _ h]
    simp [State.slotRegion]
  · simp

end Sys2Proof.Machine
end

