-- ==== Sys2Proof/Laws/ControllerLoops.lean ====
section
/-! SUPPORT. What the loops of SMRAM_DISABLE_ALL, SMRAM_SET_SMM, EMS_SET_MODE and ShadowRecalc can do, one invariant of the
passes for each. -/

namespace Sys2Proof.Machine

variable (s : State)

/-! ### SMRAM_DISABLE_ALL (R182) -/

theorem State.window_hideWindow (w v : Nat) :
    (s.hideWindow w).window v = if v = w then { s.window v with active := false } else s.window v := by
  have h : (s.hideWindow w).smw = s.smw.set w { s.window w with active := false } := by simp [State.hideWindow]
  unfold State.window
  rw [h]
  by_cases hv : v = w
  · subst hv
    rw [if_pos rfl]
    by_cases hl : v < s.smw.length
    · rw [getD_set_same _ _ _ _ hl]
      rfl
    · rw [List.set_eq_of_length_le (by omega), List.getD_eq_default _ _ (by omega)]
      rfl
  · rw [if_neg hv, getD_set_other _ _ _ _ _ hv]

theorem State.rgnAt_hideWindow (w : Nat) (id : RegionId) :
    (s.hideWindow w).rgnAt id = if id = .smr w then { s.rgnAt id with enabled := false } else s.rgnAt id := by
  unfold State.hideWindow
  rw [State.rgnAt_setWindow, State.rgnAt_disableRgn]
  by_cases h : id = .smr w
  · rw [if_pos h, if_pos h, h]
  · rw [if_neg h, if_neg h]

/-- The state after SMRAM_DISABLE_ALL has been through the windows below n. -/
structure HiddenBelow (s t : State) (n : Nat) : Prop where
  rest : s.SameRest t
  genCtr : t.genCtr = s.genCtr
  policies : t.rpol = s.rpol ∧ t.wpol = s.wpol
  emsSlot : t.emsSlot = s.emsSlot
  shape : s.sameShape t
  smwLength : t.smw.length = s.smw.length
  hidden : ∀ w, w < n → t.rgnAt (.smr w) = { s.rgnAt (.smr w) with enabled := false }
  windows : ∀ w, w < n → t.window w = { s.window w with active := false }
  others : ∀ id, (∀ w, w < n → id ≠ .smr w) → t.rgnAt id = s.rgnAt id
  otherWindows : ∀ w, n ≤ w → t.window w = s.window w

theorem hiddenBelow_forRange (n : Nat) : HiddenBelow s (forRange n State.hideWindow s) n := by
  refine forRange_induction (fun i t => HiddenBelow s t i) n _ s ?_ ?_
  · exact ⟨.refl s, rfl, ⟨rfl, rfl⟩, rfl, ⟨rfl, rfl, rfl⟩, rfl, by omega, by omega, fun _ _ => rfl, fun _ _ => rfl⟩
  · intro i t _ h
    have hr : t.SameRest (t.hideWindow i) :=
      (State.sameRest_disableRgn _ _).trans (State.sameRest_setWindow _ _ _)
    refine ⟨h.rest.trans hr, ?_, ?_, ?_, ?_, ?_, ?_, ?_, ?_, ?_⟩
    · simpa [State.hideWindow] using h.genCtr
    · simpa [State.hideWindow] using h.policies
    · simpa [State.hideWindow] using h.emsSlot
    · have := h.shape
      simpa [State.hideWindow, State.sameShape] using this
    · simpa [State.hideWindow] using h.smwLength
    · intro w hw
      rw [State.rgnAt_hideWindow]
      by_cases hi : w = i
      · subst hi
        rw [if_pos rfl, h.others (.smr w) (by intro v hv he; simp at he; omega)]
      · rw [if_neg (by simpa using hi), h.hidden w (by omega)]
    · intro w hw
      rw [State.window_hideWindow]
      by_cases hi : w = i
      · subst hi
        rw [if_pos rfl, h.otherWindows w (by omega)]
      · rw [if_neg hi, h.windows w (by omega)]
    · intro id hid
      rw [State.rgnAt_hideWindow, if_neg (hid i (by omega)), h.others id (fun w hw => hid w (by omega))]
    · intro w hw
      rw [State.window_hideWindow, if_neg (by omega), h.otherWindows w (by omega)]

/-! ### SMRAM_SET_SMM (R184) -/

/-- Counting over one more index. -/
theorem countP_range_succ (n : Nat) (f : Nat → Bool) :
    (List.range (n + 1)).countP f = (List.range n).countP f + if f n then 1 else 0 := by
  rw [List.range_succ, List.countP_append, List.countP_singleton]

/-- The state after the active windows below n have been recomputed. -/
structure RefreshedBelow (s t : State) (n : Nat) : Prop where
  rest : s.SameRest t
  smw : t.smw = s.smw
  emsSlot : t.emsSlot = s.emsSlot
  shape : s.sameShape t
  genCtr : s.genCtr ≤ t.genCtr
  applied : ∀ w, w < n → (s.window w).active = true →
    t.rgnAt (.smr w) = { s.appliedWindow w with gen := (t.rgnAt (.smr w)).gen }
  fresh : ∀ w, w < n → (s.window w).active = true → shown s.smm (s.window w) = true →
    (s.rgnAt (.smr w)).enabled = false → s.genCtr < (t.rgnAt (.smr w)).gen ∧ (t.rgnAt (.smr w)).gen ≤ t.genCtr
  kept : ∀ w, w < n → (s.window w).active = true →
    (shown s.smm (s.window w) = false ∨ (s.rgnAt (.smr w)).enabled = true) →
    (t.rgnAt (.smr w)).gen = (s.rgnAt (.smr w)).gen
  order : ∀ v w, v < w → w < n →
    (s.window v).active = true → shown s.smm (s.window v) = true → (s.rgnAt (.smr v)).enabled = false →
    (s.window w).active = true → shown s.smm (s.window w) = true → (s.rgnAt (.smr w)).enabled = false →
    (t.rgnAt (.smr v)).gen < (t.rgnAt (.smr w)).gen
  count : t.genCtr = s.genCtr
    + (List.range n).countP (fun w => shown s.smm (s.window w) && !(s.rgnAt (.smr w)).enabled)
  others : ∀ id, (∀ w, w < n → (s.window w).active = true → id ≠ .smr w) → t.rgnAt id = s.rgnAt id
  last : ∀ w kind g, w < n → (s.window w).active = true →
    granuleIn s.plat (s.window w).visible.toNat (s.window w).size.toNat g →
    (∀ v, w < v → v < n → (s.window v).active = true →
      ¬ granuleIn s.plat (s.window v).visible.toNat (s.window v).size.toNat g) →
    t.policyAt kind g = pairAt (windowPolicy s.smm (s.window w)) kind
  untouched : ∀ kind g, (∀ w, w < n → (s.window w).active = true →
      ¬ granuleIn s.plat (s.window w).visible.toNat (s.window w).size.toNat g) →
    t.policyAt kind g = s.policyAt kind g

theorem refreshedBelow_forRange (n : Nat) (hn : n ≤ s.rgn.smr.length) :
    RefreshedBelow s (forRange n State.refreshSmram s) n := by
  refine forRange_induction (fun i t => RefreshedBelow s t i) n _ s ?_ ?_
  · exact ⟨.refl s, rfl, rfl, ⟨rfl, rfl, rfl⟩, Nat.le_refl _, by omega, by omega, by omega, by omega, rfl,
      fun _ _ => rfl, by omega, fun _ _ _ => rfl⟩
  · intro i t hi h
    have hwin : ∀ w, t.window w = s.window w := fun w => State.window_congr s t h.smw w
    unfold State.refreshSmram
    rw [hwin]
    cases ha : (s.window i).active with
    | false =>
      rw [if_neg (by simp)]
      have hne : ∀ w, w < i + 1 → (s.window w).active = true → w < i := by
        intro w hw hwa
        have : w ≠ i := fun e => by rw [e, ha] at hwa; cases hwa
        omega
      exact ⟨h.rest, h.smw, h.emsSlot, h.shape, h.genCtr,
        fun w hw hwa => h.applied w (hne w hw hwa) hwa, fun w hw hwa => h.fresh w (hne w hw hwa) hwa,
        fun w hw hwa => h.kept w (hne w hw hwa) hwa,
        fun v w hvw hw hva hvs hve hwa => h.order v w hvw (hne w hw hwa) hva hvs hve hwa,
        by rw [countP_range_succ, h.count]; simp [shown, ha],
        fun id hid => h.others id (fun w hw hwa => hid w (by omega) hwa),
        fun w kind g hw hwa hg hlast => h.last w kind g (hne w hw hwa) hwa hg
          (fun v hwv hv hva => hlast v hwv (by omega) hva),
        fun kind g hg => h.untouched kind g (fun w hw hwa => hg w (by omega) hwa)⟩
    | true =>
      rw [if_pos rfl]
      have hhas : t.hasRgn (.smr i) := by
        have := h.shape.2.1
        simp only [State.hasRgn]
        omega
      have hold : t.rgnAt (.smr i) = s.rgnAt (.smr i) :=
        h.others _ (by intro w hw _ he; simp at he; omega)
      have hsmm : t.smm = s.smm := h.rest.smm
      have hrg : ∀ id, (t.smrApply i).rgnAt id = if id = .smr i then t.appliedWindow i else t.rgnAt id :=
        fun id => t.rgnAt_smrApply i id hhas
      have hgc := t.genCtr_smrApply i hhas
      have hpol : ∀ kind g, _ := fun kind g => t.policyAt_smrApply i kind g
      rw [hold, hsmm, hwin] at hgc
      simp only [hwin, hsmm, h.rest.plat] at hpol
      have happ : t.appliedWindow i = { s.appliedWindow i with gen := (t.appliedWindow i).gen } := by
        unfold State.appliedWindow
        rw [hold, hsmm, hwin]
      have hgen : (t.appliedWindow i).gen =
          if shown s.smm (s.window i) && !(s.rgnAt (.smr i)).enabled then t.genCtr + 1
          else (s.rgnAt (.smr i)).gen := by
        unfold State.appliedWindow
        rw [hold, hsmm, hwin]
      have hle := h.genCtr
      have hle' : t.genCtr ≤ (t.smrApply i).genCtr := by rw [hgc]; split <;> omega
      have hsame : ∀ w, w < i → (t.smrApply i).rgnAt (.smr w) = t.rgnAt (.smr w) := by
        intro w hw
        rw [hrg, if_neg (by simp; omega)]
      refine ⟨h.rest.trans (t.sameRest_smrApply i), ?_, ?_, ?_, by omega, ?_, ?_, ?_, ?_, ?_, ?_, ?_, ?_⟩
      · rw [State.smrApply_smw, h.smw]
      · rw [State.smrApply_emsSlot, h.emsSlot]
      · have := h.shape
        simpa [State.sameShape] using this
      · intro w hw hwa
        by_cases hwi : w = i
        · subst hwi
          rw [hrg, if_pos rfl]
          exact happ
        · rw [hsame w (by omega)]
          exact h.applied w (by omega) hwa
      · intro w hw hwa hsh hen
        by_cases hwi : w = i
        · subst hwi
          rw [hrg, if_pos rfl, hgen, hgc, hsh, hen]
          simp
          omega
        · rw [hsame w (by omega)]
          have := h.fresh w (by omega) hwa hsh hen
          omega
      · intro w hw hwa hk
        by_cases hwi : w = i
        · subst hwi
          rw [hrg, if_pos rfl, hgen]
          rcases hk with hk | hk <;> simp [hk]
        · rw [hsame w (by omega)]
          exact h.kept w (by omega) hwa hk
      · intro v w hvw hw hva hvs hve hwa hws hwe
        rw [hsame v (by omega)]
        by_cases hwi : w = i
        · subst hwi
          rw [hrg, if_pos rfl, hgen, hws, hwe]
          have := h.fresh v hvw hva hvs hve
          simp
          omega
        · rw [hsame w (by omega)]
          exact h.order v w hvw (by omega) hva hvs hve hwa hws hwe
      · rw [hgc, countP_range_succ, h.count]
        split <;> rfl
      · intro id hid
        rw [hrg, if_neg (hid i (by omega) ha)]
        exact h.others id (fun w hw hwa => hid w (by omega) hwa)
      · intro w kind g hw hwa hg hlast
        rw [hpol]
        by_cases hwi : w = i
        · subst hwi
          rw [if_pos ⟨ha, hg⟩]
        · rw [if_neg (fun hc => hlast i (by omega) (by omega) ha hc.2)]
          exact h.last w kind g (by omega) hwa hg (fun v hwv hv hva => hlast v hwv (by omega) hva)
      · intro kind g hg
        rw [hpol, if_neg (fun hc => hg i (by omega) ha hc.2)]
        exact h.untouched kind g (fun w hw hwa => hg w (by omega) hwa)

/-! ### EMS_SET_MODE (R202) -/

/-- The state after the slots below n have been applied. -/
structure AppliedBelow (s t : State) (n : Nat) : Prop where
  rest : s.SameRest t
  smw : t.smw = s.smw
  emsSlot : t.emsSlot = s.emsSlot
  policies : t.rpol = s.rpol ∧ t.wpol = s.wpol
  shape : s.sameShape t
  genCtr : s.genCtr ≤ t.genCtr
  applied : ∀ k, k < n → t.rgnAt (.ems k) = { s.appliedSlot k with gen := (t.rgnAt (.ems k)).gen }
  fresh : ∀ k, k < n → (s.emsMode && (s.slot k).enabled) = true →
    s.genCtr < (t.rgnAt (.ems k)).gen ∧ (t.rgnAt (.ems k)).gen ≤ t.genCtr
  kept : ∀ k, k < n → (s.emsMode && (s.slot k).enabled) = false →
    (t.rgnAt (.ems k)).gen = (s.rgnAt (.ems k)).gen
  order : ∀ j k, j < k → k < n → (s.emsMode && (s.slot j).enabled) = true →
    (s.emsMode && (s.slot k).enabled) = true → (t.rgnAt (.ems j)).gen < (t.rgnAt (.ems k)).gen
  count : t.genCtr = s.genCtr + (List.range n).countP (fun k => s.emsMode && (s.slot k).enabled)
  others : ∀ id, (∀ k, k < n → id ≠ .ems k) → t.rgnAt id = s.rgnAt id

theorem State.slot_congr (t : State) (h : t.emsSlot = s.emsSlot) (k : Nat) : t.slot k = s.slot k := by
  simp only [State.slot, h]

theorem appliedBelow_forRange (n : Nat) (hn : n ≤ s.rgn.ems.length) :
    AppliedBelow s (forRange n State.emsApply s) n := by
  refine forRange_induction (fun i t => AppliedBelow s t i) n _ s ?_ ?_
  · exact ⟨.refl s, rfl, rfl, ⟨rfl, rfl⟩, ⟨rfl, rfl, rfl⟩, Nat.le_refl _, by omega, by omega, by omega, by omega, rfl,
      fun _ _ => rfl⟩
  · intro i t hi h
    have hslot : ∀ k, t.slot k = s.slot k := fun k => s.slot_congr t h.emsSlot k
    have hmode : t.emsMode = s.emsMode := h.rest.emsMode
    have hhas : t.hasRgn (.ems i) := by
      have := h.shape.2.2
      simp only [State.hasRgn]
      omega
    have hold : t.rgnAt (.ems i) = s.rgnAt (.ems i) := h.others _ (by intro w hw he; simp at he; omega)
    have hrg : ∀ id, (t.emsApply i).rgnAt id = if id = .ems i then t.appliedSlot i else t.rgnAt id :=
      fun id => t.rgnAt_emsApply i id hhas
    have hgc := t.genCtr_emsApply i hhas
    rw [hmode, hslot] at hgc
    have happ : t.appliedSlot i = { s.appliedSlot i with gen := (t.appliedSlot i).gen } := by
      unfold State.appliedSlot State.slotRegion
      rw [hold, hmode, hslot, h.rest.plat]
    have hgen : (t.appliedSlot i).gen =
        if s.emsMode && (s.slot i).enabled then t.genCtr + 1 else (s.rgnAt (.ems i)).gen := by
      unfold State.appliedSlot
      rw [hold, hmode, hslot]
    have hle := h.genCtr
    have hle' : t.genCtr ≤ (t.emsApply i).genCtr := by rw [hgc]; split <;> omega
    have hsame : ∀ k, k < i → (t.emsApply i).rgnAt (.ems k) = t.rgnAt (.ems k) := by
      intro k hk
      rw [hrg, if_neg (by simp; omega)]
    refine ⟨h.rest.trans (t.sameRest_emsApply i), ?_, ?_, ?_, ?_, by omega, ?_, ?_, ?_, ?_, ?_, ?_⟩
    · rw [State.emsApply_smw, h.smw]
    · rw [State.emsApply_emsSlot, h.emsSlot]
    · simpa using h.policies
    · have := h.shape
      simpa [State.sameShape] using this
    · intro k hk
      by_cases hki : k = i
      · subst hki
        rw [hrg, if_pos rfl]
        exact happ
      · rw [hsame k (by omega)]
        exact h.applied k (by omega)
    · intro k hk hon
      by_cases hki : k = i
      · subst hki
        rw [hrg, if_pos rfl, hgen, hgc, if_pos hon, if_pos hon]
        omega
      · rw [hsame k (by omega)]
        have := h.fresh k (by omega) hon
        omega
    · intro k hk hoff
      by_cases hki : k = i
      · subst hki
        rw [hrg, if_pos rfl, hgen, hoff]
        simp
      · rw [hsame k (by omega)]
        exact h.kept k (by omega) hoff
    · intro j k hjk hk hj hkon
      rw [hsame j (by omega)]
      by_cases hki : k = i
      · subst hki
        rw [hrg, if_pos rfl, hgen, if_pos hkon]
        have := h.fresh j hjk hj
        omega
      · rw [hsame k (by omega)]
        exact h.order j k hjk (by omega) hj hkon
    · rw [hgc, countP_range_succ, h.count]
      split <;> rfl
    · intro id hid
      rw [hrg, if_neg (hid i (by omega))]
      exact h.others id (fun k hk => hid k (by omega))

/-! ### ShadowRecalc (R154) -/

/-- The state after the windows below n have been written. -/
structure WrittenBelow (s t : State) (n : Nat) : Prop where
  frame : t = { s with rpol := t.rpol, wpol := t.wpol }
  written : ∀ i w kind g, i < n → s.plat.shadow.win[i]? = some w → granuleIn s.plat w.base w.size g →
    (∀ j v, i < j → j < n → s.plat.shadow.win[j]? = some v → ¬ granuleIn s.plat v.base v.size g) →
    t.policyAt kind g = pairAt (windowPair s.plat.shadow s.sreg i w) kind
  untouched : ∀ kind g, (∀ i w, i < n → s.plat.shadow.win[i]? = some w → ¬ granuleIn s.plat w.base w.size g) →
    t.policyAt kind g = s.policyAt kind g

theorem writtenBelow_forRange (n : Nat) : WrittenBelow s (forRange n State.refreshWindow s) n := by
  refine forRange_induction (fun i t => WrittenBelow s t i) n _ s ?_ ?_
  · exact ⟨rfl, by omega, fun _ _ _ => rfl⟩
  · intro i t _ h
    have hplat : t.plat = s.plat := by rw [h.frame]
    have hsreg : t.sreg = s.sreg := by rw [h.frame]
    unfold State.refreshWindow
    rw [hplat, hsreg]
    cases hw : s.plat.shadow.win[i]? with
    | none =>
      simp only
      have hne : ∀ j w, j < i + 1 → s.plat.shadow.win[j]? = some w → j < i := by
        intro j w hj hjw
        have : j ≠ i := fun e => by rw [e, hw] at hjw; cases hjw
        omega
      exact ⟨h.frame,
        fun j w kind g hj hjw hg hlast => h.written j w kind g (hne j w hj hjw) hjw hg
          (fun k v hjk hk hkv => hlast k v hjk (by omega) hkv),
        fun kind g hg => h.untouched kind g (fun j w hj hjw => hg j w (by omega) hjw)⟩
    | some w =>
      simp only
      have hpol : ∀ kind g, (t.policyFill w.base w.size (windowPair s.plat.shadow s.sreg i w)).policyAt kind g =
          if granuleIn s.plat w.base w.size g then pairAt (windowPair s.plat.shadow s.sreg i w) kind
          else t.policyAt kind g := fun kind g => by rw [State.policyAt_policyFill, hplat]
      refine ⟨?_, ?_, ?_⟩
      · conv_lhs => rw [h.frame]
        simp only [State.policyFill]
        rw [hplat]
      · intro j v kind g hj hjv hg hlast
        rw [hpol]
        by_cases hji : j = i
        · subst hji
          rw [hw] at hjv
          cases hjv
          rw [if_pos hg]
        · rw [if_neg (hlast i w (by omega) (by omega) hw)]
          exact h.written j v kind g (by omega) hjv hg (fun k u hjk hk hku => hlast k u hjk (by omega) hku)
      · intro kind g hg
        rw [hpol, if_neg (hg i w (by omega) hw)]
        exact h.untouched kind g (fun j v hj hjv => hg j v (by omega) hjv)

end Sys2Proof.Machine
end

