-- ==== Sys2Proof/Laws/Encoding.lean ====
section
/-! SUPPORT. The laws of the header: its slices, the slices of each B field, and the field codes both ways. -/

namespace Sys2Proof

@[simp] theorem opField_header (o : Op) (a b : Byte) : opField (header o a b) = o.code := by
  unfold opField header
  ext i hi
  simp only [BitVec.getElem_extractLsb', BitVec.getLsbD_append, Nat.zero_add]
  simp [hi, BitVec.getLsbD_eq_getElem]

@[simp] theorem aField_header (o : Op) (a b : Byte) : aField (header o a b) = a := by
  unfold aField header
  ext i hi
  simp only [BitVec.getElem_extractLsb', BitVec.getLsbD_append]
  simp [hi, BitVec.getLsbD_eq_getElem]

@[simp] theorem bField_header (o : Op) (a b : Byte) : bField (header o a b) = b := by
  unfold bField header
  ext i hi
  simp only [BitVec.getElem_extractLsb', BitVec.getLsbD_append]
  rw [if_neg (by omega), if_neg (by omega), if_pos (by omega), show 16 + i - 8 - 8 = i by omega]
  exact BitVec.getLsbD_eq_getElem hi

/-- A header word is its four fields, the highest first (R91). -/
theorem header_split (h : Word) : (h.extractLsb' 24 8 ++ bField h ++ aField h ++ opField h : BitVec 32) = h := by
  unfold opField aField bField
  ext i hi
  simp only [BitVec.getElem_append, BitVec.getElem_extractLsb']
  split
  · simp [BitVec.getLsbD_eq_getElem, hi]
  · split
    · rw [show 8 + (i - 8) = i by omega]; simp [BitVec.getLsbD_eq_getElem, hi]
    · split
      · rw [show 16 + (i - 8 - 8) = i by omega]; simp [BitVec.getLsbD_eq_getElem, hi]
      · rw [show 24 + (i - 8 - 8 - 8) = i by omega]; simp [BitVec.getLsbD_eq_getElem, hi]

/-- The header with RSV = 0 is its three fields (R91). -/
theorem header_fields (o : Op) (h : Word) (hop : opField h = o.code) (hr : h.extractLsb' 24 8 = 0) :
    header o (aField h) (bField h) = h := by
  unfold header
  rw [← hop, show (0#8) = h.extractLsb' 24 8 from hr.symm]
  exact header_split h

theorem append_eq_append {m n : Nat} (x x' : BitVec m) (y y' : BitVec n) :
    x ++ y = x' ++ y' ↔ x = x' ∧ y = y' := by
  constructor
  · intro h
    constructor
    · ext i hi
      have := congrArg (fun v : BitVec (m + n) => v.getLsbD (n + i)) h
      simp only [BitVec.getLsbD_append] at this
      simpa [BitVec.getLsbD_eq_getElem, hi] using this
    · ext i hi
      have := congrArg (fun v : BitVec (m + n) => v.getLsbD i) h
      simp only [BitVec.getLsbD_append, hi, if_true] at this
      simpa [BitVec.getLsbD_eq_getElem, hi] using this
  · rintro ⟨rfl, rfl⟩; rfl

/-- The bits of A that an opcode does not use. -/
def Op.aMask (o : Op) : Byte := aField o.mask

/-- The bits of B that an opcode does not define. -/
def Op.bMask (o : Op) : Byte := bField o.mask

/-- What the match of R97 says of a header: the opcode, and zero in every bit the opcode does not use (R98 item 3). -/
theorem matches_iff (o : Op) (h : Word) :
    h &&& o.mask = o.pattern ↔
      opField h = o.code ∧ aField h &&& o.aMask = 0 ∧ bField h &&& o.bMask = 0 ∧ h.extractLsb' 24 8 = 0 := by
  have hm : o.mask = (0xFF#8 ++ o.bMask ++ o.aMask ++ 0xFF#8 : BitVec 32) := by cases o <;> decide
  have hp : o.pattern = (0#8 ++ 0#8 ++ 0#8 ++ o.code : BitVec 32) := by cases o <;> decide
  have h255 : ∀ x : BitVec 8, x &&& 0xFF#8 = x := fun x => by
    rw [show 0xFF#8 = BitVec.allOnes 8 from rfl, BitVec.and_allOnes]
  rw [hm, hp]
  conv_lhs => lhs; rw [← header_split h]
  rw [BitVec.and_append, BitVec.and_append, BitVec.and_append, append_eq_append, append_eq_append, append_eq_append,
    h255, h255]
  constructor
  · rintro ⟨⟨⟨h1, h2⟩, h3⟩, h4⟩; exact ⟨h4, h3, h2, h1⟩
  · rintro ⟨h4, h3, h2, h1⟩; exact ⟨⟨⟨h1, h2⟩, h3⟩, h4⟩

theorem header_matches (o : Op) (a b : Byte) :
    header o a b &&& o.mask = o.pattern ↔ a &&& o.aMask = 0 ∧ b &&& o.bMask = 0 := by
  have h0 : (header o a b).extractLsb' 24 8 = 0 := by
    unfold header
    ext i hi
    simp only [BitVec.getElem_extractLsb', BitVec.getLsbD_append]
    rw [if_neg (by omega), if_neg (by omega), if_neg (by omega)]
    simp
  rw [matches_iff]
  simp [h0]

/-- The code of an opcode finds the opcode. -/
@[simp] theorem Op.ofCode_code (o : Op) : Op.ofCode o.code = some o := by cases o <;> decide

/-- An opcode found by a code has that code. -/
theorem Op.code_of_ofCode (c : Byte) (o : Op) (h : Op.ofCode c = some o) : o.code = c := by
  have := List.find?_some h
  simpa using this

@[simp] theorem Policy.ofCode_code (p : Policy) : Policy.ofCode p.code = p := by cases p <;> decide
@[simp] theorem RegionClass.ofCode_code (c : RegionClass) : RegionClass.ofCode c.code = .ok c := by cases c <;> decide
@[simp] theorem BackingCode.ofCode_code (b : BackingCode) : BackingCode.ofCode b.code = b := by cases b <;> decide
@[simp] theorem Agent.ofBit_bit (a : Agent) : Agent.ofBit a.bit = a := by cases a <;> decide
@[simp] theorem Kind.ofBit_bit (k : Kind) : Kind.ofBit k.bit = k := by cases k <;> decide

theorem Width.ofCode_code (hd : Bool) (n : Width) (h : n.supported hd = true) : Width.ofCode hd n.code = .ok n := by
  cases n <;> cases hd <;> first
    | rfl
    | simp [Width.supported] at h

@[simp] theorem Policy.code_ofCode (c : BitVec 2) : (Policy.ofCode c).code = c := by revert c; decide
@[simp] theorem BackingCode.code_ofCode (c : BitVec 2) : (BackingCode.ofCode c).code = c := by revert c; decide
@[simp] theorem Agent.bit_ofBit (b : Bool) : (Agent.ofBit b).bit = b := by cases b <;> decide
@[simp] theorem Kind.bit_ofBit (b : Bool) : (Kind.ofBit b).bit = b := by cases b <;> decide

theorem RegionClass.code_of_ofCode (c : BitVec 2) (r : RegionClass) (h : RegionClass.ofCode c = .ok r) : r.code = c := by
  unfold RegionClass.ofCode at h
  split at h
  · next e => cases h; exact e.symm
  · split at h
    · next e => cases h; exact e.symm
    · split at h
      · next e => cases h; exact e.symm
      · cases h

theorem Width.code_of_ofCode (hd : Bool) (c : BitVec 2) (n : Width) (h : Width.ofCode hd c = .ok n) :
    n.code = c ∧ n.supported hd = true := by
  unfold Width.ofCode at h
  split at h
  · next e => cases h; exact ⟨e.symm, rfl⟩
  · split at h
    · next e => cases h; exact ⟨e.symm, rfl⟩
    · split at h
      · next e =>
        split at h
        · next hd' => cases h; exact ⟨e.symm, hd'⟩
        · cases h
      · cases h

end Sys2Proof
end

