-- ==== Sys2Proof/Laws/Operands.lean ====
section
/-! SUPPORT. The validity predicates as the formulas the spec writes (40_region.md R110, 41_policy_access.md R130). -/

namespace Sys2Proof.Machine

theorem validRange_iff (p : Platform) (base size : Nat) :
    validRange p base size = true ↔
      0 < size ∧ base % p.regionAlign = 0 ∧ size % p.regionAlign = 0 ∧ base + size ≤ 2 ^ p.addrBits := by
  simp [validRange, and_assoc]

theorem validBacking_iff (p : Platform) (bk : BackingCode) (wB : Word) :
    validBacking p bk wB = true ↔ (bk = .smram → 0 < p.smramSize) ∧ (bk = .hooks → wB.toNat < p.nHooks) := by
  cases bk <;> simp [validBacking]

theorem granuleRange_iff (p : Platform) (base size : Nat) :
    granuleRange p base size = true ↔
      size ≠ 0 ∧ base % p.granule = 0 ∧ size % p.granule = 0 ∧ base + size ≤ 2 ^ p.addrBits := by
  simp [granuleRange, and_assoc]

end Sys2Proof.Machine
end

