-- ==== Sys2Proof/Laws/Partitions.lean ====
section
/-! SUPPORT. Which partition of the Region table an operation leaves as it is (10_state.md R23, R42): a Region operation
touches the partition of its id alone, and a controller its own. -/

namespace Sys2Proof.Machine

variable (s : State)

@[simp] theorem State.setRgn_gen_smr (i : Nat) (r : Region) : (s.setRgn (.gen i) r).rgn.smr = s.rgn.smr := rfl
@[simp] theorem State.setRgn_gen_ems (i : Nat) (r : Region) : (s.setRgn (.gen i) r).rgn.ems = s.rgn.ems := rfl
@[simp] theorem State.setRgn_smr_gen (w : Nat) (r : Region) : (s.setRgn (.smr w) r).rgn.gen = s.rgn.gen := rfl
@[simp] theorem State.setRgn_smr_ems (w : Nat) (r : Region) : (s.setRgn (.smr w) r).rgn.ems = s.rgn.ems := rfl
@[simp] theorem State.setRgn_ems_gen (k : Nat) (r : Region) : (s.setRgn (.ems k) r).rgn.gen = s.rgn.gen := rfl
@[simp] theorem State.setRgn_ems_smr (k : Nat) (r : Region) : (s.setRgn (.ems k) r).rgn.smr = s.rgn.smr := rfl

@[simp] theorem State.disableRgn_gen_smr (i : Nat) : (s.disableRgn (.gen i)).rgn.smr = s.rgn.smr := rfl
@[simp] theorem State.disableRgn_gen_ems (i : Nat) : (s.disableRgn (.gen i)).rgn.ems = s.rgn.ems := rfl
@[simp] theorem State.disableRgn_smr_gen (w : Nat) : (s.disableRgn (.smr w)).rgn.gen = s.rgn.gen := rfl
@[simp] theorem State.disableRgn_smr_ems (w : Nat) : (s.disableRgn (.smr w)).rgn.ems = s.rgn.ems := rfl

@[simp] theorem State.enableRgn_gen_smr (i : Nat) : (s.enableRgn (.gen i)).rgn.smr = s.rgn.smr := by
  unfold State.enableRgn; split <;> rfl
@[simp] theorem State.enableRgn_gen_ems (i : Nat) : (s.enableRgn (.gen i)).rgn.ems = s.rgn.ems := by
  unfold State.enableRgn; split <;> rfl
@[simp] theorem State.enableRgn_smr_gen (w : Nat) : (s.enableRgn (.smr w)).rgn.gen = s.rgn.gen := by
  unfold State.enableRgn; split <;> rfl
@[simp] theorem State.enableRgn_smr_ems (w : Nat) : (s.enableRgn (.smr w)).rgn.ems = s.rgn.ems := by
  unfold State.enableRgn; split <;> rfl
@[simp] theorem State.enableRgn_ems_gen (k : Nat) : (s.enableRgn (.ems k)).rgn.gen = s.rgn.gen := by
  unfold State.enableRgn; split <;> rfl
@[simp] theorem State.enableRgn_ems_smr (k : Nat) : (s.enableRgn (.ems k)).rgn.smr = s.rgn.smr := by
  unfold State.enableRgn; split <;> rfl

/-- SmrApply touches the SMRAM partition alone (R181). -/
theorem State.smrApply_partitions (w : Nat) :
    (s.smrApply w).rgn.gen = s.rgn.gen ∧ (s.smrApply w).rgn.ems = s.rgn.ems := by
  unfold State.smrApply
  rw [State.fillWindow_rgn]
  unfold State.showWindow State.placeWindow
  split <;> simp

/-- EmsApply touches the EMS partition alone (R200). -/
theorem State.emsApply_partitions (k : Nat) :
    (s.emsApply k).rgn.gen = s.rgn.gen ∧ (s.emsApply k).rgn.smr = s.rgn.smr := by
  unfold State.emsApply
  split <;> simp

/-- A pass of SMRAM_SET_SMM touches the SMRAM partition alone and keeps the windows' registers (R184). -/
theorem State.refreshSmram_partitions (w : Nat) :
    (s.refreshSmram w).rgn.gen = s.rgn.gen ∧ (s.refreshSmram w).rgn.ems = s.rgn.ems
      ∧ (s.refreshSmram w).smw = s.smw ∧ (s.refreshSmram w).emsSlot = s.emsSlot := by
  unfold State.refreshSmram
  split
  · exact ⟨(s.smrApply_partitions w).1, (s.smrApply_partitions w).2, s.smrApply_smw w, s.smrApply_emsSlot w⟩
  · exact ⟨rfl, rfl, rfl, rfl⟩

/-- A pass of SMRAM_DISABLE_ALL touches the SMRAM partition and its window's registers alone (R182). -/
theorem State.hideWindow_partitions (w : Nat) :
    (s.hideWindow w).rgn.gen = s.rgn.gen ∧ (s.hideWindow w).rgn.ems = s.rgn.ems
      ∧ (s.hideWindow w).emsSlot = s.emsSlot ∧ (s.hideWindow w).genCtr = s.genCtr
      ∧ (s.hideWindow w).rpol = s.rpol ∧ (s.hideWindow w).wpol = s.wpol := ⟨rfl, rfl, rfl, rfl, rfl, rfl⟩

/-- A loop keeps a part of the state that each pass keeps. -/
theorem forRange_keeps {α : Type} (part : State → α) (n : Nat) (f : Nat → State → State)
    (h : ∀ i t, part (f i t) = part t) : part (forRange n f s) = part s :=
  forRange_induction (fun _ t => part t = part s) n f s rfl (fun i t _ ht => (h i t).trans ht)

end Sys2Proof.Machine
end

