-- ==== Sys2Proof/Laws/PerInstr.lean ====
section
/-! SUPPORT. One lemma for each command: the shape of its packet (30_encoding.md R90, R91, R97). -/

namespace Sys2Proof.Laws

open Sys2Proof.Machine

/-- The packet of a command: a header with the opcode of its row, zero in every bit the row reserves, and as many argument
words as the row has (R91, R97). -/
def PacketShape.Statement (i : Instr) : Prop :=
  ∃ h args, encode i = h :: args ∧ opField h = (opOf i).code ∧ h &&& (opOf i).mask = (opOf i).pattern
    ∧ args.length = (opOf i).argWords

/-- A byte that a row leaves free has no reserved bit. -/
theorem free_byte (a m : Byte) (h : m = 0) : a &&& m = 0 := by
  subst h; exact BitVec.and_zero

/-- A header whose A and B leave the reserved bits 0 has the shape of its row. -/
theorem packetShape_of (o : Op) (a b : Byte) (args : List Word) (hl : args.length = o.argWords) (ha : a &&& o.aMask = 0)
    (hb : b &&& o.bMask = 0) :
    ∃ h args', header o a b :: args = h :: args' ∧ opField h = o.code ∧ h &&& o.mask = o.pattern
      ∧ args'.length = o.argWords :=
  ⟨_, _, rfl, opField_header o a b, (header_matches o a b).2 ⟨ha, hb⟩, hl⟩

theorem PacketShape.register (en : Bool) (cls : RegionClass) (bk : BackingCode) (dw : Bool) (base size wB : Word) :
    PacketShape.Statement (.register en cls bk dw base size wB) :=
  packetShape_of _ _ _ _ rfl (by decide)
    (by cases en <;> cases cls <;> cases bk <;> cases dw <;> decide)

theorem PacketShape.enable (h : Byte) : PacketShape.Statement (.enable h) :=
  packetShape_of _ _ _ _ rfl (free_byte _ _ (by decide))
    (by decide)

theorem PacketShape.disable (h : Byte) : PacketShape.Statement (.disable h) :=
  packetShape_of _ _ _ _ rfl (free_byte _ _ (by decide))
    (by decide)

theorem PacketShape.setBase (h : Byte) (base : Word) : PacketShape.Statement (.setBase h base) :=
  packetShape_of _ _ _ _ rfl (free_byte _ _ (by decide))
    (by decide)

theorem PacketShape.setBacking (h : Byte) (bk : BackingCode) (dw : Bool) (wB : Word) : PacketShape.Statement (.setBacking h bk dw wB) :=
  packetShape_of _ _ _ _ rfl (free_byte _ _ (by decide))
    (by cases bk <;> cases dw <;> decide)

theorem PacketShape.setPolicy (rp wp : Policy) (base size : Word) : PacketShape.Statement (.setPolicy rp wp base size) :=
  packetShape_of _ _ _ _ rfl (by decide)
    (by cases rp <;> cases wp <;> decide)

theorem PacketShape.getPolicy (addr : Word) : PacketShape.Statement (.getPolicy addr) :=
  packetShape_of _ _ _ _ rfl (by decide)
    (by decide)

theorem PacketShape.decode (n : Width) (kind : Kind) (ag : Agent) (addr : Word) : PacketShape.Statement (.decode n kind ag addr) :=
  packetShape_of _ _ _ _ rfl (by decide)
    (by cases n <;> cases kind <;> cases ag <;> decide)

theorem PacketShape.read (n : Width) (ag : Agent) (fetch : Bool) (addr : Word) : PacketShape.Statement (.read n ag fetch addr) :=
  packetShape_of _ _ _ _ rfl (by decide)
    (by cases n <;> cases ag <;> cases fetch <;> decide)

theorem PacketShape.write (n : Width) (ag : Agent) (addr data : Word) : PacketShape.Statement (.write n ag addr data) :=
  packetShape_of _ _ _ _ rfl (by decide)
    (by cases n <;> cases ag <;> decide)

theorem PacketShape.shadowWrite (reg value : Byte) : PacketShape.Statement (.shadowWrite reg value) :=
  packetShape_of _ _ _ _ rfl (free_byte _ _ (by decide))
    (free_byte _ _ (by decide))

theorem PacketShape.shadowRead (reg : Byte) : PacketShape.Statement (.shadowRead reg) :=
  packetShape_of _ _ _ _ rfl (free_byte _ _ (by decide))
    (by decide)

theorem PacketShape.shadowRecalc : PacketShape.Statement .shadowRecalc :=
  packetShape_of _ _ _ _ rfl (by decide)
    (by decide)

theorem PacketShape.a20Set (src : Byte) (v : Bool) : PacketShape.Statement (.a20Set src v) :=
  packetShape_of _ _ _ _ rfl (free_byte _ _ (by decide))
    (by cases v <;> decide)

theorem PacketShape.a20Get : PacketShape.Statement .a20Get :=
  packetShape_of _ _ _ _ rfl (by decide)
    (by decide)

theorem PacketShape.smramDisableAll : PacketShape.Statement .smramDisableAll :=
  packetShape_of _ _ _ _ rfl (by decide)
    (by decide)

theorem PacketShape.smramEnable (w : Byte) (ar aw sep : Bool) (host visible size : Word) :
    PacketShape.Statement (.smramEnable w ar aw sep host visible size) :=
  packetShape_of _ _ _ _ rfl (free_byte _ _ (by decide))
    (by cases ar <;> cases aw <;> cases sep <;> decide)

theorem PacketShape.smramSetSmm (smm : Bool) : PacketShape.Statement (.smramSetSmm smm) :=
  packetShape_of _ _ _ _ rfl (by decide)
    (by cases smm <;> decide)

theorem PacketShape.emsSetSlot (slot : Byte) (en : Bool) (page : Word) : PacketShape.Statement (.emsSetSlot slot en page) :=
  packetShape_of _ _ _ _ rfl (free_byte _ _ (by decide))
    (by cases en <;> decide)

theorem PacketShape.emsSetMode (on : Bool) : PacketShape.Statement (.emsSetMode on) :=
  packetShape_of _ _ _ _ rfl (by decide)
    (by cases on <;> decide)

theorem PacketShape.invalidate : PacketShape.Statement .invalidate :=
  packetShape_of _ _ _ _ rfl (by decide)
    (by decide)

theorem PacketShape.reset : PacketShape.Statement .reset :=
  packetShape_of _ _ _ _ rfl (by decide)
    (by decide)

end Sys2Proof.Laws
end

