-- ==== Sys2Proof/Laws/Tables.lean ====
section
/-! SUPPORT. When two policy tables are equal data, and what a fill keeps of the canonical form (10_state.md R29, R30). -/

namespace Sys2Proof.Machine

theorem PolicyTable.getFrom_past (d : Policy) (t : PolicyTable) (n g g' : Nat) (h : ∀ c ∈ t, c.1 ≤ n) (hg : n ≤ g)
    (hg' : n ≤ g') : PolicyTable.getFrom d t g = PolicyTable.getFrom d t g' := by
  induction t generalizing d with
  | nil => rfl
  | cons c t ih =>
    have h1 : c.1 ≤ n := h c (by simp)
    obtain ⟨k, v⟩ := c
    simp only [PolicyTable.getFrom_cons, if_pos (show k ≤ g by omega), if_pos (show k ≤ g' by omega)]
    exact ih v (fun c hc => h c (by simp [hc]))

/-- Past its last granule a table has one value. -/
theorem PolicyTable.get_past (t : PolicyTable) (n g : Nat) (h : PolicyTable.wf t n = true) (hg : n ≤ g) :
    PolicyTable.get t g = PolicyTable.get t n := by
  simp only [PolicyTable.wf, Bool.and_eq_true, List.all_eq_true, decide_eq_true_eq] at h
  exact PolicyTable.getFrom_past _ _ n _ _ h.2 hg (Nat.le_refl n)

/-- Tables that agree past the last granule are equal exactly when every entry is. -/
theorem PolicyTable.eq_iff_entries (t u : PolicyTable) (n : Nat) (ht : PolicyTable.wf t n = true)
    (hu : PolicyTable.wf u n = true) (hn : PolicyTable.get t n = PolicyTable.get u n) :
    t = u ↔ ∀ g, g < n → PolicyTable.get t g = PolicyTable.get u g := by
  constructor
  · rintro rfl _ _; rfl
  · intro h
    refine PolicyTable.eq_of_get t u n n ht hu (fun g => ?_)
    by_cases hg : g < n
    · exact h g hg
    · rw [PolicyTable.get_past t n g ht (by omega), PolicyTable.get_past u n g hu (by omega), hn]

/-- The tables of t are canonical for the platform of s and agree with those of s past the last granule. -/
def State.tablesFit (s t : State) : Prop :=
  PolicyTable.wf t.rpol s.plat.numGranules = true ∧ PolicyTable.wf t.wpol s.plat.numGranules = true
    ∧ PolicyTable.get t.rpol s.plat.numGranules = PolicyTable.get s.rpol s.plat.numGranules
    ∧ PolicyTable.get t.wpol s.plat.numGranules = PolicyTable.get s.wpol s.plat.numGranules

theorem State.tablesFit_refl (s : State) (h : s.Inv) : s.tablesFit s := ⟨h.policies.1, h.policies.2.1, rfl, rfl⟩

/-- A fill inside the address space keeps that. -/
theorem State.tablesFit_policyFill (s t : State) (h : s.tablesFit t) (hp : t.plat = s.plat) (base size : Nat)
    (pair : PolicyPair) (hb : base + size ≤ 2 ^ s.plat.addrBits) : s.tablesFit (t.policyFill base size pair) := by
  have hle : (base + size) / s.plat.granule ≤ s.plat.numGranules := Nat.div_le_div_right hb
  unfold State.tablesFit at *
  simp only [State.policyFill_rpol, State.policyFill_wpol, hp]
  refine ⟨PolicyTable.wf_fill _ _ _ _ _ h.1 hle, PolicyTable.wf_fill _ _ _ _ _ h.2.1 hle, ?_, ?_⟩
  · rw [PolicyTable.get_fill, if_neg (by omega), h.2.2.1]
  · rw [PolicyTable.get_fill, if_neg (by omega), h.2.2.2]

/-- Some entry differs exactly when the data do. -/
theorem State.policyDiffers_iff (s t : State) (h0 : s.tablesFit s) (h : s.tablesFit t) :
    s.policyDiffers t ↔ s.rpol ≠ t.rpol ∨ s.wpol ≠ t.wpol := by
  have e1 := PolicyTable.eq_iff_entries t.rpol s.rpol _ h.1 h0.1 h.2.2.1
  have e2 := PolicyTable.eq_iff_entries t.wpol s.wpol _ h.2.1 h0.2.1 h.2.2.2
  rw [ne_comm, ne_comm (a := s.wpol), ne_eq, ne_eq, e1, e2]
  unfold State.policyDiffers
  constructor
  · rintro ⟨k, g, hg, h⟩
    cases k
    · exact .inl (fun hh => h (hh g hg))
    · exact .inr (fun hh => h (hh g hg))
  · rintro (h | h)
    · simp only [not_forall] at h
      obtain ⟨g, hg, h⟩ := h
      exact ⟨.read, g, hg, h⟩
    · simp only [not_forall] at h
      obtain ⟨g, hg, h⟩ := h
      exact ⟨.write, g, hg, h⟩

/-- The windows of a legal description end inside the address space (42_shadow.md R151). -/
theorem Platform.window_end_le (p : Platform) (hp : p.wf = true) (i : Nat) (w : ShadowWindow)
    (hw : p.shadow.win[i]? = some w) : w.base + w.size ≤ 2 ^ p.addrBits := by
  have hs : p.shadowWf = true := by simp [Platform.wf] at hp; exact hp.1.2
  simp only [Platform.shadowWf, Bool.and_eq_true, List.all_eq_true] at hs
  have hv := hs.1.1.2 w (List.mem_of_getElem? hw)
  simp only [ShadowWindow.wf, Bool.and_eq_true, decide_eq_true_eq] at hv
  exact hv.1.1.2

end Sys2Proof.Machine
end

