-- ==== Sys2Proof/Tests/Slice0.lean ====
section
/-! SUPPORT. Small tests. Each expected value comes from 95_test_vectors.md (named by its section) or from the rule named,
by hand. Then a witness for each obligation that has hypotheses. -/

namespace Sys2Proof.Tests

open Sys2Proof.Machine

/-! ## Well-formedness: each check refuses an ill-formed term -/

theorem test_wf_dw_needs_hooks : Instr.wf true (.register true .internal .ram true 0 0x1000 0) = false := by decide
theorem test_wf_set_backing_dw : Instr.wf true (.setBacking 1 .smram true 0) = false := by decide
theorem test_wf_bus_fetch : Instr.wf true (.read .byte .bus true 0x10) = false := by decide
theorem test_wf_dword_unsupported : Instr.wf false (.decode .dword .read .cpu 0) = false := by decide
theorem test_wf_write_dword_unsupported : Instr.wf false (.write .dword .cpu 0 0) = false := by decide
theorem test_wf_vp : Platform.wf Config.vp = true := by decide
theorem test_wf_addr_bits : Platform.spaceWf { Config.vp with addrBits := 20 } = false := by decide
theorem test_wf_granule : Platform.spaceWf { Config.vp with granule := 0x1800 } = false := by decide
theorem test_wf_region_align : Platform.spaceWf { Config.vp with regionAlign := 0 } = false := by decide
theorem test_wf_regions : Platform.sizesWf { Config.vp with nRegions := 257 } = false := by decide
theorem test_wf_ram_init : Platform.sizesWf { Config.vp with ramInit := [(0x1000000, 1)] } = false := by decide
theorem test_wf_ems_page : Platform.emsWf { Config.vp with emsPageSize := 0x2000 } = false := by decide
theorem test_wf_ems_vbase : Platform.emsWf { Config.vp with emsVbase := [0xD0000, 0xD4000, 0xD8001, 0xDC000] } = false := by
  decide
theorem test_wf_sel_reg : Sel.wf 3 ⟨3, 0, false⟩ = false := by decide
theorem test_wf_sel_bit : Sel.wf 3 ⟨0, 8, false⟩ = false := by decide
theorem test_wf_window_edge : ShadowWindow.wf Config.vp ⟨0xC2000, 0x4000, ⟨0, 0, false⟩, ⟨1, 0, false⟩⟩ = false := by decide
theorem test_wf_windows_overlap :
    ShadowWindow.allApart [⟨0xC0000, 0x8000, ⟨0, 0, false⟩, ⟨1, 0, false⟩⟩, ⟨0xC4000, 0x4000, ⟨0, 1, false⟩, ⟨1, 1, false⟩⟩]
      = false := by decide
theorem test_wf_glob_window : Platform.shadowWf { Config.vp with
    shadow := { Config.ex1 with glob := [⟨⟨2, 7, false⟩, true, [10], ⟨.internal, .internal⟩⟩] } } = false := by decide
theorem test_wf_reset_policy : Platform.resetPolicyWf { Config.vp with resetRead := [(4, .disabled), (4, .external)] } = false := by
  decide
theorem test_ill_formed_platform_is_refused :
    State.instantiate { Config.vp with addrBits := 33 } = .refused .illFormedPlatform := by
  have h : Platform.wf { Config.vp with addrBits := 33 } = false := by decide
  simp [State.instantiate, h]

/-! ## Decoding: the words of 95_test_vectors.md -/

theorem test_decode_register :
    decode true [0x000B0001, 0xF0000, 0x10000, 0] = .ok (.register true .external .rom false 0xF0000 0x10000 0) := by decide
theorem test_decode_enable : decode true [0x00000102] = .ok (.enable 1) := by decide
theorem test_decode_disable : decode true [0x00000703] = .ok (.disable 7) := by decide
theorem test_decode_set_base : decode true [0x00000204, 0x30000] = .ok (.setBase 2 0x30000) := by decide
theorem test_decode_set_backing : decode true [0x00380205, 0] = .ok (.setBacking 2 .hooks true 0) := by decide
theorem test_decode_set_policy :
    decode true [0x000E0006, 0xF0000, 0x10000] = .ok (.setPolicy .externalAny .disabled 0xF0000 0x10000) := by decide
theorem test_decode_get_policy : decode true [0x00000007, 0xF0010] = .ok (.getPolicy 0xF0010) := by decide
theorem test_decode_decode : decode true [0x00040008, 0xF0010] = .ok (.decode .byte .write .cpu 0xF0010) := by decide
theorem test_decode_read : decode true [0x00100009, 0xFFFF0] = .ok (.read .byte .cpu true 0xFFFF0) := by decide
theorem test_decode_write : decode true [0x0002000A, 0x20, 0x11223344] = .ok (.write .dword .cpu 0x20 0x11223344) := by decide
theorem test_decode_shadow_write : decode true [0x00080210] = .ok (.shadowWrite 2 0x08) := by decide
theorem test_decode_shadow_read : decode true [0x00000211] = .ok (.shadowRead 2) := by decide
theorem test_decode_shadow_recalc : decode true [0x00000012] = .ok .shadowRecalc := by decide
theorem test_decode_a20_set : decode true [0x00010220] = .ok (.a20Set 2 true) := by decide
theorem test_decode_a20_get : decode true [0x00000021] = .ok .a20Get := by decide
theorem test_decode_smram_disable_all : decode true [0x00000030] = .ok .smramDisableAll := by decide
theorem test_decode_smram_enable :
    decode true [0x00000131, 0x60000, 0xA0000, 0x20000]
      = .ok (.smramEnable 1 false false false 0x60000 0xA0000 0x20000) := by decide
theorem test_decode_smram_set_smm : decode true [0x00010032] = .ok (.smramSetSmm true) := by decide
theorem test_decode_ems_set_slot : decode true [0x00010240, 5] = .ok (.emsSetSlot 2 true 5) := by decide
theorem test_decode_ems_set_mode : decode true [0x00010041] = .ok (.emsSetMode true) := by decide
theorem test_decode_invalidate : decode true [0x00000050] = .ok .invalidate := by decide
theorem test_decode_reset : decode true [0x00000051] = .ok .reset := by decide

/-- The order of the flag bits of SMRAM_ENABLE: AR 0, AW 1, SEP 2 (R97). -/
theorem test_decode_smram_flags :
    decode true [0x00060031, 0, 0, 0] = .ok (.smramEnable 0 false true true 0 0 0) := by decide

/-! ### Illegal packets (95_test_vectors.md section 3.1, R98) -/

theorem test_illegal_opcode : decode true [0x0000000B] = .error .unknownOpcode := by decide
theorem test_illegal_reserved_byte : decode true [0x01000050] = .error .reservedBits := by decide
theorem test_illegal_unused_a : decode true [0x00000150] = .error .reservedBits := by decide
theorem test_illegal_undefined_b : decode true [0x00040009, 0x10] = .error .reservedBits := by decide
theorem test_illegal_too_long : decode true [0x00000050, 0] = .error .wrongLength := by decide
theorem test_illegal_too_short : decode true [0x00000009] = .error .wrongLength := by decide
theorem test_illegal_class : decode true [0x00070001, 0, 0x1000, 0] = .error .reservedClass := by decide
theorem test_illegal_width : decode true [0x00030008, 0x10] = .error .reservedWidth := by decide
theorem test_illegal_bus_fetch : decode true [0x00180009, 0x10] = .error .busFetch := by decide
theorem test_illegal_dw : decode true [0x00200105, 0] = .error .dwWithoutHooks := by decide
theorem test_illegal_dword : decode false [0x00020009, 0x10] = .error .dwordUnsupported := by decide

/-- A table word of SET_BASE with a zero argument word (R97). -/
theorem test_table_word : decodeTableWord 64 0x204 = some (.setBase 2 0) := by decide

/-! ## One step of each command -/

/-- The result record of an outcome. -/
def answer : Host.Outcome State Fault Refusal → Option Result
  | .next t => t.result
  | .fault _ => none
  | .refused _ => none

/-- A part of the next state of an outcome. -/
def after {α : Type} (f : State → α) : Host.Outcome State Fault Refusal → Option α
  | .next t => some (f t)
  | .fault _ => none
  | .refused _ => none

def ok (d : ResultData) : Option Result := some { status := .ok, data := d }
def err (e : Status) : Option Result := some { status := e, data := .none }

/-- Conventional memory at 0. -/
def lowRam : Region :=
  { valid := true, base := 0, size := 0xA0000, enabled := true, gen := 1, cls := .internal, backing := .direct .ram 0 }

/-- A video device without double-word hooks. -/
def video : Region :=
  { valid := true, base := 0xA0000, size := 0x20000, enabled := true, gen := 2, cls := .external, backing := .hooks 0 false }

/-- The ROM. -/
def bios : Region :=
  { valid := true, base := 0xF0000, size := 0x10000, enabled := true, gen := 3, cls := .external
    backing := .direct .rom 0 }

/-- A device with double-word hooks. -/
def device : Region :=
  { valid := true, base := 0x2000000, size := 0x1000, enabled := true, gen := 4, cls := .internal
    backing := .hooks 1 true }

/-- Shadow memory behind slot 0's window. -/
def behindSlot : Region :=
  { valid := true, base := 0xD0000, size := 0x4000, enabled := true, gen := 5, cls := .bypass
    backing := .direct .ram 0xD0000 }

/-- A registered Region that is disabled. -/
def spare : Region :=
  { valid := true, base := 0x800000, size := 0x1000, enabled := false, gen := 0, cls := .internal
    backing := .direct .ram 0x800000 }

/-- SMRAM window 0, visible for reads outside SMM. -/
def window0 : SmramWindow :=
  { active := true, host := 0x40000, visible := 0xC0000, size := 0x8000, allowR := true, allowW := false, sep := false }

def window0Region : Region :=
  { valid := true, base := 0xC0000, size := 0x8000, enabled := true, gen := 6, cls := .internal
    backing := .direct .ram 0x40000 }

/-- Slot 0 with page 5. -/
def slot0Region : Region :=
  { valid := true, base := 0xD0000, size := 0x4000, enabled := true, gen := 7, cls := .bypass
    backing := .direct .ram 0x114000 }

/-- The vector platform with some Regions, one window and one slot. -/
def mach : State :=
  { State.reset with
    rgn :=
      { gen := [lowRam, video, bios, device, behindSlot, spare] ++ List.replicate 10 Region.unregistered
        smr := [window0Region, Region.smramOwned]
        ems := slot0Region ::
          [Region.emsOwned Config.vp 0xD4000, Region.emsOwned Config.vp 0xD8000, Region.emsOwned Config.vp 0xDC000] }
    genCtr := 7
    sreg := [0, 0, 0x84]
    smw := [window0, SmramWindow.cleared]
    emsMode := true
    emsSlot := [{ enabled := true, page := 5 }, EmsSlot.cleared, EmsSlot.cleared, EmsSlot.cleared]
    ram := [(0x20, 0x44), (0x21, 0x33), (0x22, 0x22), (0x23, 0x11), (0x9FFFF, 0xCD), (0xA0000, 0xAB)] }

/-- Section 3.2 row 16: the lowest free handle. -/
theorem test_register_handle :
    answer (exec (.register true .internal .ram false 0x20000 0x10000 0x200000) mach) = ok (.handle 6) := by decide
/-- R111: the new Region's generation. -/
theorem test_register_gen :
    after (fun t => (t.rgnAt (.gen 6)).gen) (exec (.register true .internal .ram false 0x20000 0x10000 0x200000) mach)
      = some 8 := by decide
/-- Section 3.2 rows 9 and 10: enabling is idempotent. -/
theorem test_enable_stale : after State.stale (exec (.enable 5) mach) = some true := by decide
theorem test_enable_again : after (fun t => (t.genCtr, t.stale)) (exec (.enable 0) mach) = some (7, false) := by
  decide
/-- Section 3.2 row 15. -/
theorem test_disable_range : answer (exec (.disable 7) mach) = err .errRange := by decide
theorem test_disable : after (fun t => (t.rgnAt (.gen 2), t.stale)) (exec (.disable 2) mach)
    = some ({ bios with enabled := false }, true) := by decide
/-- Section 3.2 rows 20 and 41. -/
theorem test_set_base_past_end : answer (exec (.setBase 0 0xFFFF8000) mach) = err .errInvalid := by decide
theorem test_set_base_disabled : after (fun t => ((t.rgnAt (.gen 5)).base, t.stale)) (exec (.setBase 5 0x40000) mach)
    = some (0x40000, false) := by decide
/-- Section 3.2 rows 33 and 34. -/
theorem test_set_backing_hook : answer (exec (.setBacking 2 .hooks false 5) mach) = err .errInvalid := by decide
theorem test_set_backing : after (fun t => ((t.rgnAt (.gen 2)).backing, t.stale)) (exec (.setBacking 2 .rom false 0xFFF0) mach)
    = some (.direct .rom 0xFFF0, true) := by decide
/-- Section 3.3 rows 46 and 47. -/
theorem test_set_policy_past_end :
    answer (exec (.setPolicy .internal .internal 0xFFFFC000 0x8000) mach) = err .errInvalid := by decide
theorem test_set_policy_last : after (fun t => (t.policyAt .read 0x3FFFF, t.policyAt .read 0x3FFFE, t.stale))
    (exec (.setPolicy .disabled .disabled 0xFFFFC000 0x4000) mach) = some (.disabled, .internal, true) := by decide
/-- Section 3.3 rows 10 and 50. -/
theorem test_get_policy : answer (exec (.getPolicy 0xC0000) mach) = ok (.policies .external .disabled) := by decide
theorem test_get_policy_unmasked : answer (exec (.getPolicy 0x100000) mach) = ok (.policies .internal .internal) := by
  decide
/-- Section 3.3 rows 15 and 16. -/
theorem test_decode_bus_any :
    answer (exec (.decode .byte .read .bus 0xA0000) mach) = ok (.route (.hook (.gen 1) 0 0xA0000 0)) := by decide
theorem test_decode_bus_external :
    answer (exec (.decode .byte .read .bus 0xF0010) mach) = ok (.route (.fill .policyDisabled 0xF0010)) := by decide
/-- Section 3.3 rows 24 and 32, the latter at the end of the ROM. -/
theorem test_read_misaligned : answer (exec (.read .dword .cpu false 0x21) mach) = ok (.value 0x00112233) := by decide
theorem test_read_past_end : (fun o => (answer o, after State.events o)) (exec (.read .dword .cpu false 0xFFFFE) mach)
    = (ok (.value 0xFFFFFFFF), some [.oor .read .cpu 0xFFFFE .dword]) := by decide
/-- Section 3.3 rows 25 and 27. -/
theorem test_write_low_byte : after State.ram (exec (.write .byte .cpu 0x20 0x1FF) mach)
    = some [(0x20, 0xFF), (0x21, 0x33), (0x22, 0x22), (0x23, 0x11), (0x9FFFF, 0xCD), (0xA0000, 0xAB)] := by decide
theorem test_write_straddles : after (fun t => (t.arrRead .ram 0x9FFFF, t.arrRead .ram 0xA0000))
    (exec (.write .word .cpu 0x9FFFF 0x1234) mach) = some (0x34, 0x12) := by decide
/-- Section 1.2 row 9 (window 9 alone), and the rule of R152 that the global rule goes first (section 3.4). -/
theorem test_shadow_write : after (fun t => (t.policyAt .read 0x3C, t.policyAt .write 0x3C, t.invalCount))
    (exec (.shadowWrite 2 0x04) mach) = some (.internal, .disabled, 1) := by decide
theorem test_shadow_write_global : after (fun t => (t.policyAt .read 0x3C, t.policyAt .write 0x3C))
    (exec (.shadowWrite 2 0x8F) mach) = some (.external, .internal) := by decide
/-- The example of R156. -/
theorem test_shadow_read : answer (exec (.shadowRead 2) mach) = ok (.byteValue 0x84) := by decide
theorem test_shadow_read_range : answer (exec (.shadowRead 3) mach) = err .errRange := by decide
/-- R154: one invalidation. -/
theorem test_shadow_recalc : after (fun t => (t.events, t.stale)) (exec .shadowRecalc { mach with stale := true })
    = some ([.inval 1], false) := by decide
/-- Section 1.3 rows 4 and 9. -/
theorem test_a20_set_same : after State.invalCount (exec (.a20Set 0 false) mach) = some 0 := by decide
theorem test_a20_set : after (fun t => (t.effectiveA20, t.invalCount)) (exec (.a20Set 0 true) mach) = some (true, 1) := by
  decide
/-- Section 1.3 row 18. -/
theorem test_a20_get : answer (exec .a20Get { mach with a20Src := ⟨false, false, true⟩, effectiveA20 := true })
    = ok (.a20 true 0b100#3) := by decide
/-- R182. -/
theorem test_smram_disable_all : after (fun t => (t.rgnAt (.smr 0), t.window 0, t.stale)) (exec .smramDisableAll mach)
    = some ({ window0Region with enabled := false }, { window0 with active := false }, true) := by decide
/-- Section 1.4 row 5, with the window seen from inside SMM. -/
theorem test_smram_enable : after (fun t => ((t.rgnAt (.smr 1)).gen, t.policyAt .read 0x28, (t.rgnAt (.smr 1)).backing))
    (exec (.smramEnable 1 false false false 0x60000 0xA0000 0x20000) { mach with smm := true })
    = some (8, .internal, .direct .ram 0x60000) := by decide
theorem test_smram_enable_range :
    answer (exec (.smramEnable 2 false false false 0 0 0) mach) = err .errRange := by decide
/-- R184, R181: window 0 becomes writable too, keeps its generation, and one invalidation. -/
theorem test_smram_set_smm : after (fun t => ((t.rgnAt (.smr 0)).gen, t.policyAt .write 0x30, t.invalCount))
    (exec (.smramSetSmm true) mach) = some (6, .internal, 1) := by decide
/-- The example of R201. -/
theorem test_ems_set_slot : after (fun t => t.route .cpu 0xD8000 .byte .read) (exec (.emsSetSlot 2 true 5) mach)
    = some (.direct (.ems 2) .ram 0x114000 0xD8000) := by decide
theorem test_ems_set_slot_page : answer (exec (.emsSetSlot 3 true 0x80) mach) = err .errRange := by decide
/-- R204: the window falls back. -/
theorem test_ems_set_mode : after (fun t => t.route .cpu 0xD0010 .byte .read) (exec (.emsSetMode false) mach)
    = some (.direct (.gen 4) .ram 0xD0010 0xD0010) := by decide
/-- R202: re-applied slots take fresh generations. -/
theorem test_ems_set_mode_again : after (fun t => (t.rgnAt (.ems 0)).gen) (exec (.emsSetMode true) mach) = some 8 := by
  decide
/-- The example of R220. -/
theorem test_invalidate : after (fun t => (t.stale, t.invalCount, t.events)) (exec .invalidate { mach with stale := true })
    = some (false, 1, [.inval 1]) := by decide
/-- R221: the arrays and `cp` only. -/
theorem test_reset : after (fun t => (t.cp, t.ram, t.rgn, t.emsMode)) (exec .reset { mach with cp := 9 })
    = some (10, mach.ram, State.reset.rgn, false) := by decide

/-- R234, and R235 of the step after it. -/
theorem test_stale_fault : after (fun t => (t.fault, t.cp)) (exec (.read .byte .cpu true 0x10) { mach with stale := true, cp := 4 })
    = some (some ⟨4, .fetch, 0x10⟩, 4) := by decide
theorem test_halted : answer (step { mach with fault := some ⟨4, .fetch, 0x10⟩, cmds := [[0x00000051]] }) = err .fault := by
  decide
/-- The bits of a table row are the next command that the step runs. -/
theorem test_fetch_word : (fun o => (after State.cp o, after State.invalCount o)) (step (State.reset.withFetchWord 32 0x50))
    = (some 1, some 1) := by decide
/-- The memories at reset have the canonical form. -/
theorem test_reset_memory_wf : Memory.wf State.reset.ram ∧ Memory.wf State.reset.smram := by decide
/-- The assembler's text of section 1.4 row 11 and R102's expansion of RAISE. -/
theorem test_asm : asmText (.smramEnable 1 false false false 0x60000 0xA0000 0x20000)
    = "SMRAM_ENABLE 0x1, 0x60000, 0xa0000, 0x20000" := by decide
theorem test_raise : expandPseudo (.raise 2) = [.disable 2, .enable 2] := by decide
/-- R23: the numbers of the ids. -/
theorem test_region_numbers : (regionNumber (.gen 15), regionNumber (.smr 1), regionNumber (.ems 2)) = (15, 0x101, 0x202) := by
  decide

/-! ## Witnesses: a state and operands that meet the hypotheses of each obligation -/

/-- What holds of every record of the table, and of the absent one, holds of every id. -/
theorem forall_ids (s : State) (P : RegionId → Region → Prop) (h : ∀ c ∈ s.regions, P c.1 c.2)
    (h0 : ∀ id, P id Region.unregistered) (id : RegionId) : P id (s.rgnAt id) := by
  by_cases hid : s.hasRgn id
  · exact h (id, s.rgnAt id) ((s.mem_regions _).2 ⟨hid, rfl⟩)
  · rw [s.rgnAt_absent id hid]; exact h0 id

/-- No record but `id` claims address a under policy p with a generation of g or more. -/
def onlyClaimant (s : State) (p : Policy) (a : Nat) (id : RegionId) (g : Nat) : Bool :=
  s.regions.all (fun c => decide (c.1 = id) || !claims p a c.2 || decide (c.2.gen < g))

theorem onlyClaimant_spec (s : State) (p : Policy) (a : Nat) (id : RegionId) (g : Nat)
    (h : onlyClaimant s p a id g = true) (id' : RegionId) (hn : id' ≠ id) (hc : claims p a (s.rgnAt id') = true) :
    (s.rgnAt id').gen < g := by
  have hall := List.all_eq_true.1 h
  revert hn hc
  refine forall_ids s (fun i r => i ≠ id → claims p a r = true → r.gen < g) (fun c hcm hn hc => ?_) (fun _ _ hc => ?_) id'
  · have := hall c hcm
    simp [hn, hc] at this
    exact this
  · simp [claims, Region.unregistered] at hc

theorem noClaimant_spec (s : State) (p : Policy) (a : Nat) (h : s.regions.all (fun c => !claims p a c.2) = true)
    (id : RegionId) : claims p a (s.rgnAt id) = false := by
  have hall := List.all_eq_true.1 h
  exact forall_ids s (fun _ r => claims p a r = false) (fun c hc => by simpa using hall c hc)
    (fun _ => by simp [claims, Region.unregistered]) id

/-- The part of the invariant about one record that a computation can check. -/
def fits (s : State) (c : RegionId × Region) : Bool :=
  match c.1 with
  | .gen _ =>
    (c.2.valid || !c.2.enabled) &&
      (!c.2.valid || (validRange s.plat c.2.base c.2.size &&
        (match c.2.backing with
        | .hooks h _ => decide (h < s.plat.nHooks)
        | .direct .smram _ => decide (0 < s.plat.smramSize)
        | .direct .ram _ => true
        | .direct .rom _ => true)))
  | .smr w =>
    decide (c.2 =
      { valid := true, base := (s.window w).visible.toNat, size := (s.window w).size.toNat
        enabled := (s.window w).active && (s.smm || (s.window w).allowR || (s.window w).allowW), gen := c.2.gen
        cls := .internal
        backing := .direct (if (s.window w).sep then .smram else .ram) (s.window w).host.toNat })
  | .ems k =>
    decide (c.2 =
      { valid := true, base := s.plat.emsVbase.getD k 0, size := s.plat.emsPageSize
        enabled := s.emsMode && (s.slot k).enabled, gen := c.2.gen, cls := .bypass
        backing := .direct .ram (s.plat.emsBackingBase + (s.slot k).page.toNat * s.plat.emsPageSize) })

/-- The invariant, as far as a computation checks it. -/
abbrev checked (s : State) : Prop :=
  (s.plat.wf = true)
    ∧ (s.rgn.gen.length = s.plat.nRegions ∧ s.rgn.smr.length = s.plat.nSmram
      ∧ s.rgn.ems.length = s.plat.nEms ∧ s.sreg.length = s.plat.shadow.nSreg
      ∧ s.smw.length = s.plat.nSmram ∧ s.emsSlot.length = s.plat.nEms)
    ∧ (Memory.wf s.ram ∧ Memory.below s.ram s.plat.ramSize ∧ Memory.wf s.smram
      ∧ Memory.below s.smram s.plat.smramSize ∧ s.rom = s.plat.romImage)
    ∧ (PolicyTable.wf s.rpol s.plat.numGranules = true ∧ PolicyTable.wf s.wpol s.plat.numGranules = true
      ∧ PolicyTable.get s.rpol s.plat.numGranules = PolicyTable.get s.plat.resetRead s.plat.numGranules
      ∧ PolicyTable.get s.wpol s.plat.numGranules = PolicyTable.get s.plat.resetWrite s.plat.numGranules)
    ∧ s.effectiveA20 = a20Or s.a20Src
    ∧ (∀ c ∈ s.regions, ∀ d ∈ s.regions, c.2.enabled = true → d.2.enabled = true → c.2.gen = d.2.gen → c.1 = d.1)
    ∧ (∀ c ∈ s.regions, fits s c = true) ∧ (∀ c ∈ s.regions, c.2.gen ≤ s.genCtr)
    ∧ (∀ W ∈ s.smw, W.active = true → granuleRange s.plat W.visible.toNat W.size.toNat = true)
    ∧ (∀ S ∈ s.emsSlot, S.page.toNat < 2 ^ s.plat.emsPageBits)
    ∧ invalNumbers s.events = (List.range s.invalCount).map (· + 1)

theorem inv_of_checked (s : State) (h : checked s) : s.Inv := by
  obtain ⟨h1, h2, h3, h4, h5, h6, h7, h8, h9, h10, h11⟩ := h
  have hfit : ∀ id, s.hasRgn id → fits s (id, s.rgnAt id) = true := fun id hid => h7 _ ((s.mem_regions _).2 ⟨hid, rfl⟩)
  refine ⟨h1, h2, h3, h4, h5, ?_, ?_, ?_, ?_, ⟨fun W hW ha => (granuleRange_iff _ _ _).1 (h9 W hW ha), h10⟩, h11⟩
  · intro id id' he he' hg
    exact h6 (id, s.rgnAt id) ((s.mem_regions _).2 ⟨s.hasRgn_of_enabled id he, rfl⟩) (id', s.rgnAt id')
      ((s.mem_regions _).2 ⟨s.hasRgn_of_enabled id' he', rfl⟩) he he' hg
  · intro id
    cases id with
    | gen i =>
      intro hv
      by_cases hid : s.hasRgn (.gen i)
      · have := hfit _ hid
        simp only [fits, hv, Bool.false_or, Bool.and_eq_true] at this
        simpa using this.1
      · rw [s.rgnAt_absent _ hid]; rfl
    | smr w =>
      intro hw
      have := hfit (.smr w) (by simpa [State.hasRgn, h2.2.1] using hw)
      simp only [fits, decide_eq_true_eq] at this
      rw [this]; rfl
    | ems k =>
      intro hk
      have := hfit (.ems k) (by simpa [State.hasRgn, h2.2.2.1] using hk)
      simp only [fits, decide_eq_true_eq] at this
      rw [this]; rfl
  · intro id
    cases id with
    | gen i =>
      intro hv
      have := hfit _ (s.hasRgn_of_valid _ hv)
      simp only [fits, hv, Bool.true_or, Bool.not_true, Bool.false_or, Bool.true_and, Bool.and_eq_true] at this
      refine ⟨(validRange_iff _ _ _).1 this.1, fun h dw hb => ?_, fun off hb => ?_⟩
      · simpa [hb] using this.2
      · simpa [hb] using this.2
    | smr w =>
      intro hw
      have := hfit (.smr w) (by simpa [State.hasRgn, h2.2.1] using hw)
      simp only [fits, decide_eq_true_eq] at this
      rw [this]; rfl
    | ems k =>
      intro hk
      have := hfit (.ems k) (by simpa [State.hasRgn, h2.2.2.1] using hk)
      simp only [fits, decide_eq_true_eq] at this
      rw [this]; rfl
  · intro id
    exact forall_ids s (fun _ r => r.gen ≤ s.genCtr) h8 (fun _ => Nat.zero_le _) id

/-- n registered Regions as in section 3.2's last table: Region i at 0x1000·i, disabled. -/
def taken (n : Nat) : State :=
  { State.reset with
    rgn := { State.reset.rgn with
      gen := (List.range n).map (fun i => { lowRam with base := 0x1000 * i, size := 0x1000, enabled := false, gen := 0 })
        ++ List.replicate (16 - n) Region.unregistered } }

/-- Two active SMRAM windows that no access sees, the second inside the first, and two slots set up with the mode off. -/
def hiddenWindows : State :=
  { State.reset with
    rgn :=
      { gen := State.reset.rgn.gen
        smr := [{ window0Region with enabled := false },
          { window0Region with enabled := false, gen := 7, base := 0xC4000, size := 0x4000 }]
        ems := [{ slot0Region with enabled := false }, { slot0Region with enabled := false, base := 0xD4000 },
          Region.emsOwned Config.vp 0xD8000, Region.emsOwned Config.vp 0xDC000] }
    genCtr := 9
    smw := [{ window0 with allowR := false }, { window0 with allowR := false, visible := 0xC4000, size := 0x4000 }]
    emsSlot := [{ enabled := true, page := 5 }, { enabled := true, page := 5 }, EmsSlot.cleared, EmsSlot.cleared] }

/-- A platform without a separate SMRAM. -/
def noSmram : State := State.powerOn { Config.vp with smramSize := 0 }

/-- `mach` with one more packet to come. -/
def busy (pkt : Packet) : State := { mach with cmds := [pkt] }

theorem inv_mach : mach.Inv := inv_of_checked _ (by decide +kernel)
theorem inv_taken_15 : (taken 15).Inv := inv_of_checked _ (by decide +kernel)
theorem inv_taken_16 : (taken 16).Inv := inv_of_checked _ (by decide +kernel)
theorem inv_hidden : hiddenWindows.Inv := inv_of_checked _ (by decide +kernel)
theorem inv_noSmram : noSmram.Inv := inv_of_checked _ (by decide +kernel)
theorem inv_busy : (busy [0x00000030]).Inv := inv_of_checked _ (by decide +kernel)

theorem witness_DecodeOfEncodeIsTheCommand :
    Instr.wf false (.read .word .cpu true 0) = true
      ∧ Instr.wf true (.register true .bypass .hooks true 0xFFFFF000 0x1000 1) = true
      ∧ Instr.wf true (.write .dword .bus 0xFFFFFFFF 0xFFFFFFFF) = true := by decide

theorem witness_EncodeOfDecodeIsThePacket : decode true [0x000D0008, 0xFFFFFFFF] = .ok (.decode .word .write .bus 0xFFFFFFFF) := by
  decide

/-- Each item of R98 has a packet. -/
theorem witness_IllegalPacketsAreThoseOfTheList_illegal :
    (busy [0x0000000B]).fault = none
      ∧ illegalPacket true 0x0000000B [] ∧ illegalPacket true 0x00000050 [0] ∧ illegalPacket true 0x01000050 []
      ∧ illegalPacket true 0x00070001 [0, 0x1000, 0] ∧ illegalPacket true 0x00030008 [0x10]
      ∧ illegalPacket false 0x00020009 [0x10] ∧ illegalPacket true 0x00200105 [0]
      ∧ illegalPacket true 0x00180009 [0x10] := by
  refine ⟨rfl, .inl (fun o => by cases o <;> decide), .inr ⟨.invalidate, by decide⟩, .inr ⟨.invalidate, by decide⟩,
    .inr ⟨.register, by decide⟩, .inr ⟨.decode, by decide⟩, .inr ⟨.read, by decide⟩, .inr ⟨.setBacking, by decide⟩,
    .inr ⟨.read, by decide⟩⟩

theorem witness_IllegalPacketsAreThoseOfTheList_legal :
    (busy [0x00000050]).fault = none ∧ (busy [0x00000050]).cmds = [[0x00000050]] ∧ ¬ illegalPacket true 0x00000050 [] := by
  refine ⟨rfl, rfl, ?_⟩
  rintro (h | ⟨o, ho, h⟩)
  · exact h .invalidate (by decide)
  · revert ho h
    cases o <;> decide

theorem witness_StepRunsTheDecodedCommand :
    (busy [0x00000030]).fault = none ∧ (busy [0x00000030]).cmds = [[0x00000030]]
      ∧ decode (busy [0x00000030]).plat.hasDword [0x00000030] = .ok .smramDisableAll := by decide

theorem witness_WaitingBlockDoesNothing : mach.cmds = [] := rfl

theorem witness_HaltedBlockAnswersFaultForEver :
    (State.takeStaleMap (busy [0x00000051]) .write 0x10).fault ≠ none
      ∧ 1 ≤ (State.takeStaleMap (busy [0x00000051]) .write 0x10).cmds.length := by decide

/-- The range ends past the space, or the hook set does not exist: not legal. -/
theorem witness_RegisterTakesTheLowestFreeHandle_invalid :
    mach.Inv ∧ ¬ ((0xFFFFF000 : Word).toNat + (0x2000 : Word).toNat ≤ 2 ^ mach.plat.addrBits)
      ∧ ¬ ((2 : Word).toNat < mach.plat.nHooks) := ⟨inv_mach, by decide⟩

/-- The last 0x1000 bytes of the space, behind hook set 1: legal, and no handle is free. -/
theorem witness_RegisterTakesTheLowestFreeHandle_full :
    (taken 16).Inv
      ∧ (0 < (0x1000 : Word).toNat ∧ (0xFFFFF000 : Word).toNat % (taken 16).plat.regionAlign = 0
        ∧ (0x1000 : Word).toNat % (taken 16).plat.regionAlign = 0
        ∧ (0xFFFFF000 : Word).toNat + (0x1000 : Word).toNat ≤ 2 ^ (taken 16).plat.addrBits)
      ∧ ((BackingCode.hooks = .smram → 0 < (taken 16).plat.smramSize)
        ∧ (BackingCode.hooks = .hooks → (1 : Word).toNat < (taken 16).plat.nHooks))
      ∧ ∀ i, i < (taken 16).plat.nRegions → ((taken 16).rgnAt (.gen i)).valid = true :=
  ⟨inv_taken_16, by decide, by decide, by decide⟩

/-- The same range with handle 15 the only free one. -/
theorem witness_RegisterTakesTheLowestFreeHandle :
    (taken 15).Inv
      ∧ (0 < (0x1000 : Word).toNat ∧ (0xFFFFF000 : Word).toNat % (taken 15).plat.regionAlign = 0
        ∧ (0x1000 : Word).toNat % (taken 15).plat.regionAlign = 0
        ∧ (0xFFFFF000 : Word).toNat + (0x1000 : Word).toNat ≤ 2 ^ (taken 15).plat.addrBits)
      ∧ ((BackingCode.smram = .smram → 0 < (taken 15).plat.smramSize)
        ∧ (BackingCode.smram = .hooks → (0 : Word).toNat < (taken 15).plat.nHooks))
      ∧ 15 < (taken 15).plat.nRegions ∧ ((taken 15).rgnAt (.gen 15)).valid = false
      ∧ ∀ j, j < 15 → ((taken 15).rgnAt (.gen j)).valid = true :=
  ⟨inv_taken_15, by decide, by decide, by decide, by decide, by decide⟩

/-- A block with no fault. -/
theorem witness_EveryCommandEndsAndAdvances : mach.fault = none ∧ { mach with stale := true }.stale = true := by decide

/-- ENABLE and DISABLE: no handle 16, handle 6 not registered, handle 15 registered. -/
theorem witness_EnableTakesAFreshGenerationOnce :
    ¬ ((16 : Byte).toNat < mach.plat.nRegions ∧ (mach.rgnAt (.gen 16)).valid = true)
      ∧ ¬ ((6 : Byte).toNat < mach.plat.nRegions ∧ (mach.rgnAt (.gen 6)).valid = true)
      ∧ (15 : Byte).toNat < (taken 16).plat.nRegions ∧ ((taken 16).rgnAt (.gen 15)).valid = true := by decide

theorem witness_DisableClearsOnlyTheFlag :
    ¬ ((16 : Byte).toNat < mach.plat.nRegions ∧ (mach.rgnAt (.gen 16)).valid = true)
      ∧ (0 : Byte).toNat < mach.plat.nRegions ∧ (mach.rgnAt (.gen 0)).valid = true := by decide

theorem witness_SetBaseMovesTheRegion :
    ¬ ((6 : Byte).toNat < mach.plat.nRegions ∧ (mach.rgnAt (.gen 6)).valid = true)
      ∧ (5 : Byte).toNat < mach.plat.nRegions ∧ (mach.rgnAt (.gen 5)).valid = true
      ∧ 0x1000 = (mach.rgnAt (.gen 5)).size ∧ (0xFFFFF800 : Word).toNat % mach.plat.regionAlign ≠ 0
      ∧ 0 < (mach.rgnAt (.gen 5)).size ∧ (0xFFFFF000 : Word).toNat % mach.plat.regionAlign = 0
      ∧ 0x1000 % mach.plat.regionAlign = 0 ∧ (0xFFFFF000 : Word).toNat + 0x1000 ≤ 2 ^ mach.plat.addrBits := by decide

theorem witness_SetBackingRetargetsTheRegion :
    ¬ ((6 : Byte).toNat < mach.plat.nRegions ∧ (mach.rgnAt (.gen 6)).valid = true)
      ∧ (0 : Byte).toNat < mach.plat.nRegions ∧ (mach.rgnAt (.gen 0)).valid = true
      ∧ ¬ ((2 : Word).toNat < mach.plat.nHooks) ∧ (1 : Word).toNat < mach.plat.nHooks ∧ 0 < mach.plat.smramSize := by decide

theorem witness_RaiseMakesTheRegionTheNewest :
    mach.Inv ∧ (0 : Byte).toNat < mach.plat.nRegions ∧ (mach.rgnAt (.gen 0)).valid = true := ⟨inv_mach, by decide⟩

theorem witness_RelocateMovesAndRaises :
    mach.Inv ∧ (5 : Byte).toNat < mach.plat.nRegions ∧ (mach.rgnAt (.gen 5)).valid = true
      ∧ (0xFFFFF000 : Word).toNat % mach.plat.regionAlign = 0
      ∧ (0xFFFFF000 : Word).toNat + (mach.rgnAt (.gen 5)).size ≤ 2 ^ mach.plat.addrBits := ⟨inv_mach, by decide⟩

/-- The four refused ranges, and the last granule of the space. -/
theorem witness_SetPolicyOverwritesTheRange :
    mach.Inv ∧ (0 : Word).toNat = 0 ∧ (0xF2000 : Word).toNat % mach.plat.granule ≠ 0
      ∧ (0x2000 : Word).toNat % mach.plat.granule ≠ 0
      ∧ 2 ^ mach.plat.addrBits < (0xFFFFC000 : Word).toNat + (0x8000 : Word).toNat
      ∧ (0x4000 : Word).toNat ≠ 0 ∧ (0xFFFFC000 : Word).toNat % mach.plat.granule = 0
      ∧ (0x4000 : Word).toNat % mach.plat.granule = 0
      ∧ (0xFFFFC000 : Word).toNat + (0x4000 : Word).toNat ≤ 2 ^ mach.plat.addrBits
      ∧ granuleIn mach.plat 0xFFFFC000 0x4000 0x3FFFF ∧ ¬ granuleIn mach.plat 0xFFFFC000 0x4000 0x3FFFE :=
  ⟨inv_mach, by decide⟩

/-- The Region claims address a under policy p, as R65 writes it. -/
abbrev claimsWritten (p : Policy) (a : Nat) (r : Region) : Prop :=
  r.valid = true ∧ r.enabled = true ∧ r.base ≤ a ∧ a < r.base + r.size
    ∧ (r.cls = .bypass ∨ (r.cls = .internal ∧ p = .internal) ∨ (r.cls = .external ∧ (p = .external ∨ p = .externalAny)))

/-- Slot 0 answers its first address for a bus master, although the Region behind it claims it too; nothing claims 0xE0000, at
which the CPU arrives with bit 20 set. -/
theorem witness_RouteGoesToTheNewestClaimant :
    (0xD0000 = (0xD0000 : Word).toNat % 2 ^ mach.plat.addrBits
      ∧ 0xD0000 = (if mach.effectiveA20 = false ∧ Nat.testBit 0xD0000 20 = true then 0xD0000 - 0x100000 else 0xD0000)
      ∧ Policy.disabled = (if Agent.bus = .bus ∧ mach.policyAt .read (0xD0000 / mach.plat.granule) = .external then .disabled
        else mach.policyAt .read (0xD0000 / mach.plat.granule))
      ∧ claimsWritten .disabled 0xD0000 (mach.rgnAt (.ems 0)) ∧ claimsWritten .disabled 0xD0000 (mach.rgnAt (.gen 4))
      ∧ ∀ id', id' ≠ .ems 0 → claimsWritten .disabled 0xD0000 (mach.rgnAt id') →
        (mach.rgnAt id').gen < (mach.rgnAt (.ems 0)).gen)
    ∧ (0x1E0000 = (0x1E0000 : Word).toNat % 2 ^ mach.plat.addrBits
      ∧ 0xE0000 = (if mach.effectiveA20 = false ∧ Nat.testBit 0x1E0000 20 = true then 0x1E0000 - 0x100000 else 0x1E0000)
      ∧ Policy.external = (if Agent.cpu = .bus ∧ mach.policyAt .read (0xE0000 / mach.plat.granule) = .external then .disabled
        else mach.policyAt .read (0xE0000 / mach.plat.granule))
      ∧ ∀ id, ¬ claimsWritten .external 0xE0000 (mach.rgnAt id)) := by
  refine ⟨⟨by decide, by decide, by decide, by decide, by decide, fun id' hn hc => ?_⟩, by decide, by decide, by decide,
    fun id hc => ?_⟩
  · exact onlyClaimant_spec mach _ _ _ _ (by decide) id' hn ((claims_iff _ _ _).2 hc)
  · have := noClaimant_spec mach .external 0xE0000 (by decide) id
    rw [(claims_iff _ _ _).2 hc] at this
    cases this

theorem witness_MaskedGateIgnoresBitTwenty :
    mach.Inv ∧ mach.effectiveA20 = false ∧ 0xFFFFFFFF = (0xFFFFFFFF : Word).toNat % 2 ^ mach.plat.addrBits
      ∧ (mach.setA20 2 true).effectiveA20 = true := ⟨inv_mach, by decide⟩

theorem witness_ReadOfAnArrayIsLittleEndian :
    mach.stale = false ∧ mach.route .cpu 0x9FFFF .dword .read = .direct (.gen 0) .ram 0x9FFFF 0x9FFFF
      ∧ mach.route .cpu 0xFFFFE .word .read = .direct (.gen 2) .rom 0xFFFE 0xFFFFE := by decide

theorem witness_DroppedReadGivesAllOnes :
    mach.stale = false ∧ mach.route .cpu 0xFFFFD .dword .read = .fill .outOfRange 0xFFFFD
      ∧ mach.route .bus 0xFFFFD .dword .read = .fill .policyDisabled 0xFFFFD
      ∧ mach.route .cpu 0xE0000 .byte .read = .fill .noRegion 0xE0000 := by decide

theorem witness_HookReadLogsItsCalls :
    mach.stale = false
      ∧ mach.route .cpu 0xBFFFF .byte .read = .hook (.gen 1) 0 0xBFFFF 0x1FFFF
      ∧ mach.route .cpu 0x2000FFC .dword .read = .hook (.gen 3) 1 0x2000FFC 0xFFC
      ∧ (mach.rgnAt (.gen 3)).backing = .hooks 1 true
      ∧ mach.route .cpu 0xA0000 .dword .read = .hook (.gen 1) 0 0xA0000 0
      ∧ (mach.rgnAt (.gen 1)).backing = .hooks 0 false := by decide

theorem witness_WriteToAnArrayStoresItsLowBytes :
    mach.stale = false ∧ mach.route .cpu 0x9FFFF .word .write = .direct (.gen 0) .ram 0x9FFFF 0x9FFFF
      ∧ Arr.ram ≠ Arr.rom ∧ outsideBytes .ram 0x9FFFF 2 .ram 0x9FFFE ∧ outsideBytes .ram 0x9FFFF 2 .ram 0xA0001
      ∧ outsideBytes .ram 0x9FFFF 2 .smram 0x9FFFF := by
  refine ⟨rfl, by decide, by decide, fun _ => .inl (by decide), fun _ => .inr (by decide), fun h => by simp at h⟩

/-- The ROM under a write policy that routes to it, as in section 3.3 row 36. -/
theorem witness_DiscardedWriteChangesNoByte :
    mach.stale = false ∧ mach.route .cpu 0xF0010 .byte .write = .fill .policyDisabled 0xF0010
      ∧ (mach.policyFill 0xF0000 0x10000 ⟨.external, .external⟩).stale = false
      ∧ (mach.policyFill 0xF0000 0x10000 ⟨.external, .external⟩).route .cpu 0xF0010 .byte .write
        = .direct (.gen 2) .rom 0x10 0xF0010 := by decide

theorem witness_HookWriteLogsItsCalls :
    mach.stale = false
      ∧ mach.route .bus 0xBFFFF .byte .write = .hook (.gen 1) 0 0xBFFFF 0x1FFFF
      ∧ mach.route .cpu 0x2000FFC .dword .write = .hook (.gen 3) 1 0x2000FFC 0xFFC
      ∧ mach.route .cpu 0xA0000 .dword .write = .hook (.gen 1) 0 0xA0000 0 := by decide

/-- The same byte of `ram` through the slot, by the CPU and by a bus master, and through a wrapped address. -/
theorem witness_ReadAfterWriteGivesTheData :
    mach.stale = false ∧ mach.route .cpu 0xD3FFF .byte .write = .direct (.ems 0) .ram 0x117FFF 0xD3FFF
      ∧ mach.route .bus 0x1D3FFF .byte .read = .direct (.ems 0) .ram 0x117FFF 0xD3FFF := by decide

theorem witness_StaleCpuAccessTakesTheFault : (State.noteMapChange mach (mach.disableRgn (.gen 0))).stale = true := by decide

/-- Rule 0 of EX1 holds for window 8 while bit 7 of register 2 is set; no rule names window 0. -/
theorem witness_WindowPairTakesTheFirstGlobalRule :
    (∀ sel, evalSel [0, 0, 0x84] sel = ((([0, 0, 0x84] : List Byte).getD sel.reg 0).getLsbD sel.bit ^^ sel.inv))
      ∧ Config.ex1.glob[0]? = some ⟨⟨2, 7, false⟩, true, [8, 9], ⟨.external, .internal⟩⟩ ∧ 8 ∈ [8, 9]
      ∧ evalSel [0, 0, 0x84] ⟨2, 7, false⟩ = true
      ∧ ∀ r ∈ Config.ex1.glob, ¬ (0 ∈ r.wins ∧ evalSel [0, 0, 0x84] r.sel = r.val) :=
  ⟨fun _ => rfl, by decide⟩

theorem witness_ShadowWriteRecomputesEveryWindow :
    mach.Inv ∧ mach.plat.shadow.nSreg ≤ (3 : Byte).toNat ∧ (2 : Byte).toNat < mach.plat.shadow.nSreg
      ∧ granuleIn mach.plat 0xF0000 0x10000 0x3F ∧ (∀ w ∈ mach.plat.shadow.win, ¬ granuleIn mach.plat w.base w.size 0x40) :=
  ⟨inv_mach, by decide⟩

theorem witness_ShadowRecalcTwiceIsRecalcOnce :
    mach.Inv ∧ granuleIn mach.plat 0xC0000 0x4000 0x30
      ∧ (∀ w ∈ mach.plat.shadow.win, ¬ granuleIn mach.plat w.base w.size 0x2F) := ⟨inv_mach, by decide⟩

/-- Two machines of different platforms with one description write 0x84 to register 2; the one has it there before. -/
theorem witness_RecalcDependsOnlyOnTheRegisters :
    mach.Inv ∧ noSmram.Inv ∧ mach.plat ≠ noSmram.plat ∧ mach.plat.shadow = noSmram.plat.shadow
      ∧ mach.plat.granule = noSmram.plat.granule ∧ (2 : Byte).toNat < noSmram.plat.shadow.nSreg
      ∧ ∃ t t', exec .shadowRecalc mach = .next t ∧ exec (.shadowWrite 2 0x84) noSmram = .next t' ∧ t.sreg = t'.sreg :=
  ⟨inv_mach, inv_noSmram, fun h => absurd (congrArg Platform.smramSize h) (by decide), rfl, rfl, by decide, _, _, rfl, rfl, by decide⟩

theorem witness_ShadowReadReturnsTheRegister :
    mach.plat.shadow.nSreg ≤ (3 : Byte).toNat ∧ (2 : Byte).toNat < mach.plat.shadow.nSreg := by decide

theorem witness_SourceChangeInvalidatesOnce :
    mach.Inv ∧ 2 < (3 : Byte).toNat ∧ (2 : Byte).toNat ≤ 2 ∧ a20Get mach.a20Src (2 : Byte).toNat ≠ true
      ∧ a20Get mach.a20Src (2 : Byte).toNat = false := ⟨inv_mach, by decide⟩

theorem witness_DisableAllHidesEveryWindow : mach.Inv ∧ 1 < mach.plat.nSmram ∧ (mach.rgnAt (.smr 0)).enabled = true :=
  ⟨inv_mach, by decide⟩

/-- The refused arguments, a platform without SMRAM, and a window that ends at the top of the space. -/
theorem witness_SmramEnableEstablishesTheWindow :
    mach.Inv ∧ mach.plat.nSmram ≤ (2 : Byte).toNat ∧ (1 : Byte).toNat < mach.plat.nSmram
      ∧ (0xA2000 : Word).toNat % mach.plat.granule ≠ 0
      ∧ 2 ^ mach.plat.addrBits < (0xFFFFC000 : Word).toNat + (0x8000 : Word).toNat
      ∧ (0xFFFFC000 : Word).toNat % mach.plat.granule = 0 ∧ (0x4000 : Word).toNat % mach.plat.granule = 0
      ∧ (0xFFFFC000 : Word).toNat + (0x4000 : Word).toNat ≤ 2 ^ mach.plat.addrBits ∧ mach.plat.smramSize ≠ 0
      ∧ noSmram.Inv ∧ noSmram.plat.smramSize = 0 :=
  ⟨inv_mach, by decide, by decide, by decide, by decide, by decide, by decide, by decide, by decide, inv_noSmram, rfl⟩

/-- Both hidden windows become visible; granule 0x31 is window 1's, granule 0x30 window 0's alone. -/
theorem witness_SetSmmRecomputesTheActiveWindows :
    hiddenWindows.Inv ∧ 0 < 1 ∧ 1 < hiddenWindows.plat.nSmram
      ∧ (hiddenWindows.window 0).active = true ∧ (hiddenWindows.window 1).active = true
      ∧ (hiddenWindows.rgnAt (.smr 0)).enabled = false ∧ (hiddenWindows.rgnAt (.smr 1)).enabled = false
      ∧ after (fun t => ((t.rgnAt (.smr 0)).enabled, (t.rgnAt (.smr 1)).enabled)) (exec (.smramSetSmm true) hiddenWindows)
        = some (true, true)
      ∧ granuleIn hiddenWindows.plat 0xC0000 0x8000 0x30 ∧ ¬ granuleIn hiddenWindows.plat 0xC4000 0x4000 0x30
      ∧ granuleIn hiddenWindows.plat 0xC0000 0x8000 0x31 ∧ granuleIn hiddenWindows.plat 0xC4000 0x4000 0x31 :=
  ⟨inv_hidden, by decide⟩

theorem witness_OnlyReenabledWindowsAnswer :
    mach.Inv ∧ opOf (.smramEnable 1 true true false 0x60000 0xC0000 0x4000) = .smramEnable
      ∧ after (fun t => t.route .cpu 0xC0000 .byte .read)
          (execSeq [.smramDisableAll, .smramEnable 1 true true false 0x60000 0xC0000 0x4000] mach)
        = some (.direct (.smr 1) .ram 0x60000 0xC0000)
      ∧ after (fun t => (t.rgnAt (.smr 0)).enabled) (exec (.smramSetSmm true) hiddenWindows) = some true :=
  ⟨inv_mach, by decide⟩

theorem witness_SetSlotRedirectsTheWindow :
    mach.Inv ∧ mach.plat.nEms ≤ (4 : Byte).toNat ∧ 2 ^ mach.plat.emsPageBits ≤ (128 : Word).toNat
      ∧ (3 : Byte).toNat < mach.plat.nEms ∧ (127 : Word).toNat < 2 ^ mach.plat.emsPageBits := ⟨inv_mach, by decide⟩

theorem witness_SetModeAppliesEverySlot :
    hiddenWindows.Inv ∧ 3 < hiddenWindows.plat.nEms
      ∧ after (fun t => ((t.rgnAt (.ems 0)).enabled, (t.rgnAt (.ems 1)).enabled)) (exec (.emsSetMode true) hiddenWindows)
        = some (true, true) := ⟨inv_hidden, by decide⟩

/-- The last address of slot 0's window. -/
theorem witness_EnabledSlotAnswersItsWindow :
    mach.Inv ∧ (mach.rgnAt (.ems 0)).enabled = true ∧ 0xD0000 = mach.plat.emsVbase.getD 0 0
      ∧ 0xD0000 ≤ mach.a20Mask 0xD3FFF ∧ mach.a20Mask 0xD3FFF < 0xD0000 + mach.plat.emsPageSize
      ∧ (∀ id, id ≠ .ems 0 → (mach.rgnAt id).enabled = true → (mach.rgnAt id).base ≤ mach.a20Mask 0xD3FFF →
        mach.a20Mask 0xD3FFF < (mach.rgnAt id).base + (mach.rgnAt id).size →
        (mach.rgnAt id).gen < (mach.rgnAt (.ems 0)).gen) := by
  refine ⟨inv_mach, by decide, by decide, by decide, by decide, ?_⟩
  intro id
  refine forall_ids mach (fun id r => id ≠ .ems 0 → r.enabled = true → r.base ≤ mach.a20Mask 0xD3FFF →
    mach.a20Mask 0xD3FFF < r.base + r.size → r.gen < (mach.rgnAt (.ems 0)).gen) (by decide) (fun _ _ h => ?_) id
  simp [Region.unregistered] at h

/-- Slot 0 goes, by either command: 0xD0000 falls back to Region 4, and nothing is left for 0xE0000. -/
theorem witness_DisabledSlotFallsBack :
    mach.Inv ∧ (0 : Byte).toNat < mach.plat.nEms ∧ (127 : Word).toNat < 2 ^ mach.plat.emsPageBits
      ∧ (∃ t, exec (.emsSetSlot 0 false 127) mach = .next t) ∧ (∃ t, exec (.emsSetMode false) mach = .next t)
      ∧ 0xD0000 = mach.a20Mask 0xD0000
      ∧ Policy.external = agentPolicy .cpu (mach.policyAt .read (0xD0000 / mach.plat.granule))
      ∧ RegionId.gen 4 ≠ .ems 0 ∧ claimsWritten .external 0xD0000 (mach.rgnAt (.gen 4))
      ∧ (∀ id', id' ≠ .gen 4 → id' ≠ .ems 0 ∧ claimsWritten .external 0xD0000 (mach.rgnAt id') →
        (mach.rgnAt id').gen < (mach.rgnAt (.gen 4)).gen)
      ∧ 0xE0000 = mach.a20Mask 0xE0000 ∧ ∀ id, ¬ claimsWritten .external 0xE0000 (mach.rgnAt id) := by
  refine ⟨inv_mach, by decide, by decide, ⟨_, rfl⟩, ⟨_, rfl⟩, by decide, by decide, by decide, by decide,
    fun id' h1 h2 => ?_, by decide, fun id hc => ?_⟩
  · revert h1 h2
    exact forall_ids mach (fun i r => i ≠ .gen 4 → i ≠ .ems 0 ∧ claimsWritten .external 0xD0000 r →
      r.gen < (mach.rgnAt (.gen 4)).gen) (by decide) (fun _ _ h => by simp [Region.unregistered] at h) id'
  · have := noClaimant_spec mach .external 0xE0000 (by decide) id
    rw [(claims_iff _ _ _).2 hc] at this
    cases this

theorem witness_ResetKeepsOnlyTheArrays : mach.Inv := inv_mach

theorem witness_InvHoldsAtPowerOn : Platform.wf Config.vp = true := test_wf_vp

theorem witness_EveryStepKeepsInv : (busy [0x00000030]).Inv ∧ ∃ t, step (busy [0x00000030]) = .next t :=
  ⟨inv_busy, _, rfl⟩

theorem witness_FailedCommandsChangeNothing :
    ∃ t, exec (.enable 16) mach = .next t ∧ t.result = some { status := .errRange, data := .none } :=
  ⟨_, rfl, by decide⟩

/-- One command of each of the three groups that ends with OK, the third on a stale mapping. -/
theorem witness_StaleFlagByCommand :
    (∃ t, exec .shadowRecalc mach = .next t ∧ t.result = some { status := .ok, data := .none })
      ∧ (∃ t, exec .a20Get mach = .next t ∧ t.result = some { status := .ok, data := .a20 false 0b000#3 })
      ∧ ∃ t, exec (.enable 0) { mach with stale := true } = .next t
        ∧ t.result = some { status := .ok, data := .none } :=
  ⟨⟨_, rfl, by decide⟩, ⟨_, rfl, by decide⟩, _, rfl, by decide⟩

/-- A command that writes next to nothing, and RESET. -/
theorem witness_EachPartHasItsWriters :
    (∃ t, exec .a20Get mach = .next t) ∧ (∃ t, exec .reset mach = .next t) ∧ mach.fault = none ∧ mach.stale = false :=
  ⟨⟨_, rfl⟩, ⟨_, rfl⟩, by decide⟩

end Sys2Proof.Tests
end

section
/-! PROOFS. What a command can do (10_state.md R38, 60_exceptions.md R232–R235): it fails, it takes the stale-map fault, or it
has the effect of its row (30_encoding.md R97) and ends with OK. Later proofs about `exec` go through `exec_cases`. -/

namespace Sys2Proof.Machine

/-- The state that command i leaves when it ends with OK, before `cp` and the result record are written: one constructor for
each way a command can get there, with the checks that let it through. -/
inductive Effect : Instr → State → State → Prop
  | register {s en cls bk dw base size wB i} (hr : validRange s.plat base.toNat size.toNat = true)
      (hb : validBacking s.plat bk wB = true) (hf : s.freeHandle = some i) :
      Effect (.register en cls bk dw base size wB) s
        (s.noteMapChange (s.registerAt i en (newRegion cls bk dw base size wB)))
  | enable {s h} (hr : s.registered h = true) : Effect (.enable h) s (s.noteMapChange (s.enableRgn (.gen h.toNat)))
  | disable {s h} (hr : s.registered h = true) : Effect (.disable h) s (s.noteMapChange (s.disableRgn (.gen h.toNat)))
  | setBase {s h base} (hr : s.registered h = true)
      (hv : validRange s.plat base.toNat (s.rgnAt (.gen h.toNat)).size = true) :
      Effect (.setBase h base) s
        (s.noteMapChange (s.setRgn (.gen h.toNat) { s.rgnAt (.gen h.toNat) with base := base.toNat }))
  | setBacking {s h bk dw wB} (hr : s.registered h = true) (hb : validBacking s.plat bk wB = true) :
      Effect (.setBacking h bk dw wB) s
        (s.noteMapChange (s.setRgn (.gen h.toNat) { s.rgnAt (.gen h.toNat) with backing := backingOf bk wB dw }))
  | setPolicy {s rp wp base size} (hr : granuleRange s.plat base.toNat size.toNat = true) :
      Effect (.setPolicy rp wp base size) s
        (s.noteMapChange (s.policyFill base.toNat size.toNat { rp := rp, wp := wp }))
  | getPolicy {s addr} : Effect (.getPolicy addr) s s
  | decode {s n kind ag addr} : Effect (.decode n kind ag addr) s s
  | read {s n ag fetch addr} : Effect (.read n ag fetch addr) s (s.memRead ag addr n).1
  | write {s n ag addr data} : Effect (.write n ag addr data) s (s.memWrite ag addr n (lowBytes n data))
  | shadowWrite {s reg value} (hr : reg.toNat < s.plat.shadow.nSreg) :
      Effect (.shadowWrite reg value) s (State.shadowRecalc { s with sreg := s.sreg.set reg.toNat value })
  | shadowRead {s reg} : Effect (.shadowRead reg) s s
  | shadowRecalc {s} : Effect .shadowRecalc s s.shadowRecalc
  | a20Change {s src v} : Effect (.a20Set src v) s (s.setA20 src.toNat v).invalidate
  | a20Keep {s src v} : Effect (.a20Set src v) s (s.noteMapChange (s.setA20 src.toNat v))
  | a20Get {s} : Effect .a20Get s s
  | smramDisableAll {s} :
      Effect .smramDisableAll s (s.noteMapChange (forRange s.plat.nSmram State.hideWindow s))
  | smramEnable {s w ar aw sep host visible size} (hw : w.toNat < s.plat.nSmram)
      (ha : smramArgsOk s.plat sep visible size = true) :
      Effect (.smramEnable w ar aw sep host visible size) s
        (s.noteMapChange (s.establishWindow w.toNat (newWindow ar aw sep host visible size)))
  | smramSetSmm {s smm} :
      Effect (.smramSetSmm smm) s (forRange s.plat.nSmram State.refreshSmram { s with smm := smm }).invalidate
  | emsSetSlot {s slot en page} (hs : slot.toNat < s.plat.nEms) (hp : page.toNat < 2 ^ s.plat.emsPageBits) :
      Effect (.emsSetSlot slot en page) s
        (State.emsApply slot.toNat (s.setSlot slot.toNat { enabled := en, page := page })).invalidate
  | emsSetMode {s on} :
      Effect (.emsSetMode on) s (forRange s.plat.nEms State.emsApply { s with emsMode := on }).invalidate
  | invalidate {s} : Effect .invalidate s s.invalidate
  | reset {s} : Effect .reset s s.resetBlock

/-- The command is a READ or a WRITE of the CPU, the only ones that look at `stale` (R133). -/
def cpuAccess (i : Instr) : Prop := (∃ n f addr, i = .read n .cpu f addr) ∨ ∃ n addr data, i = .write n .cpu addr data

/-- The next state of command i: an error status, which RESET never has, the stale-map fault, or the command's effect and
OK. -/
inductive Ends (i : Instr) (s : State) : State → Prop
  | fails (e : Status) (hi : opOf i ≠ .reset) : Ends i s (s.fail e)
  | faults (kind : FaultKind) (addr : Word) (hs : s.stale = true) (hi : cpuAccess i) : Ends i s (s.takeStaleMap kind addr)
  | does (u : State) (d : ResultData) (hu : Effect i s u) : Ends i s (u.done d)

theorem State.staleAccess_true {s : State} {ag : Agent} (h : s.staleAccess ag = true) : ag = .cpu ∧ s.stale = true := by
  simpa [State.staleAccess] using h

/-- What any command can do from any state. -/
theorem exec_cases (i : Instr) (s : State) : ∃ t, exec i s = .next t ∧ Ends i s t := by
  have ends : ∀ t, Ends i s t → ∃ t', Host.Outcome.next (φ := Fault) (ρ := Refusal) t = .next t' ∧ Ends i s t' :=
    fun t h => ⟨t, rfl, h⟩
  cases i <;> simp only [exec]
  case register en cls bk dw base size wB =>
    unfold execRegister
    split
    · exact ends _ (.fails _ nofun)
    · next hc =>
      simp only [Bool.or_eq_true, Bool.not_eq_true', not_or, Bool.not_eq_false] at hc
      cases hf : s.freeHandle with
      | none => exact ends _ (.fails _ nofun)
      | some i => exact ends _ (.does _ _ (.register hc.1 hc.2 hf))
  case enable h =>
    unfold execEnable
    split
    · next hr => exact ends _ (.does _ _ (.enable hr))
    · exact ends _ (.fails _ nofun)
  case disable h =>
    unfold execDisable
    split
    · next hr => exact ends _ (.does _ _ (.disable hr))
    · exact ends _ (.fails _ nofun)
  case setBase h base =>
    unfold execSetBase
    split
    · exact ends _ (.fails _ nofun)
    · next hr =>
      split
      · exact ends _ (.fails _ nofun)
      · next hv => exact ends _ (.does _ _ (.setBase (by simpa using hr) (by simpa using hv)))
  case setBacking h bk dw wB =>
    unfold execSetBacking
    split
    · exact ends _ (.fails _ nofun)
    · next hr =>
      split
      · exact ends _ (.fails _ nofun)
      · next hb => exact ends _ (.does _ _ (.setBacking (by simpa using hr) (by simpa using hb)))
  case setPolicy rp wp base size =>
    unfold execSetPolicy
    split
    · next hr => exact ends _ (.does _ _ (.setPolicy hr))
    · exact ends _ (.fails _ nofun)
  case getPolicy addr => exact ends _ (.does _ _ .getPolicy)
  case decode n kind ag addr => exact ends _ (.does _ _ .decode)
  case read n ag fetch addr =>
    unfold execRead
    split
    · next hst =>
      obtain ⟨rfl, hs⟩ := State.staleAccess_true hst
      exact ends _ (.faults _ _ hs (.inl ⟨_, _, _, rfl⟩))
    · exact ends _ (.does _ _ .read)
  case write n ag addr data =>
    unfold execWrite
    split
    · next hst =>
      obtain ⟨rfl, hs⟩ := State.staleAccess_true hst
      exact ends _ (.faults _ _ hs (.inr ⟨_, _, _, rfl⟩))
    · exact ends _ (.does _ _ .write)
  case shadowWrite reg value =>
    unfold execShadowWrite
    split
    · next hr => exact ends _ (.does _ _ (.shadowWrite hr))
    · exact ends _ (.fails _ nofun)
  case shadowRead reg =>
    unfold execShadowRead
    split
    · exact ends _ (.does _ _ .shadowRead)
    · exact ends _ (.fails _ nofun)
  case shadowRecalc => exact ends _ (.does _ _ .shadowRecalc)
  case a20Set src v =>
    unfold execA20Set
    split
    · exact ends _ (.fails _ nofun)
    · split
      · exact ends _ (.does _ _ .a20Change)
      · exact ends _ (.does _ _ .a20Keep)
  case a20Get => exact ends _ (.does _ _ .a20Get)
  case smramDisableAll => exact ends _ (.does _ _ .smramDisableAll)
  case smramEnable w ar aw sep host visible size =>
    unfold execSmramEnable
    split
    · exact ends _ (.fails _ nofun)
    · next hw =>
      split
      · exact ends _ (.fails _ nofun)
      · next ha => exact ends _ (.does _ _ (.smramEnable (by omega) (by simpa using ha)))
  case smramSetSmm smm => exact ends _ (.does _ _ .smramSetSmm)
  case emsSetSlot slot en page =>
    unfold execEmsSetSlot
    split
    · exact ends _ (.fails _ nofun)
    · next hc =>
      simp only [Bool.or_eq_true, decide_eq_true_eq, not_or, Nat.not_le] at hc
      exact ends _ (.does _ _ (.emsSetSlot hc.1 hc.2))
  case emsSetMode on => exact ends _ (.does _ _ .emsSetMode)
  case invalidate => exact ends _ (.does _ _ .invalidate)
  case reset => exact ends _ (.does _ _ .reset)

/-- The same for a next state that is given. -/
theorem ends_of_exec {i : Instr} {s t : State} (h : exec i s = .next t) : Ends i s t := by
  obtain ⟨t', ht, he⟩ := exec_cases i s
  rw [h] at ht
  cases ht
  exact he

end Sys2Proof.Machine
end

section
/-! PROOFS. The part of the invariant that every single operation keeps, one rule for each operation. It leaves out what ties
a Region to its owner's registers, which holds again only when a command ends. -/

namespace Sys2Proof.Machine

/-! ### The parts of the invariant -/

/-- R43 items 2 and 5. -/
structure State.GensOk (s : State) : Prop where
  unique : ∀ id id', (s.rgnAt id).enabled = true → (s.rgnAt id').enabled = true →
    (s.rgnAt id).gen = (s.rgnAt id').gen → id = id'
  bound : ∀ id, (s.rgnAt id).gen ≤ s.genCtr

/-- What every operation keeps: the invariant without the ties between Regions and their owners. -/
structure State.Sound (s : State) : Prop where
  plat_wf : s.plat.wf = true
  lengths : s.rgn.gen.length = s.plat.nRegions ∧ s.rgn.smr.length = s.plat.nSmram
    ∧ s.rgn.ems.length = s.plat.nEms ∧ s.sreg.length = s.plat.shadow.nSreg
    ∧ s.smw.length = s.plat.nSmram ∧ s.emsSlot.length = s.plat.nEms
  memory : Memory.wf s.ram ∧ Memory.below s.ram s.plat.ramSize ∧ Memory.wf s.smram
    ∧ Memory.below s.smram s.plat.smramSize ∧ s.rom = s.plat.romImage
  policies : PolicyTable.wf s.rpol s.plat.numGranules = true ∧ PolicyTable.wf s.wpol s.plat.numGranules = true
    ∧ PolicyTable.get s.rpol s.plat.numGranules = PolicyTable.get s.plat.resetRead s.plat.numGranules
    ∧ PolicyTable.get s.wpol s.plat.numGranules = PolicyTable.get s.plat.resetWrite s.plat.numGranules
  a20 : s.effectiveA20 = a20Or s.a20Src
  gens : s.GensOk
  widths : (∀ W ∈ s.smw, windowFits s.plat W) ∧ ∀ S ∈ s.emsSlot, S.page.toNat < 2 ^ s.plat.emsPageBits
  invals : invalNumbers s.events = (List.range s.invalCount).map (· + 1)

/-- Region `id` is enabled when its owner says so, and is what its owner made it. -/
def State.owned (s : State) (id : RegionId) : Prop := s.ownerAgrees id ∧ s.regionFits id

theorem State.inv_iff (s : State) : s.Inv ↔ s.Sound ∧ ∀ id, s.owned id := by
  constructor
  · intro h
    exact ⟨⟨h.plat_wf, h.lengths, h.memory, h.policies, h.a20, ⟨h.gen_unique, h.gen_bound⟩, h.widths, h.invals⟩,
      fun id => ⟨h.owners id, h.regions_fit id⟩⟩
  · rintro ⟨h, ho⟩
    exact ⟨h.plat_wf, h.lengths, h.memory, h.policies, h.a20, h.gens.unique, fun id => (ho id).1, fun id => (ho id).2,
      h.gens.bound, h.widths, h.invals⟩

/-! ### The record of a Region that its owner made -/

/-- The Region of window w, as the window's registers give it (R43 item 4, R181). -/
def State.windowRegion (s : State) (w : Nat) : Region :=
  { valid := true
    base := (s.window w).visible.toNat
    size := (s.window w).size.toNat
    enabled := shown s.smm (s.window w)
    gen := (s.rgnAt (.smr w)).gen
    cls := .internal
    backing := windowBacking (s.window w) }

/-- The Region of slot k, as the slot's registers give it (R43 item 3, R200). -/
def State.slotRecord (s : State) (k : Nat) : Region :=
  { valid := true
    base := s.plat.emsVbase.getD k 0
    size := s.plat.emsPageSize
    enabled := s.emsMode && (s.slot k).enabled
    gen := (s.rgnAt (.ems k)).gen
    cls := .bypass
    backing := .direct .ram (s.plat.emsBackingBase + (s.slot k).page.toNat * s.plat.emsPageSize) }

/-- The record is one that a general Region can have: disabled when it is not registered, and with a range and a backing that
R110 lets through when it is. -/
def generalRecordOk (p : Platform) (r : Region) : Prop :=
  (r.valid = false → r.enabled = false)
    ∧ (r.valid = true →
      (0 < r.size ∧ r.base % p.regionAlign = 0 ∧ r.size % p.regionAlign = 0 ∧ r.base + r.size ≤ 2 ^ p.addrBits)
      ∧ (∀ h dw, r.backing = .hooks h dw → h < p.nHooks)
      ∧ (∀ off, r.backing = .direct .smram off → 0 < p.smramSize))

theorem State.owned_gen_iff (s : State) (i : Nat) : s.owned (.gen i) ↔ generalRecordOk s.plat (s.rgnAt (.gen i)) := Iff.rfl

theorem shown_eq (smm : Bool) (W : SmramWindow) : shown smm W = (W.active && (smm || W.allowR || W.allowW)) := by
  unfold shown visibleRead visibleWrite
  cases smm <;> rfl

/-- A record with its enabled flag as the owner says, in one equation. -/
theorem Region.enabled_and_eq_iff (r x : Region) (b : Bool) :
    (r.enabled = b ∧ r = { x with enabled := r.enabled }) ↔ r = { x with enabled := b } := by
  constructor
  · rintro ⟨rfl, h⟩
    exact h
  · intro h
    have he : r.enabled = b := congrArg Region.enabled h
    exact ⟨he, by rw [he]; exact h⟩

theorem State.owned_smr_iff (s : State) (w : Nat) :
    s.owned (.smr w) ↔ (w < s.plat.nSmram → s.rgnAt (.smr w) = s.windowRegion w) := by
  unfold State.owned State.ownerAgrees State.regionFits
  rw [← forall_and]
  refine forall_congr' fun _ => ?_
  simp only [← shown_eq]
  exact Region.enabled_and_eq_iff (s.rgnAt (.smr w)) (s.windowRegion w) _

theorem State.owned_ems_iff (s : State) (k : Nat) :
    s.owned (.ems k) ↔ (k < s.plat.nEms → s.rgnAt (.ems k) = s.slotRecord k) := by
  unfold State.owned State.ownerAgrees State.regionFits
  rw [← forall_and]
  exact forall_congr' fun _ => Region.enabled_and_eq_iff (s.rgnAt (.ems k)) (s.slotRecord k) _

end Sys2Proof.Machine
end

section
/-! PROOFS. `State.Sound` is kept: one rule for each operation of the state, then the operations of the controllers and their
loops. -/

namespace Sys2Proof.Machine

/-! ### The generations (R26, R27) -/

theorem State.GensOk.of_rgn {s t : State} (h : s.GensOk) (hr : t.rgn = s.rgn) (hg : s.genCtr ≤ t.genCtr) : t.GensOk := by
  have hat : ∀ id, t.rgnAt id = s.rgnAt id := State.rgnAt_congr s t hr
  refine ⟨fun id id' => ?_, fun id => ?_⟩
  · rw [hat, hat]
    exact h.unique id id'
  · rw [hat]
    exact (h.bound id).trans hg

/-- One record changes: its generation is within the counter, and when it ends enabled it was enabled with that generation or
the generation is fresh. -/
theorem State.GensOk.change {s t : State} (h : s.GensOk) (id : RegionId) (hg : s.genCtr ≤ t.genCtr)
    (ho : ∀ id', id' ≠ id → t.rgnAt id' = s.rgnAt id') (hb : (t.rgnAt id).gen ≤ t.genCtr)
    (he : (t.rgnAt id).enabled = true →
      ((s.rgnAt id).enabled = true ∧ (t.rgnAt id).gen = (s.rgnAt id).gen) ∨ s.genCtr < (t.rgnAt id).gen) : t.GensOk := by
  have distinct : ∀ id', id' ≠ id → (t.rgnAt id).enabled = true → (t.rgnAt id').enabled = true →
      (t.rgnAt id).gen ≠ (t.rgnAt id').gen := by
    intro id' hne h1 h2 hgen
    rw [ho id' hne] at h2 hgen
    rcases he h1 with ⟨h1, hsame⟩ | hfresh
    · exact hne (h.unique id id' h1 h2 (hsame ▸ hgen)).symm
    · have := h.bound id'
      omega
  refine ⟨fun a b ha hb hab => ?_, fun a => ?_⟩
  · by_cases h1 : a = id
    · by_cases h2 : b = id
      · rw [h1, h2]
      · exact absurd (h1 ▸ hab) (distinct b h2 (h1 ▸ ha) hb)
    · by_cases h2 : b = id
      · exact absurd (h2 ▸ hab.symm) (distinct a h1 (h2 ▸ hb) ha)
      · rw [ho a h1] at ha hab
        rw [ho b h2] at hb hab
        exact h.unique a b ha hb hab
  · by_cases h1 : a = id
    · rw [h1]
      exact hb
    · rw [ho a h1]
      exact (h.bound a).trans hg

theorem State.GensOk.setRgn {s : State} (h : s.GensOk) (id : RegionId) (r : Region) (hg : r.gen ≤ s.genCtr)
    (he : r.enabled = true → (s.rgnAt id).enabled = true ∧ r.gen = (s.rgnAt id).gen) : (s.setRgn id r).GensOk := by
  by_cases hid : s.hasRgn id
  · have hat := s.rgnAt_setRgn_same id r hid
    refine h.change id (by simp) (fun id' hne => s.rgnAt_setRgn_other id id' r hne) ?_ ?_ <;> rw [hat]
    · simpa using hg
    · exact fun hen => .inl (he hen)
  · rwa [s.setRgn_absent id r hid]

theorem State.GensOk.enableRgn {s : State} (h : s.GensOk) (id : RegionId) : (s.enableRgn id).GensOk := by
  have hle : s.genCtr ≤ (s.enableRgn id).genCtr := by
    rw [State.enableRgn_genCtr]
    split <;> omega
  by_cases hid : s.hasRgn id
  · have hat := s.rgnAt_enableRgn id
    refine h.change id hle (fun id' hne => by rw [hat id' hid, if_neg (fun hc => hne hc.1)]) ?_ ?_ <;> rw [hat id hid]
    · cases hen : (s.rgnAt id).enabled
      · simp [State.enableRgn_genCtr, hen]
      · simpa [State.enableRgn_genCtr, hen] using h.bound id
    · cases hen : (s.rgnAt id).enabled <;> simp [hen]
  · refine h.of_rgn ?_ hle
    unfold State.enableRgn
    split
    · rfl
    · rw [State.setRgn_absent]
      · rfl
      · exact hid

/-! ### The operations -/

namespace State.Sound

variable {s : State}

/-- The registers of every window fit, a window that does not exist included: it reads as an inactive one. -/
theorem window_fits (h : s.Sound) (w : Nat) : windowFits s.plat (s.window w) := by
  unfold State.window
  rw [List.getD_eq_getElem?_getD]
  cases hw : s.smw[w]? with
  | none => simp [windowFits, SmramWindow.cleared]
  | some W => exact h.widths.1 W (List.mem_of_getElem? hw)

theorem setRgn (h : s.Sound) (id : RegionId) (r : Region) (hg : r.gen ≤ s.genCtr)
    (he : r.enabled = true → (s.rgnAt id).enabled = true ∧ r.gen = (s.rgnAt id).gen) : (s.setRgn id r).Sound where
  plat_wf := by simpa using h.plat_wf
  lengths := by simpa using h.lengths
  memory := by simpa using h.memory
  policies := by simpa using h.policies
  a20 := by simpa using h.a20
  gens := h.gens.setRgn id r hg he
  widths := by simpa using h.widths
  invals := by simpa using h.invals

/-- A record whose range, class and backing are rewritten keeps its flag and its generation. -/
theorem reshape (h : s.Sound) (id : RegionId) (r : Region) (hg : r.gen = (s.rgnAt id).gen)
    (he : r.enabled = true → (s.rgnAt id).enabled = true) : (s.setRgn id r).Sound :=
  h.setRgn id r (hg ▸ h.gens.bound id) (fun hen => ⟨he hen, hg⟩)

theorem disableRgn (h : s.Sound) (id : RegionId) : (s.disableRgn id).Sound :=
  h.reshape id _ rfl (fun he => by simp at he)

theorem enableRgn (h : s.Sound) (id : RegionId) : (s.enableRgn id).Sound where
  plat_wf := by simpa using h.plat_wf
  lengths := by simpa using h.lengths
  memory := by simpa using h.memory
  policies := by simpa using h.policies
  a20 := by simpa using h.a20
  gens := h.gens.enableRgn id
  widths := by simpa using h.widths
  invals := by simpa using h.invals

theorem policyFill (h : s.Sound) (base size : Nat) (pair : PolicyPair) (hb : base + size ≤ 2 ^ s.plat.addrBits) :
    (s.policyFill base size pair).Sound := by
  obtain ⟨hrw, hww, hr, hw⟩ := h.policies
  obtain ⟨hrw', hww', hr', hw'⟩ := State.tablesFit_policyFill s s ⟨hrw, hww, rfl, rfl⟩ rfl base size pair hb
  exact { h with gens := h.gens.of_rgn rfl (Nat.le_refl _), policies := ⟨hrw', hww', hr'.trans hr, hw'.trans hw⟩ }

theorem setWindow (h : s.Sound) (w : Nat) (W : SmramWindow) (hW : windowFits s.plat W) : (s.setWindow w W).Sound :=
  { h with
    gens := h.gens.of_rgn rfl (Nat.le_refl _)
    lengths := by simpa using h.lengths
    widths := ⟨fun V hV => (List.mem_or_eq_of_mem_set hV).elim (h.widths.1 V) (fun e => e ▸ hW), h.widths.2⟩ }

theorem setSlot (h : s.Sound) (k : Nat) (S : EmsSlot) (hS : S.page.toNat < 2 ^ s.plat.emsPageBits) : (s.setSlot k S).Sound :=
  { h with
    gens := h.gens.of_rgn rfl (Nat.le_refl _)
    lengths := by simpa using h.lengths
    widths := ⟨h.widths.1, fun T hT => (List.mem_or_eq_of_mem_set hT).elim (h.widths.2 T) (fun e => e ▸ hS)⟩ }

theorem setA20 (h : s.Sound) (k : Nat) (v : Bool) : (s.setA20 k v).Sound :=
  { h with gens := h.gens.of_rgn rfl (Nat.le_refl _), a20 := rfl }

theorem setSmm (h : s.Sound) (smm : Bool) : State.Sound { s with smm := smm } :=
  { h with gens := h.gens.of_rgn rfl (Nat.le_refl _) }

theorem setEmsMode (h : s.Sound) (on : Bool) : State.Sound { s with emsMode := on } :=
  { h with gens := h.gens.of_rgn rfl (Nat.le_refl _) }

theorem setSreg (h : s.Sound) (r : Nat) (v : Byte) : State.Sound { s with sreg := s.sreg.set r v } :=
  { h with gens := h.gens.of_rgn rfl (Nat.le_refl _), lengths := by simpa using h.lengths }

/-- A byte written inside its array (R21). -/
theorem arrWrite (h : s.Sound) (arr : Arr) (off : Nat) (b : Byte) (ho : off < s.arrSize arr) : (s.arrWrite arr off b).Sound := by
  obtain ⟨hrw, hrb, hsw, hsb, hrom⟩ := h.memory
  cases arr with
  | ram => exact { h with
      gens := h.gens.of_rgn rfl (Nat.le_refl _)
      memory := ⟨Memory.wf_write _ _ _ hrw, Memory.below_write _ _ _ _ hrb ho, hsw, hsb, hrom⟩ }
  | rom => exact h
  | smram => exact { h with
      gens := h.gens.of_rgn rfl (Nat.le_refl _)
      memory := ⟨hrw, hrb, Memory.wf_write _ _ _ hsw, Memory.below_write _ _ _ _ hsb ho, hrom⟩ }

theorem arrWriteLe (h : s.Sound) (arr : Arr) (off : Nat) (v : Word) (n : Nat) (ho : off + n ≤ s.arrSize arr) :
    (s.arrWriteLe arr off v n).Sound := by
  induction n with
  | zero => exact h
  | succ n ih =>
    have hsize : (s.arrWriteLe arr off v n).arrSize arr = s.arrSize arr :=
      State.arrSize_congr _ _ (by rw [State.arrWriteLe_frame]) arr
    exact (ih (by omega)).arrWrite arr _ _ (by omega)

/-! ### The controllers -/

theorem fillWindow (h : s.Sound) (w : Nat) : (s.fillWindow w).Sound := by
  unfold State.fillWindow
  split
  · next ha =>
    obtain ⟨-, -, -, hb⟩ := h.window_fits w ha
    exact h.policyFill _ _ _ hb
  · exact h

theorem showWindow (h : s.Sound) (w : Nat) : (s.showWindow w).Sound := by
  unfold State.showWindow
  split
  · exact h.enableRgn _
  · exact h.disableRgn _

theorem placeWindow (h : s.Sound) (w : Nat) : (s.placeWindow w).Sound := h.reshape _ _ rfl id

theorem smrApply (h : s.Sound) (w : Nat) : (s.smrApply w).Sound := ((h.placeWindow w).showWindow w).fillWindow w

theorem refreshSmram (h : s.Sound) (w : Nat) : (s.refreshSmram w).Sound := by
  unfold State.refreshSmram
  split
  · exact h.smrApply w
  · exact h

theorem hideWindow (h : s.Sound) (w : Nat) : (s.hideWindow w).Sound :=
  (h.disableRgn _).setWindow w _ (fun ha => by simp at ha)

theorem emsApply (h : s.Sound) (k : Nat) : (s.emsApply k).Sound := by
  have hset : (s.setRgn (.ems k) (s.slotRegion k)).Sound := h.reshape _ _ rfl (fun he => by simp [State.slotRegion] at he)
  unfold State.emsApply
  split
  · exact hset.enableRgn _
  · exact hset

theorem refreshWindow (h : s.Sound) (i : Nat) : (s.refreshWindow i).Sound := by
  unfold State.refreshWindow
  split
  · next w hw => exact h.policyFill _ _ _ (Platform.window_end_le s.plat h.plat_wf i w hw)
  · exact h

/-- A loop whose passes keep it keeps it. -/
theorem loop (h : s.Sound) (n : Nat) (f : Nat → State → State) (hf : ∀ i t, t.Sound → (f i t).Sound) :
    (forRange n f s).Sound :=
  forRange_induction (fun _ t => t.Sound) n f s h (fun i t _ ht => hf i t ht)

end State.Sound

end Sys2Proof.Machine
end

section
/-! PROOFS. The invariant is kept: by the bookkeeping of every command, by the Region commands, and by the commands of the
controllers, which tie the Regions to their registers again. -/

namespace Sys2Proof.Machine

/-! ### What a Region's tie to its owner depends on -/

theorem State.owned_gen_congr {s t : State} (hp : t.plat = s.plat) {i : Nat} (hr : t.rgnAt (.gen i) = s.rgnAt (.gen i)) :
    t.owned (.gen i) ↔ s.owned (.gen i) := by
  rw [State.owned_gen_iff, State.owned_gen_iff, hp, hr]

theorem State.owned_smr_congr {s t : State} (hp : t.plat = s.plat) {w : Nat} (hr : t.rgnAt (.smr w) = s.rgnAt (.smr w))
    (hw : t.window w = s.window w) (hm : t.smm = s.smm) : t.owned (.smr w) ↔ s.owned (.smr w) := by
  rw [State.owned_smr_iff, State.owned_smr_iff, State.windowRegion, State.windowRegion, hp, hr, hw, hm]

theorem State.owned_ems_congr {s t : State} (hp : t.plat = s.plat) {k : Nat} (hr : t.rgnAt (.ems k) = s.rgnAt (.ems k))
    (hs : t.slot k = s.slot k) (hm : t.emsMode = s.emsMode) : t.owned (.ems k) ↔ s.owned (.ems k) := by
  rw [State.owned_ems_iff, State.owned_ems_iff, State.slotRecord, State.slotRecord, hp, hr, hs, hm]

/-- The parameters and the registers of the owners are those of s. -/
structure State.SameOwners (s t : State) : Prop where
  plat : t.plat = s.plat
  smw : t.smw = s.smw
  smm : t.smm = s.smm
  emsSlot : t.emsSlot = s.emsSlot
  emsMode : t.emsMode = s.emsMode

theorem State.SameRest.sameOwners {s t : State} (h : s.SameRest t) (hw : t.smw = s.smw) (hs : t.emsSlot = s.emsSlot) :
    s.SameOwners t := ⟨h.plat, hw, h.smm, hs, h.emsMode⟩

theorem State.SameOwners.owned_iff {s t : State} (h : s.SameOwners t) {id : RegionId} (hr : t.rgnAt id = s.rgnAt id) :
    t.owned id ↔ s.owned id := by
  cases id with
  | gen i => exact State.owned_gen_congr h.plat hr
  | smr w => exact State.owned_smr_congr h.plat hr (State.window_congr s t h.smw w) h.smm
  | ems k => exact State.owned_ems_congr h.plat hr (State.slot_congr s t h.emsSlot k) h.emsMode

namespace State.Inv

variable {s : State}

theorem sound (h : s.Inv) : s.Sound := ((State.inv_iff s).1 h).1

theorem owned (h : s.Inv) (id : RegionId) : s.owned id := ((State.inv_iff s).1 h).2 id

theorem of_sound (h : s.Sound) (ho : ∀ id, s.owned id) : s.Inv := (State.inv_iff s).2 ⟨h, ho⟩

/-- An operation that leaves the Region table and the owners' registers. -/
theorem of_rgn {t : State} (h : s.Inv) (ht : t.Sound) (hr : t.rgn = s.rgn) (ho : s.SameOwners t) : t.Inv :=
  of_sound ht (fun id => (ho.owned_iff (State.rgnAt_congr s t hr id)).2 (h.owned id))

/-! ### Bookkeeping -/

/-- The invariant does not speak of `stale`, `cp`, the fault and result records, the host's packets and the draws, and of the
log only through its INVAL entries. -/
theorem bookkeeping {t : State} (h : s.Inv)
    (ht : t = { s with
      stale := t.stale, invalCount := t.invalCount, events := t.events, fault := t.fault, cp := t.cp, cmds := t.cmds
      result := t.result, draws := t.draws })
    (hi : invalNumbers t.events = (List.range t.invalCount).map (· + 1)) : t.Inv := by
  have hs : t.Sound := by
    rw [ht]
    exact { h.sound with gens := h.sound.gens.of_rgn rfl (Nat.le_refl _), invals := hi }
  refine h.of_rgn hs (by rw [ht]) ⟨?_, ?_, ?_, ?_, ?_⟩ <;> rw [ht]

theorem done (h : s.Inv) (d : ResultData) : (s.done d).Inv := h.bookkeeping rfl h.invals

theorem fail (h : s.Inv) (e : Status) : (s.fail e).Inv := h.bookkeeping rfl h.invals

theorem takeStaleMap (h : s.Inv) (kind : FaultKind) (a : Word) : (s.takeStaleMap kind a).Inv := h.bookkeeping rfl h.invals

theorem haltedCommand (h : s.Inv) : s.haltedCommand.Inv := h.bookkeeping rfl h.invals

theorem setCmds (h : s.Inv) (rest : List Packet) : State.Inv { s with cmds := rest } := h.bookkeeping rfl h.invals

theorem noteMapChange (h : s.Inv) (before : State) : (before.noteMapChange s).Inv := h.bookkeeping rfl h.invals

end State.Inv

/-! ### The event log (R36) -/

theorem invalNumbers_append (es fs : List Event) : invalNumbers (es ++ fs) = invalNumbers es ++ invalNumbers fs := by
  induction es with
  | nil => rfl
  | cons e es ih => cases e <;> simp [invalNumbers, ih]

/-- A read logs no invalidation. -/
theorem State.invalNumbers_memRead (s : State) (ag : Agent) (a : Word) (n : Width) :
    invalNumbers (s.memRead ag a n).1.events = invalNumbers s.events := by
  unfold State.memRead
  split
  · next reason _ _ => cases reason <;> simp [State.noteDrop, State.log, invalNumbers_append, invalNumbers]
  · rfl
  · unfold State.hookRead
    split <;> simp [State.hookRead1, invalNumbers_append, invalNumbers]

/-- A write logs no invalidation. -/
theorem State.invalNumbers_memWrite (s : State) (ag : Agent) (a : Word) (n : Width) (v : Word) :
    invalNumbers (s.memWrite ag a n v).events = invalNumbers s.events := by
  unfold State.memWrite
  split
  · next reason _ _ => cases reason <;> simp [State.noteDrop, State.log, invalNumbers_append, invalNumbers]
  · rw [State.arrWriteLe_frame]
  · unfold State.hookWrite
    split <;> simp [State.hookWrite1, State.log, invalNumbers_append, invalNumbers]

/-! ### Accesses -/

/-- A write through a hook set changes the log alone (R70). -/
theorem State.hookWrite_frame (s : State) (k : Nat) (dw : Bool) (a off : Nat) (n : Width) (v : Word) :
    s.hookWrite k dw a off n v = { s with events := (s.hookWrite k dw a off n v).events } := by
  unfold State.hookWrite
  split <;> rfl

/-- A routed access ends inside its array (R66, R67). -/
theorem State.route_direct_end {s : State} {ag : Agent} {aIn : Word} {n : Width} {kind : Kind} {id : RegionId} {arr : Arr}
    {off a : Nat} (h : s.route ag aIn n kind = .direct id arr off a) : off + widthBytes n ≤ s.arrSize arr := by
  unfold State.route State.routeAt at h
  split at h
  · cases h
  · unfold State.routeTo at h
    split at h
    · split at h
      · cases h
      · cases h
        omega
    · cases h

namespace State.Inv

variable {s : State}

theorem invalidate (h : s.Inv) : s.invalidate.Inv :=
  h.bookkeeping rfl (by simp [invalNumbers_append, invalNumbers, h.invals, List.range_succ])

theorem memRead (h : s.Inv) (ag : Agent) (a : Word) (n : Width) : (s.memRead ag a n).1.Inv := by
  have hf := s.memRead_frame ag a n
  refine h.bookkeeping (hf.trans ?_) ?_
  · rw [hf]
  · rw [s.invalNumbers_memRead, h.invals, hf]

theorem memWrite (h : s.Inv) (ag : Agent) (a : Word) (n : Width) (v : Word) : (s.memWrite ag a n v).Inv := by
  have hinv := s.invalNumbers_memWrite ag a n v
  cases hr : s.route ag a n .write with
  | direct id arr off m =>
    rw [s.memWrite_direct ag a n v id arr off m hr]
    refine h.of_rgn (h.sound.arrWriteLe arr off v _ (State.route_direct_end hr)) ?_ ⟨?_, ?_, ?_, ?_, ?_⟩ <;>
      rw [State.arrWriteLe_frame]
  | fill reason m =>
    rw [s.memWrite_fill ag a n v reason m hr] at hinv ⊢
    cases reason with
    | outOfRange => exact h.bookkeeping rfl (hinv.trans h.invals)
    | noRegion => exact h
    | policyDisabled => exact h
  | hook id k m off =>
    rw [s.memWrite_hook ag a n v id k m off hr] at hinv ⊢
    have hf := s.hookWrite_frame k (backingDword (s.rgnAt id).backing) m off n v
    refine h.bookkeeping (hf.trans ?_) ?_
    · rw [hf]
    · rw [hinv, h.invals, hf]

end State.Inv

end Sys2Proof.Machine
end

section
/-! PROOFS. The commands that change Regions keep the invariant: each leaves every Region tied to its owner again. -/

namespace Sys2Proof.Machine

/-! ### General Regions (40_region.md) -/

theorem State.registered_valid {s : State} {h : Byte} (hr : s.registered h = true) : (s.rgnAt (.gen h.toNat)).valid = true := by
  simp only [State.registered, Bool.and_eq_true] at hr
  exact hr.2

/-- The backing of a command that R110 lets through. -/
theorem backingOf_legal {p : Platform} {bk : BackingCode} {wB : Word} (dw : Bool) (hb : validBacking p bk wB = true) :
    (∀ h d, backingOf bk wB dw = .hooks h d → h < p.nHooks)
      ∧ ∀ off, backingOf bk wB dw = .direct .smram off → 0 < p.smramSize := by
  obtain ⟨hs, hh⟩ := (validBacking_iff p bk wB).1 hb
  cases bk with
  | ram => simp [backingOf]
  | rom => simp [backingOf]
  | smram => simpa [backingOf] using hs rfl
  | hooks => simpa [backingOf] using hh rfl

/-- The lowest free handle names a record. -/
theorem State.hasRgn_of_freeHandle {s : State} {i : Nat} (h : s.freeHandle = some i) : s.hasRgn (.gen i) := by
  obtain ⟨hi, -⟩ := List.findIdx?_eq_some_iff_findIdx_eq.1 h
  exact hi

namespace State.Inv

variable {s : State}

theorem setGeneral (h : s.Inv) (i : Nat) (r : Region) (hr : generalRecordOk s.plat r) (hg : r.gen ≤ s.genCtr)
    (he : r.enabled = true → (s.rgnAt (.gen i)).enabled = true ∧ r.gen = (s.rgnAt (.gen i)).gen) :
    (s.setRgn (.gen i) r).Inv := by
  by_cases hid : s.hasRgn (.gen i)
  · refine of_sound (h.sound.setRgn _ r hg he) (fun id => ?_)
    by_cases hi : id = .gen i
    · rw [hi, State.owned_gen_iff, s.rgnAt_setRgn_same _ r hid, State.setRgn_plat]
      exact hr
    · exact (((s.sameRest_setRgn _ r).sameOwners (by simp) (by simp)).owned_iff (s.rgnAt_setRgn_other _ id r hi)).2
        (h.owned id)
  · rwa [s.setRgn_absent _ r hid]

/-- A general Region whose range or backing is rewritten keeps its flag and its generation. -/
theorem reshapeGeneral (h : s.Inv) (i : Nat) (r : Region) (hr : generalRecordOk s.plat r)
    (hg : r.gen = (s.rgnAt (.gen i)).gen) (he : r.enabled = true → (s.rgnAt (.gen i)).enabled = true) :
    (s.setRgn (.gen i) r).Inv :=
  h.setGeneral i r hr (hg ▸ h.gen_bound _) (fun hen => ⟨he hen, hg⟩)

theorem enableGeneral (h : s.Inv) (i : Nat) (hv : (s.rgnAt (.gen i)).valid = true) : (s.enableRgn (.gen i)).Inv := by
  have hat := fun id => s.rgnAt_enableRgn (.gen i) id (s.hasRgn_of_valid _ hv)
  refine of_sound (h.sound.enableRgn _) (fun id => ?_)
  by_cases hi : id = .gen i ∧ (s.rgnAt (.gen i)).enabled = false
  · rw [hi.1, State.owned_gen_iff, hat, if_pos ⟨rfl, hi.2⟩, State.enableRgn_plat]
    exact ⟨fun hn => absurd (hv.symm.trans hn) (by simp), (h.owned (.gen i)).2⟩
  · exact (((s.sameRest_enableRgn _).sameOwners (by simp) (by simp)).owned_iff (by rw [hat, if_neg hi])).2 (h.owned id)

theorem disableGeneral (h : s.Inv) (i : Nat) : (s.disableRgn (.gen i)).Inv :=
  h.reshapeGeneral i _ ⟨fun _ => rfl, (h.owned (.gen i)).2⟩ rfl (fun he => by simp at he)

theorem setBase (h : s.Inv) (i base : Nat) (hv : validRange s.plat base (s.rgnAt (.gen i)).size = true) :
    (s.setRgn (.gen i) { s.rgnAt (.gen i) with base := base }).Inv := by
  obtain ⟨hoff, hon⟩ := h.owned (.gen i)
  exact h.reshapeGeneral i _ ⟨hoff, fun hval => ⟨(validRange_iff _ _ _).1 hv, (hon hval).2⟩⟩ rfl id

theorem setBacking (h : s.Inv) (i : Nat) {bk : BackingCode} {wB : Word} (dw : Bool) (hb : validBacking s.plat bk wB = true) :
    (s.setRgn (.gen i) { s.rgnAt (.gen i) with backing := backingOf bk wB dw }).Inv := by
  obtain ⟨hoff, hon⟩ := h.owned (.gen i)
  exact h.reshapeGeneral i _ ⟨hoff, fun hval => ⟨(hon hval).1, backingOf_legal dw hb⟩⟩ rfl id

theorem registerAt (h : s.Inv) {i : Nat} (hi : s.hasRgn (.gen i)) (en : Bool) (cls : RegionClass) {bk : BackingCode} (dw : Bool)
    {base size wB : Word} (hr : validRange s.plat base.toNat size.toNat = true) (hb : validBacking s.plat bk wB = true) :
    (s.registerAt i en (newRegion cls bk dw base size wB)).Inv := by
  have hset : (s.setRgn (.gen i) (newRegion cls bk dw base size wB)).Inv :=
    h.setGeneral i _ ⟨fun _ => rfl, fun _ => ⟨(validRange_iff _ _ _).1 hr, backingOf_legal dw hb⟩⟩ (Nat.zero_le _)
      (fun he => by simp [newRegion] at he)
  unfold State.registerAt
  split
  · exact hset.enableGeneral i (by rw [s.rgnAt_setRgn_same _ _ hi]; rfl)
  · exact hset

end State.Inv

/-! ### SMRAM windows (44_smram.md) -/

theorem shown_inactive (smm : Bool) {W : SmramWindow} (h : W.active = false) : shown smm W = false := by simp [shown, h]

theorem State.Inv.smr_record {s : State} (h : s.Inv) {w : Nat} (hw : w < s.plat.nSmram) :
    s.rgnAt (.smr w) = s.windowRegion w := (s.owned_smr_iff w).1 (h.owned _) hw

theorem State.Inv.smr_valid {s : State} (h : s.Inv) {w : Nat} (hw : w < s.plat.nSmram) : (s.rgnAt (.smr w)).valid = true := by
  rw [h.smr_record hw]
  rfl

/-- A window's Region is tied to its registers when SmrApply's record stands there (R181). -/
theorem State.owned_smr_of_applied {s t : State} {w : Nat} (hv : (s.rgnAt (.smr w)).valid = true)
    (hw : t.window w = s.window w) (hm : t.smm = s.smm)
    (h : t.rgnAt (.smr w) = { s.appliedWindow w with gen := (t.rgnAt (.smr w)).gen }) : t.owned (.smr w) := by
  refine (t.owned_smr_iff w).2 (fun _ => h.trans ?_)
  simp only [State.appliedWindow, State.windowRegion, hv, hw, hm]

/-- SmrApply ties window w to its registers and leaves every other Region (R181). -/
theorem State.Sound.inv_smrApply {s : State} (h : s.Sound) (w : Nat) (hv : (s.rgnAt (.smr w)).valid = true)
    (ho : ∀ id, id ≠ .smr w → s.owned id) : (s.smrApply w).Inv := by
  have hat := fun id => s.rgnAt_smrApply w id (s.hasRgn_of_valid _ hv)
  have hsame : s.SameOwners (s.smrApply w) := (s.sameRest_smrApply w).sameOwners (by simp) (by simp)
  refine .of_sound (h.smrApply w) (fun id => ?_)
  by_cases hi : id = .smr w
  · rw [hi]
    refine State.owned_smr_of_applied hv (State.window_congr _ _ hsame.smw w) hsame.smm ?_
    rw [hat, if_pos rfl]
  · exact (hsame.owned_iff (by rw [hat, if_neg hi])).2 (ho id hi)

namespace State.Inv

variable {s : State}

theorem hideWindow (h : s.Inv) (w : Nat) : (s.hideWindow w).Inv := by
  have hrest : s.SameRest (s.hideWindow w) := (s.sameRest_disableRgn _).trans (State.sameRest_setWindow _ _ _)
  refine of_sound (h.sound.hideWindow w) (fun id => ?_)
  have hat := s.rgnAt_hideWindow w id
  cases id with
  | gen i => exact (State.owned_gen_congr hrest.plat (by rw [hat, if_neg (by simp)])).2 (h.owned _)
  | ems k => exact (State.owned_ems_congr hrest.plat (by rw [hat, if_neg (by simp)]) rfl hrest.emsMode).2 (h.owned _)
  | smr v =>
    by_cases hv : v = w
    · subst hv
      refine (State.owned_smr_iff _ v).2 (fun hlt => ?_)
      rw [State.windowRegion, hat, if_pos rfl, State.window_hideWindow, if_pos rfl, h.smr_record (hrest.plat ▸ hlt),
        shown_inactive _ rfl]
      rfl
    · refine (State.owned_smr_congr hrest.plat (by rw [hat, if_neg (by simpa using hv)]) ?_ hrest.smm).2 (h.owned _)
      rw [State.window_hideWindow, if_neg hv]

theorem hideWindows (h : s.Inv) (n : Nat) : (forRange n State.hideWindow s).Inv :=
  forRange_induction (fun _ t => t.Inv) n _ s h (fun i _ _ ht => ht.hideWindow i)

theorem establishWindow (h : s.Inv) {w : Nat} (hw : w < s.plat.nSmram) (W : SmramWindow) (hW : windowFits s.plat W) :
    (s.establishWindow w W).Inv := by
  have hat := (s.setWindow w W).rgnAt_disableRgn (.smr w)
  refine ((h.sound.setWindow w W hW).disableRgn _).inv_smrApply w ?_ (fun id hne => ?_)
  · rw [hat, if_pos rfl, State.rgnAt_setWindow]
    exact h.smr_valid hw
  · have hr : ((s.setWindow w W).disableRgn (.smr w)).rgnAt id = s.rgnAt id := by
      rw [hat, if_neg hne, State.rgnAt_setWindow]
    cases id with
    | gen i => exact (State.owned_gen_congr (by simp) hr).2 (h.owned _)
    | ems k => exact (State.owned_ems_congr (by simp) hr (State.slot_congr _ _ (by simp) k) (by simp)).2 (h.owned _)
    | smr v =>
      refine (State.owned_smr_congr (by simp) hr ?_ (by simp)).2 (h.owned _)
      simp only [State.window, State.disableRgn_smw, State.setWindow_smw]
      exact getD_set_other _ _ _ _ _ (fun e => hne (by rw [e]))

theorem setSmm (h : s.Inv) (smm : Bool) : (forRange s.plat.nSmram State.refreshSmram { s with smm := smm }).Inv := by
  have hb := refreshedBelow_forRange { s with smm := smm } s.plat.nSmram (Nat.le_of_eq h.lengths.2.1.symm)
  refine of_sound ((h.sound.setSmm smm).loop _ _ (fun w _ ht => ht.refreshSmram w)) (fun id => ?_)
  generalize forRange s.plat.nSmram State.refreshSmram { s with smm := smm } = t at hb
  have hplat : t.plat = s.plat := hb.rest.plat
  cases id with
  | gen i => exact (State.owned_gen_congr hplat (hb.others _ (by simp))).2 (h.owned _)
  | ems k =>
    exact (State.owned_ems_congr hplat (hb.others _ (by simp)) (State.slot_congr s t hb.emsSlot k) hb.rest.emsMode).2 (h.owned _)
  | smr w =>
    have hwin : t.window w = s.window w := State.window_congr s t hb.smw w
    by_cases hw : w < s.plat.nSmram
    · cases ha : (s.window w).active with
      | true => exact State.owned_smr_of_applied (s := { s with smm := smm }) (h.smr_valid hw) hwin hb.rest.smm (hb.applied w hw ha)
      | false =>
        have hold : t.rgnAt (.smr w) = s.rgnAt (.smr w) :=
          hb.others _ (fun v _ hv e => by cases e; exact absurd (ha.symm.trans hv) (by simp))
        refine (t.owned_smr_iff w).2 (fun _ => (hold.trans (h.smr_record hw)).trans ?_)
        simp only [State.windowRegion, hwin, hold, shown_inactive _ ha]
    · exact (t.owned_smr_iff w).2 (fun hlt => absurd (hplat ▸ hlt) hw)

/-! ### EMS slots (45_ems.md) -/

theorem ems_valid (h : s.Inv) {k : Nat} (hk : k < s.plat.nEms) : (s.rgnAt (.ems k)).valid = true := by
  rw [(s.owned_ems_iff k).1 (h.owned _) hk]
  rfl

end State.Inv

/-- A slot's Region is tied to its registers when EmsApply's record stands there (R200). -/
theorem State.owned_ems_of_applied {s t : State} {k : Nat} (hv : (s.rgnAt (.ems k)).valid = true) (hp : t.plat = s.plat)
    (hs : t.slot k = s.slot k) (hm : t.emsMode = s.emsMode)
    (h : t.rgnAt (.ems k) = { s.appliedSlot k with gen := (t.rgnAt (.ems k)).gen }) : t.owned (.ems k) := by
  refine (t.owned_ems_iff k).2 (fun _ => h.trans ?_)
  simp only [State.appliedSlot, State.slotRegion, State.slotRecord, hv, hp, hs, hm]

namespace State.Inv

variable {s : State}

theorem setSlot (h : s.Inv) {k : Nat} (hk : k < s.plat.nEms) (S : EmsSlot) (hS : S.page.toNat < 2 ^ s.plat.emsPageBits) :
    (State.emsApply k (s.setSlot k S)).Inv := by
  have hv : ((s.setSlot k S).rgnAt (.ems k)).valid = true := by
    rw [State.rgnAt_setSlot]
    exact h.ems_valid hk
  have hat := fun id => (s.setSlot k S).rgnAt_emsApply k id (State.hasRgn_of_valid _ _ hv)
  have hrest := (s.setSlot k S).sameRest_emsApply k
  have hslot := fun j => State.slot_congr (s.setSlot k S) _ (State.emsApply_emsSlot _ k) j
  refine of_sound ((h.sound.setSlot k S hS).emsApply k) (fun id => ?_)
  by_cases hi : id = .ems k
  · rw [hi]
    refine State.owned_ems_of_applied hv hrest.plat (hslot k) hrest.emsMode ?_
    rw [hat, if_pos rfl]
  · have hr : (State.emsApply k (s.setSlot k S)).rgnAt id = s.rgnAt id := by rw [hat, if_neg hi, State.rgnAt_setSlot]
    cases id with
    | gen i => exact (State.owned_gen_congr (s := s) hrest.plat hr).2 (h.owned _)
    | smr w => exact (State.owned_smr_congr (s := s) hrest.plat hr (State.window_congr _ _ (by simp) w) hrest.smm).2 (h.owned _)
    | ems j =>
      refine (State.owned_ems_congr (s := s) hrest.plat hr ((hslot j).trans ?_) hrest.emsMode).2 (h.owned _)
      simp only [State.slot, State.setSlot_emsSlot]
      exact getD_set_other _ _ _ _ _ (fun e => hi (by rw [e]))

theorem setEmsMode (h : s.Inv) (on : Bool) : (forRange s.plat.nEms State.emsApply { s with emsMode := on }).Inv := by
  have hb := appliedBelow_forRange { s with emsMode := on } s.plat.nEms (Nat.le_of_eq h.lengths.2.2.1.symm)
  refine of_sound ((h.sound.setEmsMode on).loop _ _ (fun k _ ht => ht.emsApply k)) (fun id => ?_)
  generalize forRange s.plat.nEms State.emsApply { s with emsMode := on } = t at hb
  have hplat : t.plat = s.plat := hb.rest.plat
  cases id with
  | gen i => exact (State.owned_gen_congr hplat (hb.others _ (by simp))).2 (h.owned _)
  | smr w =>
    exact (State.owned_smr_congr hplat (hb.others _ (by simp)) (State.window_congr s t hb.smw w) hb.rest.smm).2 (h.owned _)
  | ems k =>
    by_cases hk : k < s.plat.nEms
    · exact State.owned_ems_of_applied (s := { s with emsMode := on }) (h.ems_valid hk) hb.rest.plat
        (State.slot_congr _ t hb.emsSlot k) hb.rest.emsMode (hb.applied k hk)
    · exact (t.owned_ems_iff k).2 (fun hlt => absurd (hplat ▸ hlt) hk)

end State.Inv

end Sys2Proof.Machine
end

section
/-! PROOFS. The state at power-on (10_state.md R44, 46_control.md R222) has the invariant, every effect keeps it, and so does
every step. -/

namespace Sys2Proof.Machine

/-! ### Power-on and RESET -/

theorem State.rgnAt_powerOn_gen (p : Platform) (i : Nat) : (State.powerOn p).rgnAt (.gen i) = Region.unregistered := by
  simp [State.rgnAt, State.powerOn]

theorem State.rgnAt_powerOn_smr {p : Platform} {w : Nat} (hw : w < p.nSmram) :
    (State.powerOn p).rgnAt (.smr w) = Region.smramOwned :=
  List.getD_replicate _ hw

theorem State.rgnAt_powerOn_ems {p : Platform} {k : Nat} (hk : k < p.nEms) :
    (State.powerOn p).rgnAt (.ems k) = Region.emsOwned p (p.emsVbase.getD k 0) := by
  simp [State.rgnAt, State.powerOn, List.getD_eq_getElem?_getD, hk]

@[simp] theorem State.window_powerOn (p : Platform) (w : Nat) : (State.powerOn p).window w = SmramWindow.cleared := by
  simp [State.window, State.powerOn]

@[simp] theorem State.slot_powerOn (p : Platform) (k : Nat) : (State.powerOn p).slot k = EmsSlot.cleared := by
  simp [State.slot, State.powerOn]

/-- No Region is enabled at power-on, and none has taken a generation. -/
theorem State.disabled_powerOn (p : Platform) (id : RegionId) :
    ((State.powerOn p).rgnAt id).enabled = false ∧ ((State.powerOn p).rgnAt id).gen = 0 := by
  by_cases h : (State.powerOn p).hasRgn id
  · cases id with
    | gen i => rw [State.rgnAt_powerOn_gen]; exact ⟨rfl, rfl⟩
    | smr w => rw [State.rgnAt_powerOn_smr (by simpa [State.hasRgn, State.powerOn] using h)]; exact ⟨rfl, rfl⟩
    | ems k => rw [State.rgnAt_powerOn_ems (by simpa [State.hasRgn, State.powerOn] using h)]; exact ⟨rfl, rfl⟩
  · rw [State.rgnAt_absent _ _ h]
    exact ⟨rfl, rfl⟩

/-- The parts of a legal platform that the state at power-on takes over (R5). -/
theorem Platform.wf_parts {p : Platform} (hp : p.wf = true) :
    (Memory.wf p.ramInit ∧ Memory.below p.ramInit p.ramSize ∧ Memory.wf p.smramInit ∧ Memory.below p.smramInit p.smramSize)
      ∧ PolicyTable.wf p.resetRead p.numGranules = true ∧ PolicyTable.wf p.resetWrite p.numGranules = true := by
  simp only [Platform.wf, Platform.sizesWf, Platform.resetPolicyWf, Bool.and_eq_true, decide_eq_true_eq] at hp
  tauto

theorem State.sound_powerOn {p : Platform} (hp : p.wf = true) : (State.powerOn p).Sound := by
  obtain ⟨⟨hrw, hrb, hsw, hsb⟩, hread, hwrite⟩ := Platform.wf_parts hp
  refine
    { plat_wf := hp
      lengths := by simp [State.powerOn]
      memory := ⟨hrw, hrb, hsw, hsb, rfl⟩
      policies := ⟨hread, hwrite, rfl, rfl⟩
      a20 := rfl
      gens := ⟨fun id _ he => ?_, fun id => ?_⟩
      widths := ⟨fun W hW ha => ?_, fun S hS => ?_⟩
      invals := rfl }
  · rw [(State.disabled_powerOn p id).1] at he
    cases he
  · rw [(State.disabled_powerOn p id).2]
    exact Nat.zero_le _
  · rw [List.eq_of_mem_replicate hW] at ha
    cases ha
  · rw [List.eq_of_mem_replicate hS]
    exact Nat.two_pow_pos _

theorem State.inv_powerOn {p : Platform} (hp : p.wf = true) : (State.powerOn p).Inv := by
  refine .of_sound (State.sound_powerOn hp) (fun id => ?_)
  cases id with
  | gen i =>
    rw [State.owned_gen_iff, State.rgnAt_powerOn_gen]
    exact ⟨fun _ => rfl, fun hv => by cases hv⟩
  | smr w =>
    refine (State.owned_smr_iff _ w).2 (fun hw => ?_)
    rw [State.windowRegion, State.rgnAt_powerOn_smr (p := p) hw, State.window_powerOn]
    rfl
  | ems k =>
    refine (State.owned_ems_iff _ k).2 (fun hk => ?_)
    rw [State.slotRecord, State.rgnAt_powerOn_ems (p := p) hk, State.slot_powerOn]
    simp [Region.emsOwned, State.powerOn, EmsSlot.cleared]

/-- RESET (R221): power-on, but for the arrays, which stay as they are. -/
theorem State.Inv.resetBlock {s : State} (h : s.Inv) : s.resetBlock.Inv := by
  have hon := State.inv_powerOn h.plat_wf
  obtain ⟨hrw, hrb, hsw, hsb, -⟩ := h.memory
  refine hon.of_rgn { hon.sound with memory := ⟨hrw, hrb, hsw, hsb, rfl⟩, gens := hon.sound.gens.of_rgn rfl (Nat.le_refl _) }
    rfl ⟨rfl, rfl, rfl, rfl, rfl⟩

/-! ### Every step -/

theorem State.Inv.shadowRecalc {s : State} (h : s.Inv) : s.shadowRecalc.Inv := by
  have hb := (writtenBelow_forRange s s.plat.shadow.win.length).frame
  have hs := h.sound.loop s.plat.shadow.win.length _ (fun i _ ht => ht.refreshWindow i)
  refine State.Inv.invalidate (h.of_rgn hs ?_ ⟨?_, ?_, ?_, ?_, ?_⟩) <;> rw [hb]

/-- The registers that SMRAM_ENABLE lets through fit the address space (R183). -/
theorem windowFits_newWindow {p : Platform} {sep : Bool} {visible size : Word} (ar aw : Bool) (host : Word)
    (h : smramArgsOk p sep visible size = true) : windowFits p (newWindow ar aw sep host visible size) := by
  simp only [smramArgsOk, Bool.and_eq_true] at h
  obtain ⟨hz, hv, hs, hb⟩ := (granuleRange_iff _ _ _).1 h.1
  exact fun _ => ⟨hz, hv, hs, hb⟩

theorem Effect.inv {i : Instr} {s u : State} (hu : Effect i s u) (h : s.Inv) : u.Inv := by
  cases hu with
  | register hr hb hf => exact (h.registerAt (State.hasRgn_of_freeHandle hf) _ _ _ hr hb).noteMapChange s
  | enable hr => exact (h.enableGeneral _ (State.registered_valid hr)).noteMapChange s
  | disable hr => exact (h.disableGeneral _).noteMapChange s
  | setBase hr hv => exact (h.setBase _ _ hv).noteMapChange s
  | setBacking hr hb => exact (h.setBacking _ _ hb).noteMapChange s
  | setPolicy hr =>
    obtain ⟨-, -, -, hend⟩ := (granuleRange_iff _ _ _).1 hr
    exact (h.of_rgn (h.sound.policyFill _ _ _ hend) rfl ⟨rfl, rfl, rfl, rfl, rfl⟩).noteMapChange s
  | getPolicy => exact h
  | decode => exact h
  | read => exact h.memRead _ _ _
  | write => exact h.memWrite _ _ _ _
  | shadowWrite hr => exact (h.of_rgn (h.sound.setSreg _ _) rfl ⟨rfl, rfl, rfl, rfl, rfl⟩).shadowRecalc
  | shadowRead => exact h
  | shadowRecalc => exact h.shadowRecalc
  | a20Change => exact (h.of_rgn (h.sound.setA20 _ _) rfl ⟨rfl, rfl, rfl, rfl, rfl⟩).invalidate
  | a20Keep => exact (h.of_rgn (h.sound.setA20 _ _) rfl ⟨rfl, rfl, rfl, rfl, rfl⟩).noteMapChange s
  | a20Get => exact h
  | smramDisableAll => exact (h.hideWindows _).noteMapChange s
  | smramEnable hw ha => exact (h.establishWindow hw _ (windowFits_newWindow _ _ _ ha)).noteMapChange s
  | smramSetSmm => exact (h.setSmm _).invalidate
  | emsSetSlot hs hp => exact (h.setSlot hs _ hp).invalidate
  | emsSetMode => exact (h.setEmsMode _).invalidate
  | invalidate => exact h.invalidate
  | reset => exact h.resetBlock

theorem Ends.inv {i : Instr} {s t : State} (ht : Ends i s t) (h : s.Inv) : t.Inv := by
  cases ht with
  | fails e => exact h.fail e
  | faults kind addr => exact h.takeStaleMap kind addr
  | does u d hu => exact (hu.inv h).done d

/-- What one step can do: nothing while no packet waits; else, with the packet taken, the answer of a halted block or of an
illegal packet, or what the command does. -/
theorem step_cases {s t : State} (h : step s = .next t) :
    t = s ∨ ∃ s', (∃ rest, s' = { s with cmds := rest }) ∧
      (t = s'.haltedCommand ∨ t = s'.illegalCommand ∨ ∃ i, Ends i s' t) := by
  unfold step runNext at h
  split at h
  · cases h
    exact .inl rfl
  · next pkt rest _ =>
    refine .inr ⟨_, ⟨rest, rfl⟩, ?_⟩
    unfold runPacket at h
    split at h
    · cases h
      exact .inl rfl
    · split at h
      · cases h
        exact .inr (.inl rfl)
      · next i _ => exact .inr (.inr ⟨i, ends_of_exec h⟩)

/-- Settles O51: every outcome of a step is a chain of operations that each keep the invariant. -/
theorem everyStepKeepsInv : Obligations.EveryStepKeepsInv := by
  intro s t h hst
  rcases step_cases hst with rfl | ⟨s', ⟨rest, rfl⟩, rfl | rfl | ⟨i, hi⟩⟩
  · exact h
  · exact (h.setCmds rest).haltedCommand
  · exact (h.setCmds rest).fail .errIllegal
  · exact hi.inv (h.setCmds rest)

/-- Settles O50: power-on is legal on a legal platform. -/
theorem invHoldsAtPowerOn : Obligations.InvHoldsAtPowerOn := fun _ hp => State.inv_powerOn hp

end Sys2Proof.Machine
end

section
/-! PROOFS. What each command writes (10_state.md R42): for every operation the parts of the state it can change, as one
equation, and from these the commands' own statements. -/

namespace Sys2Proof.Machine

/-! ### The frames of the operations -/

/-- An operation of the Region registry leaves the partitions and registers of the controllers (R23, R116). -/
theorem State.registerAt_frame (s : State) (i : Nat) (en : Bool) (r : Region) :
    s.registerAt i en r = { s with
      rgn := { s.rgn with gen := (s.registerAt i en r).rgn.gen }, genCtr := (s.registerAt i en r).genCtr } := by
  unfold State.registerAt State.enableRgn
  split
  · split <;> rfl
  · rfl

/-- An operation that leaves what the SMRAM manager does not write is s with the SMRAM manager's parts of its result. -/
theorem State.SameRest.smram_update {s t : State} (h : s.SameRest t) (hg : t.rgn.gen = s.rgn.gen) (he : t.rgn.ems = s.rgn.ems)
    (hs : t.emsSlot = s.emsSlot) :
    t = { s with
      rgn := { s.rgn with smr := t.rgn.smr }, genCtr := t.genCtr, rpol := t.rpol, wpol := t.wpol, smw := t.smw } := by
  have hrgn : t.rgn = ⟨s.rgn.gen, t.rgn.smr, s.rgn.ems⟩ := by rw [← hg, ← he]
  conv_lhs => rw [h.update, hrgn, hs]

/-- An operation that leaves what the EMS controller does not write is s with the EMS controller's parts of its result. -/
theorem State.SameRest.ems_update {s t : State} (h : s.SameRest t) (hg : t.rgn.gen = s.rgn.gen) (hm : t.rgn.smr = s.rgn.smr)
    (hr : t.rpol = s.rpol) (hw : t.wpol = s.wpol) (hs : t.smw = s.smw) :
    t = { s with rgn := { s.rgn with ems := t.rgn.ems }, genCtr := t.genCtr, emsSlot := t.emsSlot } := by
  have hrgn : t.rgn = ⟨s.rgn.gen, s.rgn.smr, t.rgn.ems⟩ := by rw [← hg, ← hm]
  conv_lhs => rw [h.update, hrgn, hr, hw, hs]

theorem State.sameRest_hideWindow (s : State) (w : Nat) : s.SameRest (s.hideWindow w) :=
  (s.sameRest_disableRgn _).trans (State.sameRest_setWindow _ _ _)

theorem State.sameRest_refreshSmram (s : State) (w : Nat) : s.SameRest (s.refreshSmram w) := by
  unfold State.refreshSmram
  split
  · exact s.sameRest_smrApply w
  · exact .refl s

/-- SMRAM_DISABLE_ALL (R182): the SMRAM partition and the window registers. -/
theorem State.hideWindows_frame (s : State) (n : Nat) :
    forRange n State.hideWindow s = { s with
      rgn := { s.rgn with smr := (forRange n State.hideWindow s).rgn.smr }, smw := (forRange n State.hideWindow s).smw } := by
  have hb := hiddenBelow_forRange s n
  have hf := hb.rest.smram_update (forRange_keeps s (·.rgn.gen) n _ (fun i t => (t.hideWindow_partitions i).1))
    (forRange_keeps s (·.rgn.ems) n _ (fun i t => (t.hideWindow_partitions i).2.1)) hb.emsSlot
  rwa [hb.genCtr, hb.policies.1, hb.policies.2] at hf

/-- SMRAM_ENABLE (R183): the SMRAM partition, the counter, the policies and the window registers. -/
theorem State.establishWindow_frame (s : State) (w : Nat) (W : SmramWindow) :
    s.establishWindow w W = { s with
      rgn := { s.rgn with smr := (s.establishWindow w W).rgn.smr }, genCtr := (s.establishWindow w W).genCtr
      rpol := (s.establishWindow w W).rpol, wpol := (s.establishWindow w W).wpol, smw := (s.establishWindow w W).smw } := by
  have hrest : s.SameRest (s.establishWindow w W) :=
    ((s.sameRest_setWindow w W).trans (State.sameRest_disableRgn _ _)).trans (State.sameRest_smrApply _ w)
  obtain ⟨hg, he⟩ := ((s.setWindow w W).disableRgn (.smr w)).smrApply_partitions w
  exact hrest.smram_update hg he (by simp [State.establishWindow])

/-- The loop of SMRAM_SET_SMM (R184): the SMRAM partition, the counter and the policies. -/
theorem State.refreshSmrams_frame (s : State) (n : Nat) :
    forRange n State.refreshSmram s = { s with
      rgn := { s.rgn with smr := (forRange n State.refreshSmram s).rgn.smr }
      genCtr := (forRange n State.refreshSmram s).genCtr, rpol := (forRange n State.refreshSmram s).rpol
      wpol := (forRange n State.refreshSmram s).wpol } := by
  have hp := fun (i : Nat) (t : State) => t.refreshSmram_partitions i
  have hf := (forRange_sameRest n _ s (fun i t => t.sameRest_refreshSmram i)).smram_update
    (forRange_keeps s (·.rgn.gen) n _ (fun i t => (hp i t).1)) (forRange_keeps s (·.rgn.ems) n _ (fun i t => (hp i t).2.1))
    (forRange_keeps s (·.emsSlot) n _ (fun i t => (hp i t).2.2.2))
  rwa [forRange_keeps s (·.smw) n _ (fun i t => (hp i t).2.2.1)] at hf

/-- EmsApply (R200): the EMS partition and the counter. -/
theorem State.emsApply_frame (s : State) (k : Nat) :
    s.emsApply k = { s with rgn := { s.rgn with ems := (s.emsApply k).rgn.ems }, genCtr := (s.emsApply k).genCtr } := by
  obtain ⟨hg, hm⟩ := s.emsApply_partitions k
  have hf := (s.sameRest_emsApply k).ems_update hg hm (by simp) (by simp) (by simp)
  rwa [s.emsApply_emsSlot] at hf

/-- The loop of EMS_SET_MODE (R202): the EMS partition and the counter. -/
theorem State.emsApplies_frame (s : State) (n : Nat) :
    forRange n State.emsApply s = { s with
      rgn := { s.rgn with ems := (forRange n State.emsApply s).rgn.ems }
      genCtr := (forRange n State.emsApply s).genCtr } := by
  refine forRange_induction (fun _ t => t = { s with rgn := { s.rgn with ems := t.rgn.ems }, genCtr := t.genCtr }) n _ s rfl ?_
  intro i t _ ht
  rw [State.emsApply_frame, ht]

/-- ShadowRecalc (R154): the policies, and the invalidation. -/
theorem State.shadowRecalc_frame (s : State) :
    s.shadowRecalc = State.invalidate { s with rpol := s.shadowRecalc.rpol, wpol := s.shadowRecalc.wpol } :=
  congrArg State.invalidate (writtenBelow_forRange s s.plat.shadow.win.length).frame

/-! ### The commands -/

/-- No effect but that of RESET touches the fault record, and none touches `cp` (R38, R39). -/
theorem Effect.cp_fault {i : Instr} {s u : State} (hu : Effect i s u) :
    u.cp = s.cp ∧ (opOf i ≠ .reset → u.fault = s.fault) ∧ (opOf i = .reset → u.fault = none) := by
  cases hu with
  | register => rw [State.registerAt_frame]; simp [opOf]
  | enable => simp [opOf]
  | disable => simp [opOf]
  | setBase => simp [opOf]
  | setBacking => simp [opOf]
  | setPolicy => simp [opOf]
  | getPolicy => simp [opOf]
  | decode => simp [opOf]
  | read => rw [State.memRead_frame]; simp [opOf]
  | write => rw [State.memWrite_frame]; simp [opOf]
  | shadowWrite => rw [State.shadowRecalc_frame]; simp [opOf]
  | shadowRead => simp [opOf]
  | shadowRecalc => rw [State.shadowRecalc_frame]; simp [opOf]
  | a20Change => simp [opOf]
  | a20Keep => simp [opOf]
  | a20Get => simp [opOf]
  | smramDisableAll => rw [State.hideWindows_frame]; simp [opOf]
  | smramEnable => rw [State.establishWindow_frame]; simp [opOf]
  | smramSetSmm => rw [State.refreshSmrams_frame]; simp [opOf]
  | emsSetSlot => rw [State.emsApply_frame]; simp [opOf]
  | emsSetMode => rw [State.emsApplies_frame]; simp [opOf]
  | invalidate => simp [opOf]
  | reset => exact ⟨rfl, fun h => absurd rfl h, fun _ => rfl⟩

/-- Settles O8: of the three ways a command can end, only the stale-map fault keeps `cp`. -/
theorem everyCommandEndsAndAdvances : Obligations.EveryCommandEndsAndAdvances := by
  intro i s
  obtain ⟨t, ht, he⟩ := exec_cases i s
  refine ⟨t, ht, fun hn => ?_⟩
  cases he with
  | fails e => exact .inl ⟨rfl, hn⟩
  | faults kind addr hs hi => exact .inr ⟨rfl, by simp, hs, rfl, hi⟩
  | does u d hu =>
    obtain ⟨hcp, hkeep, hreset⟩ := hu.cp_fault
    refine .inl ⟨congrArg (· + 1) hcp, ?_⟩
    by_cases hi : opOf i = .reset
    · exact hreset hi
    · exact (hkeep hi).trans hn

/-- Settles O54: each way a command can end writes the parts that its frame names. -/
theorem eachPartHasItsWriters : Obligations.EachPartHasItsWriters := by
  intro i s t h
  cases ends_of_exec h with
  | fails e hi => simp [hi]
  | faults kind addr hs hi => rcases hi with ⟨n, f, a, rfl⟩ | ⟨n, a, v, rfl⟩ <;> simp [opOf, hs]
  | does u d hu =>
    cases hu with
    | register => rw [State.registerAt_frame]; simp [opOf]
    | enable => simp [opOf]
    | disable => simp [opOf]
    | setBase => simp [opOf]
    | setBacking => simp [opOf]
    | setPolicy => simp [opOf]
    | getPolicy => simp [opOf]
    | decode => simp [opOf]
    | read => rw [State.memRead_frame]; simp [opOf]
    | write => rw [State.memWrite_frame]; simp [opOf]
    | shadowWrite => rw [State.shadowRecalc_frame]; simp [opOf]
    | shadowRead => simp [opOf]
    | shadowRecalc => rw [State.shadowRecalc_frame]; simp [opOf]
    | a20Change => simp [opOf]
    | a20Keep => simp [opOf]
    | a20Get => simp [opOf]
    | smramDisableAll => rw [State.hideWindows_frame]; simp [opOf]
    | smramEnable => rw [State.establishWindow_frame]; simp [opOf]
    | smramSetSmm => rw [State.refreshSmrams_frame]; simp [opOf]
    | emsSetSlot => rw [State.emsApply_frame]; simp [opOf]
    | emsSetMode => rw [State.emsApplies_frame]; simp [opOf]
    | invalidate => simp [opOf]
    | reset => simp [opOf, State.resetBlock, State.powerOn]

/-- Settles O5: the branches of a step that are left when the block is not halted and the packet decodes. -/
theorem stepRunsTheDecodedCommand : Obligations.StepRunsTheDecodedCommand := by
  intro s pkt rest i hf hc hd
  simp only [step, runNext, hc, runPacket, State.halted, hf, Option.isSome_none, Bool.false_eq_true, if_false, hd]

/-- Settles O47: power-on writes the values out, and its tables repeat one entry. -/
theorem powerOnValues : Obligations.PowerOnValues := by
  intro p
  exact ⟨rfl, rfl, rfl, fun i _ => State.rgnAt_powerOn_gen p i, fun _ hw => State.rgnAt_powerOn_smr hw,
    fun _ hk => State.rgnAt_powerOn_ems hk, rfl, rfl, rfl, fun _ hr => List.getElem?_replicate_of_lt hr, rfl, rfl,
    fun _ hw => List.getElem?_replicate_of_lt hw, rfl, rfl, fun _ hk => List.getElem?_replicate_of_lt hk,
    rfl, rfl, rfl, rfl, rfl⟩

/-- Settles O49: the vector platform is legal. -/
theorem invHoldsAtReset : Obligations.InvHoldsAtReset := State.inv_powerOn (by decide)

end Sys2Proof.Machine
end

section
/-! PROOFS. The access path (20_memory.md): the routing function against R61–R67 written out, what a route depends on (R71),
and the commands that go through hook sets (R70) or come back to the same array bytes (R80). -/

namespace Sys2Proof.Machine

/-! ### The routing function (R61–R67) -/

/-- The mask of R61 in one formula, for the open gate and the closed one. -/
theorem State.a20Mask_eq (s : State) (aIn : Word) :
    s.a20Mask aIn =
      if s.effectiveA20 = false ∧ (aIn.toNat % 2 ^ s.plat.addrBits).testBit 20 = true
        then aIn.toNat % 2 ^ s.plat.addrBits - 0x100000 else aIn.toNat % 2 ^ s.plat.addrBits := by
  cases hg : s.effectiveA20 with
  | true => simp [s.a20Mask_open aIn hg]
  | false => simp only [s.a20Mask_closed aIn hg, true_and]

/-- The agent rule of R63. -/
theorem agentPolicy_eq (ag : Agent) (q : Policy) :
    agentPolicy ag q = if ag = .bus ∧ q = .external then .disabled else q := by
  cases ag with
  | cpu => simp [agentPolicy]
  | bus => cases q <;> simp [agentPolicy]

theorem State.routeTo_direct (s : State) (a : Nat) (n : Width) (id : RegionId) {r : Region} {arr : Arr} {o : Nat}
    (hb : r.backing = .direct arr o) :
    s.routeTo a n id r =
      if o + (a - r.base) + widthBytes n > s.arrSize arr then .fill .outOfRange a
      else .direct id arr (o + (a - r.base)) a := by
  simp only [State.routeTo, hb]

theorem State.routeTo_hooks (s : State) (a : Nat) (n : Width) (id : RegionId) {r : Region} {h : Nat} {dw : Bool}
    (hb : r.backing = .hooks h dw) : s.routeTo a n id r = .hook id h a (a - r.base) := by
  simp only [State.routeTo, hb]

/-- A Region that claims the address, and is newer than every other that does, gets the access (R65, R66). -/
theorem State.routeAt_claimed (s : State) (ag : Agent) (a : Nat) (n : Width) (kind : Kind) (id : RegionId)
    (hc : claims (s.accessPolicy ag kind a) a (s.rgnAt id) = true)
    (hmax : ∀ id', id' ≠ id → claims (s.accessPolicy ag kind a) a (s.rgnAt id') = true →
      (s.rgnAt id').gen < (s.rgnAt id).gen) :
    s.routeAt ag a n kind = s.routeTo a n id (s.rgnAt id) := by
  simp only [State.routeAt, s.claimant_eq _ _ id hc hmax]

/-- An access that no Region claims is dropped (R65, R66). -/
theorem State.routeAt_unclaimed (s : State) (ag : Agent) (a : Nat) (n : Width) (kind : Kind)
    (hn : ∀ id, claims (s.accessPolicy ag kind a) a (s.rgnAt id) = false) :
    s.routeAt ag a n kind
      = .fill (if s.accessPolicy ag kind a = .disabled then .policyDisabled else .noRegion) a := by
  simp only [State.routeAt, (s.claimant_none _ _).2 hn]

/-- Settles O19: the mask, the policy and the claim conditions are the model's own, so the claimant decides. -/
theorem routeGoesToTheNewestClaimant : Obligations.RouteGoesToTheNewestClaimant := by
  intro s ag aIn n kind x a q p cl size hx ha hq hp hcl hram hrom hsmram
  have hmask : s.a20Mask aIn = a := by rw [s.a20Mask_eq, ha, hx]
  have hpol : s.accessPolicy ag kind a = p := by rw [State.accessPolicy, agentPolicy_eq, hp, hq]
  have hclaims : ∀ id, cl id ↔ claims (s.accessPolicy ag kind a) a (s.rgnAt id) = true := fun id => by
    rw [hcl, hpol, claims_iff]
  have hsize : ∀ arr, s.arrSize arr = size arr := fun arr => by
    cases arr with
    | ram => exact hram.symm
    | rom => exact hrom.symm
    | smram => exact hsmram.symm
  rw [State.route, hmask]
  refine ⟨fun id hid hmax => ?_, fun hnone => ?_⟩
  · rw [s.routeAt_claimed ag a n kind id ((hclaims id).1 hid) fun id' hne hc => hmax id' hne ((hclaims id').2 hc)]
    cases hb : (s.rgnAt id).backing with
    | direct arr o => rw [s.routeTo_direct a n id hb, hsize]
    | hooks h dw => exact s.routeTo_hooks a n id hb
  · rw [s.routeAt_unclaimed ag a n kind fun id => Bool.eq_false_iff.2 fun hc => hnone id ((hclaims id).2 hc), hpol]

/-! ### What a route depends on (R71) -/

/-- A route is a function of the Region table, the policies, the gate and the parameters. -/
theorem State.route_congr {s t : State} (hr : t.rgn = s.rgn) (hrp : t.rpol = s.rpol) (hwp : t.wpol = s.wpol)
    (hg : t.effectiveA20 = s.effectiveA20) (hp : t.plat = s.plat) (ag : Agent) (aIn : Word) (n : Width) (kind : Kind) :
    t.route ag aIn n kind = s.route ag aIn n kind := by
  have hmask : t.a20Mask aIn = s.a20Mask aIn := by simp only [State.a20Mask, hg, hp]
  have hpol : ∀ a, t.accessPolicy ag kind a = s.accessPolicy ag kind a := fun a => by
    rw [State.accessPolicy, State.accessPolicy, State.policyAt_congr s t hrp hwp, hp]
  have hcl : ∀ p a, t.claimant p a = s.claimant p a := fun p a => by
    simp only [State.claimant, State.regions, hr]
  have hto : ∀ a id r, t.routeTo a n id r = s.routeTo a n id r := fun a id r => by
    simp only [State.routeTo, State.arrSize_congr s t hp]
  simp only [State.route, State.routeAt, hmask, hpol, hcl, hto]

@[simp] theorem State.route_done (s : State) (d : ResultData) (ag : Agent) (aIn : Word) (n : Width) (kind : Kind) :
    (s.done d).route ag aIn n kind = s.route ag aIn n kind := State.route_congr rfl rfl rfl rfl rfl ag aIn n kind

/-- The bytes of the arrays are not asked for a route. -/
@[simp] theorem State.route_arrWriteLe (s : State) (arr : Arr) (off : Nat) (v : Word) (m : Nat) (ag : Agent) (aIn : Word)
    (n : Width) (kind : Kind) : (s.arrWriteLe arr off v m).route ag aIn n kind = s.route ag aIn n kind := by
  rw [s.arrWriteLe_frame]
  exact State.route_congr rfl rfl rfl rfl rfl ag aIn n kind

/-- Settles O20: DECODE only ends with its result, which no route depends on. -/
theorem decodeReportsTheRoute : Obligations.DecodeReportsTheRoute := fun _ _ _ _ s =>
  ⟨_, rfl, rfl, s.route_done _⟩

/-! ### READ and WRITE that are not stopped (R133, R135, R136) -/

theorem exec_read_of_fresh {s : State} {ag : Agent} (hs : ag = .bus ∨ s.stale = false) (n : Width) (fetch : Bool)
    (addr : Word) :
    exec (.read n ag fetch addr) s = .next ((s.memRead ag addr n).1.done (.value (s.memRead ag addr n).2)) := by
  simp only [exec, execRead, s.staleAccess_false ag hs, Bool.false_eq_true, if_false]

theorem exec_write_of_fresh {s : State} {ag : Agent} (hs : ag = .bus ∨ s.stale = false) (n : Width) (addr data : Word) :
    exec (.write n ag addr data) s = .next ((s.memWrite ag addr n (lowBytes n data)).done .none) := by
  simp only [exec, execWrite, s.staleAccess_false ag hs, Bool.false_eq_true, if_false]

/-! ### Hook calls (R70) -/

/-- The accesses that are one hook call. -/
theorem hookSplit_eq_false {n : Width} {dw : Bool} : hookSplit n dw = false ↔ n ≠ .dword ∨ dw = true := by
  simp [hookSplit, imp_iff_not_or]

theorem State.hookRead_one (s : State) {n : Width} {dw : Bool} (hd : n ≠ .dword ∨ dw = true) (h a off : Nat) :
    s.hookRead h dw a off n = s.hookRead1 h a off n := by
  simp only [State.hookRead, hookSplit_eq_false.2 hd, Bool.false_eq_true, if_false]

/-- Two word calls, each with a draw of its own. -/
theorem State.hookRead_two (s : State) (h a off : Nat) :
    s.hookRead h false a off .dword =
      ({ s with
          draws := s.draws + 2
          events := s.events ++ [Event.hookRd h a off .word (lowBytes .word (Config.hookDraw s.draws)),
            Event.hookRd h (a + 2) (off + 2) .word (lowBytes .word (Config.hookDraw (s.draws + 1)))] },
        lowBytes .word (Config.hookDraw s.draws) + lowBytes .word (Config.hookDraw (s.draws + 1)) * 0x10000) := by
  simp [State.hookRead, State.hookRead1, hookSplit]

theorem State.hookWrite_one (s : State) {n : Width} {dw : Bool} (hd : n ≠ .dword ∨ dw = true) (h a off : Nat) (v : Word) :
    s.hookWrite h dw a off n v = s.log (.hookWr h a off n v) := by
  simp only [State.hookWrite, hookSplit_eq_false.2 hd, Bool.false_eq_true, if_false, State.hookWrite1]

/-- Two word calls with the halves of the value. -/
theorem State.hookWrite_two (s : State) (h a off : Nat) (v : Word) :
    s.hookWrite h false a off .dword v =
      { s with
        events := s.events ++ [Event.hookWr h a off .word (BitVec.ofNat 32 (v.toNat % 0x10000)),
          Event.hookWr h (a + 2) (off + 2) .word (BitVec.ofNat 32 (v.toNat / 0x10000))] } := by
  rw [← and_low_half, ← shift_high_half]
  simp [State.hookWrite, State.hookWrite1, State.log, hookSplit]

/-- The condition for one call, from the backing of the Region that answers (R25). -/
theorem one_call_of_backing {n : Width} {bk : Backing} (hd : n ≠ .dword ∨ ∃ h, bk = .hooks h true) :
    n ≠ .dword ∨ backingDword bk = true :=
  hd.imp_right fun ⟨_, hb⟩ => by rw [hb]; rfl

/-- Settles O24: the answers are the draws of the calls. -/
theorem hookReadLogsItsCalls : Obligations.HookReadLogsItsCalls := by
  intro n ag fetch addr s id h a offR hs hroute
  rw [exec_read_of_fresh hs, s.memRead_hook ag addr n id h a offR hroute]
  refine ⟨fun hd => ?_, ?_⟩
  · rw [s.hookRead_one (one_call_of_backing hd)]
    exact ⟨lowBytes n (Config.hookDraw s.draws), lowBytes_lt n _, rfl⟩
  · rintro rfl ⟨h', hb⟩
    rw [hb, backingDword, s.hookRead_two]
    exact ⟨_, _, lowBytes_lt .word (Config.hookDraw s.draws), lowBytes_lt .word (Config.hookDraw (s.draws + 1)), rfl⟩

/-- Settles O27: the calls are log entries and nothing else. -/
theorem hookWriteLogsItsCalls : Obligations.HookWriteLogsItsCalls := by
  intro n ag addr data s id h a offR hs hroute
  rw [exec_write_of_fresh hs, s.memWrite_hook ag addr n _ id h a offR hroute]
  refine ⟨fun hd => ?_, ?_⟩
  · rw [s.hookWrite_one (one_call_of_backing hd)]
    rfl
  · rintro rfl ⟨h', hb⟩
    rw [hb, backingDword, lowBytes_dword, s.hookWrite_two]
    rfl

/-! ### A read after a write (R80) -/

/-- A read of an array depends on the array's bytes alone. -/
theorem State.arrReadLe_congr {s t : State} {arr : Arr} (h : ∀ off, t.arrRead arr off = s.arrRead arr off) (off n : Nat) :
    t.arrReadLe arr off n = s.arrReadLe arr off n :=
  word_ext _ _ fun k hk => by simp only [State.byteOf_arrReadLe _ _ _ _ _ hk, h]

@[simp] theorem State.arrReadLe_done (s : State) (d : ResultData) (arr : Arr) (off n : Nat) :
    (s.done d).arrReadLe arr off n = s.arrReadLe arr off n :=
  State.arrReadLe_congr (fun k => s.arrRead_congr (s.done d) rfl rfl rfl arr k) off n

/-- Settles O28: the write leaves the mapping and `stale` as they are, so the read takes its own route to the bytes just
written. -/
theorem readAfterWriteGivesTheData : Obligations.ReadAfterWriteGivesTheData := by
  intro n ag ag' fetch addr addr' data s id id' arr off a a' hs harr hw hr
  have hwrite : exec (.write n ag addr data) s
      = .next ((s.arrWriteLe arr off (lowBytes n data) (widthBytes n)).done .none) := by
    rw [exec_write_of_fresh (.inr hs), s.memWrite_direct ag addr n _ id arr off a hw]
  generalize hu : (s.arrWriteLe arr off (lowBytes n data) (widthBytes n)).done .none = u at hwrite
  have hstale : u.stale = false := by rw [← hu, State.arrWriteLe_frame]; exact hs
  have hroute : u.route ag' addr' n .read = .direct id' arr off a' := by
    rw [← hu, State.route_done, State.route_arrWriteLe, hr]
  have hbytes : u.arrReadLe arr off (widthBytes n) = lowBytes n data := by
    rw [← hu, State.arrReadLe_done, s.arrReadLe_arrWriteLe arr off _ n harr, lowBytes_idem]
  have hread : exec (.read n ag' fetch addr') u = .next (u.done (.value (lowBytes n data))) := by
    rw [exec_read_of_fresh (.inr hstale), u.memRead_direct ag' addr' n id' arr off a' hroute, hbytes]
  exact ⟨u.done (.value (lowBytes n data)), by simp only [execSeq, hwrite, hread], rfl⟩

end Sys2Proof.Machine
end

section
/-! PROOFS. The encoding (30_encoding.md R91–R98): what each B field says bit by bit, what the decoder accepts for each opcode,
and from these the two round trips and the list of the illegal packets. -/

namespace Sys2Proof

open Laws Machine

/-! ### Slices -/

/-- A slice is two bit strings exactly when its upper and its lower part are. -/
theorem slice_eq_append_iff {m n w : Nat} (x : BitVec m) (y : BitVec n) (z : BitVec w) (k : Nat) :
    z.extractLsb' k (m + n) = x ++ y ↔ z.extractLsb' (k + n) m = x ∧ z.extractLsb' k n = y := by
  rw [← BitVec.extractLsb'_append_extractLsb'_eq_extractLsb' rfl, append_eq_append]

/-- So is a whole word. -/
theorem append_eq_iff {m n : Nat} (x : BitVec m) (y : BitVec n) (z : BitVec (m + n)) :
    x ++ y = z ↔ z.extractLsb' n m = x ∧ z.extractLsb' 0 n = y := by
  conv_lhs => rhs; rw [← BitVec.extractLsb'_eq_self (x := z)]
  rw [eq_comm, slice_eq_append_iff, Nat.zero_add]

/-- A slice of one bit is a flag. -/
theorem slice_eq_flag_iff {w : Nat} (f : Bool) (z : BitVec w) (k : Nat) :
    z.extractLsb' k 1 = flag f ↔ z.getLsbD k = f := by
  have hz : z.extractLsb' k 1 = flag (z.getLsbD k) := by
    ext i hi
    obtain rfl : i = 0 := by omega
    simp [flag]
  rw [hz]
  cases f <;> cases z.getLsbD k <;> decide

/-- A field that a mask covers is 0 when the masked bits are. -/
theorem slice_eq_zero {w : Nat} {b m : BitVec w} (h : b &&& m = 0) (k n : Nat)
    (hm : m.extractLsb' k n = BitVec.allOnes n) : b.extractLsb' k n = 0 := by
  have hs : (b &&& m).extractLsb' k n = 0 := by rw [h]; simp
  rw [BitVec.extractLsb'_and, hm, BitVec.and_allOnes] at hs
  exact hs

/-- So is a bit that a mask covers. -/
theorem bit_eq_false {w : Nat} {b m : BitVec w} (h : b &&& m = 0) (k : Nat) (hm : m.getLsbD k = true) :
    b.getLsbD k = false := by
  have hs : (b &&& m).getLsbD k = false := by rw [h]; simp
  rw [BitVec.getLsbD_and, hm, Bool.and_true] at hs
  exact hs

/-! ### The B fields, highest bit first (R97) -/

theorem registerB_eq_iff (en : Bool) (cls : RegionClass) (bk : BackingCode) (dw : Bool) (b : Byte) :
    registerB en cls bk dw = b ↔ b.extractLsb' 6 2 = 0 ∧ b.getLsbD 5 = dw ∧ b.extractLsb' 3 2 = bk.code
      ∧ b.extractLsb' 1 2 = cls.code ∧ b.getLsbD 0 = en := by
  rw [registerB, append_eq_iff, slice_eq_append_iff, slice_eq_append_iff, slice_eq_append_iff, slice_eq_flag_iff,
    slice_eq_flag_iff]
  simp only [and_assoc]
  rfl

theorem backingB_eq_iff (bk : BackingCode) (dw : Bool) (b : Byte) :
    backingB bk dw = b ↔ b.extractLsb' 6 2 = 0 ∧ b.getLsbD 5 = dw ∧ b.extractLsb' 3 2 = bk.code
      ∧ b.extractLsb' 0 3 = 0 := by
  rw [backingB, append_eq_iff, slice_eq_append_iff, slice_eq_append_iff, slice_eq_flag_iff]
  simp only [and_assoc]
  rfl

theorem policyB_eq_iff (rp wp : Policy) (b : Byte) :
    policyB rp wp = b ↔ b.extractLsb' 4 4 = 0 ∧ b.extractLsb' 2 2 = wp.code ∧ b.extractLsb' 0 2 = rp.code := by
  rw [policyB, append_eq_iff, slice_eq_append_iff, and_assoc]
  rfl

theorem accessB_eq_iff (n : Width) (wr ag f : Bool) (b : Byte) :
    accessB n wr ag f = b ↔ b.extractLsb' 5 3 = 0 ∧ b.getLsbD 4 = f ∧ b.getLsbD 3 = ag ∧ b.getLsbD 2 = wr
      ∧ b.extractLsb' 0 2 = n.code := by
  rw [accessB, append_eq_iff, slice_eq_append_iff, slice_eq_append_iff, slice_eq_append_iff, slice_eq_flag_iff,
    slice_eq_flag_iff, slice_eq_flag_iff]
  simp only [and_assoc]
  rfl

theorem smramB_eq_iff (ar aw sep : Bool) (b : Byte) :
    smramB ar aw sep = b ↔ b.extractLsb' 3 5 = 0 ∧ b.getLsbD 2 = sep ∧ b.getLsbD 1 = aw ∧ b.getLsbD 0 = ar := by
  rw [smramB, append_eq_iff, slice_eq_append_iff, slice_eq_append_iff, slice_eq_flag_iff, slice_eq_flag_iff,
    slice_eq_flag_iff]
  simp only [and_assoc]
  rfl

theorem flagB_eq_iff (f : Bool) (b : Byte) : flagB f = b ↔ b.extractLsb' 1 7 = 0 ∧ b.getLsbD 0 = f := by
  rw [flagB, append_eq_iff, slice_eq_flag_iff]
  rfl

theorem flagB_bit (f : Bool) : (flagB f).getLsbD 0 = f := ((flagB_eq_iff f _).1 rfl).2

/-! ### The fields of a header -/

theorem bBit_header (o : Op) (a b : Byte) (k : Nat) : bBit (header o a b) k = b.getLsbD k := by
  rw [bBit, bField_header]

theorem bCode_header (o : Op) (a b : Byte) (k : Nat) : bCode (header o a b) k = b.extractLsb' k 2 := by
  rw [bCode, bField_header]

/-- A header that matches its row is made of its A and its B (R91). -/
theorem packet_of_match {o : Op} {h : Word} (hm : h &&& o.mask = o.pattern) {a b : Byte} (ha : a = aField h)
    (hb : b = bField h) (args : List Word) : header o a b :: args = h :: args := by
  obtain ⟨hop, -, -, hr⟩ := (matches_iff o h).1 hm
  rw [ha, hb, header_fields o h hop hr]

/-- An A that the row does not use is 0 (R98 item 3). -/
theorem aField_of_match {o : Op} {h : Word} (hm : h &&& o.mask = o.pattern) (hu : o.aMask = BitVec.allOnes 8) :
    0 = aField h := by
  obtain ⟨-, ha, -, -⟩ := (matches_iff o h).1 hm
  rw [hu, BitVec.and_allOnes] at ha
  exact ha.symm

/-- So is a B that the row does not use. -/
theorem bField_of_match {o : Op} {h : Word} (hm : h &&& o.mask = o.pattern) (hu : o.bMask = BitVec.allOnes 8) :
    0 = bField h := by
  obtain ⟨-, -, hb, -⟩ := (matches_iff o h).1 hm
  rw [hu, BitVec.and_allOnes] at hb
  exact hb.symm

/-! ### The field codes (R93–R95)

The class and the width codes have one value without a meaning, 3 (R98 item 4); a width of 4 needs HAS_DWORD besides (item 5),
and DW needs hooks (item 6). -/

theorem RegionClass.ofCode_eq_ok (c : BitVec 2) (r : RegionClass) : RegionClass.ofCode c = .ok r ↔ r.code = c :=
  ⟨RegionClass.code_of_ofCode c r, fun h => h ▸ RegionClass.ofCode_code r⟩

theorem Width.ofCode_eq_ok (hd : Bool) (c : BitVec 2) (n : Width) :
    Width.ofCode hd c = .ok n ↔ n.code = c ∧ n.supported hd = true :=
  ⟨Width.code_of_ofCode hd c n, fun ⟨hc, hs⟩ => hc ▸ Width.ofCode_code hd n hs⟩

theorem eq_zero_or_one_or_two {c : BitVec 2} (hc : c ≠ 3) : c = 0 ∨ c = 1 ∨ c = 2 := by
  revert c
  decide

theorem RegionClass.exists_code_iff (c : BitVec 2) : (∃ r : RegionClass, r.code = c) ↔ c ≠ 3 := by
  constructor
  · rintro ⟨r, rfl⟩
    cases r <;> decide
  · intro hc
    obtain rfl | rfl | rfl := eq_zero_or_one_or_two hc
    exacts [⟨.internal, rfl⟩, ⟨.external, rfl⟩, ⟨.bypass, rfl⟩]

theorem Width.exists_code_iff (hd : Bool) (c : BitVec 2) :
    (∃ n : Width, n.code = c ∧ n.supported hd = true) ↔ c ≠ 3 ∧ ¬ (c = 2 ∧ hd = false) := by
  constructor
  · rintro ⟨n, rfl, hs⟩
    cases n with
    | byte => exact ⟨by decide, fun h => absurd h.1 (by decide)⟩
    | word => exact ⟨by decide, fun h => absurd h.1 (by decide)⟩
    | dword => exact ⟨by decide, fun h => Bool.false_ne_true (h.2.symm.trans hs)⟩
  · rintro ⟨hc, hdw⟩
    obtain rfl | rfl | rfl := eq_zero_or_one_or_two hc
    exacts [⟨.byte, rfl, rfl⟩, ⟨.word, rfl, rfl⟩, ⟨.dword, rfl, by simpa [Width.supported] using hdw⟩]

theorem BackingCode.allowsDw_ofCode (c : BitVec 2) (dw : Bool) :
    (BackingCode.ofCode c).allowsDw dw = true ↔ ¬ (dw = true ∧ c ≠ 3) := by
  revert c dw
  decide

/-- A FETCH is the CPU's (R98 item 7). -/
theorem cpu_of_fetch_iff (fetch : Bool) (ag : Agent) :
    (!fetch || ag == .cpu) = true ↔ (fetch && ag.bit) = false := by
  cases fetch <;> cases ag <;> decide

/-! ### The commands with fields that can be illegal (R98 items 4–7)

For each of them, which headers it accepts and the command it reads there. -/

theorem decodeRegister_eq_ok (h w1 w2 w3 : Word) (i : Instr) :
    decodeRegister h w1 w2 w3 = .ok i ↔
      ∃ cls : RegionClass, cls.code = bCode h 1 ∧ (BackingCode.ofCode (bCode h 3)).allowsDw (bBit h 5) = true
        ∧ .register (bBit h 0) cls (BackingCode.ofCode (bCode h 3)) (bBit h 5) w1 w2 w3 = i := by
  simp only [← RegionClass.ofCode_eq_ok]
  unfold decodeRegister
  cases RegionClass.ofCode (bCode h 1) with
  | error e => simp
  | ok cls => simp only [Except.ok.injEq, exists_eq_left']; split <;> simp [*]

theorem decodeSetBacking_eq_ok (h w1 : Word) (i : Instr) :
    decodeSetBacking h w1 = .ok i ↔
      (BackingCode.ofCode (bCode h 3)).allowsDw (bBit h 5) = true
        ∧ .setBacking (aField h) (BackingCode.ofCode (bCode h 3)) (bBit h 5) w1 = i := by
  unfold decodeSetBacking
  split <;> simp [*]

theorem decodeDecode_eq_ok (hd : Bool) (h w1 : Word) (i : Instr) :
    decodeDecode hd h w1 = .ok i ↔
      ∃ n : Width, (n.code = bCode h 0 ∧ n.supported hd = true)
        ∧ .decode n (Kind.ofBit (bBit h 2)) (Agent.ofBit (bBit h 3)) w1 = i := by
  simp only [← Width.ofCode_eq_ok]
  unfold decodeDecode
  cases Width.ofCode hd (bCode h 0) with
  | error e => simp
  | ok n => simp

theorem decodeRead_eq_ok (hd : Bool) (h w1 : Word) (i : Instr) :
    decodeRead hd h w1 = .ok i ↔
      ∃ n : Width, (n.code = bCode h 0 ∧ n.supported hd = true) ∧ (bBit h 4 && bBit h 3) = false
        ∧ .read n (Agent.ofBit (bBit h 3)) (bBit h 4) w1 = i := by
  simp only [← Width.ofCode_eq_ok]
  unfold decodeRead
  cases Width.ofCode hd (bCode h 0) with
  | error e => simp
  | ok n => cases bBit h 4 && bBit h 3 <;> simp

theorem decodeWrite_eq_ok (hd : Bool) (h w1 w2 : Word) (i : Instr) :
    decodeWrite hd h w1 w2 = .ok i ↔
      ∃ n : Width, (n.code = bCode h 0 ∧ n.supported hd = true) ∧ .write n (Agent.ofBit (bBit h 3)) w1 w2 = i := by
  simp only [← Width.ofCode_eq_ok]
  unfold decodeWrite
  cases Width.ofCode hd (bCode h 0) with
  | error e => simp
  | ok n => simp

/-! ### A packet that decodes -/

/-- The opcode byte finds a command exactly when the command has that code. -/
theorem Op.ofCode_eq_some (c : Byte) (o : Op) : Op.ofCode c = some o ↔ o.code = c :=
  ⟨Op.code_of_ofCode c o, fun h => h ▸ Op.ofCode_code o⟩

/-- A packet decodes to i exactly when its opcode, its length and its reserved bits are right (R98 items 1–3) and its fields are
those of i. -/
theorem decode_eq_ok (hd : Bool) (h : Word) (args : List Word) (i : Instr) :
    decode hd (h :: args) = .ok i ↔
      ∃ o : Op, o.code = opField h ∧ args.length = o.argWords ∧ h &&& o.mask = o.pattern
        ∧ decodeFields hd o h (args.getD 0 0) (args.getD 1 0) (args.getD 2 0) = .ok i := by
  simp only [← Op.ofCode_eq_some]
  cases hop : Op.ofCode (opField h) with
  | none => simp [decode, hop]
  | some o =>
    simp only [decode, hop, Option.some.injEq, exists_eq_left']
    split
    · next hl => simp [hl]
    · next hl => split <;> simp_all

/-! ### Decoding what was encoded -/

/-- Every command has the shape of its row. -/
theorem packetShape : ∀ i : Instr, PacketShape.Statement i
  | .register .. => PacketShape.register ..
  | .enable .. => PacketShape.enable ..
  | .disable .. => PacketShape.disable ..
  | .setBase .. => PacketShape.setBase ..
  | .setBacking .. => PacketShape.setBacking ..
  | .setPolicy .. => PacketShape.setPolicy ..
  | .getPolicy .. => PacketShape.getPolicy ..
  | .decode .. => PacketShape.decode ..
  | .read .. => PacketShape.read ..
  | .write .. => PacketShape.write ..
  | .shadowWrite .. => PacketShape.shadowWrite ..
  | .shadowRead .. => PacketShape.shadowRead ..
  | .shadowRecalc => PacketShape.shadowRecalc
  | .a20Set .. => PacketShape.a20Set ..
  | .a20Get => PacketShape.a20Get
  | .smramDisableAll => PacketShape.smramDisableAll
  | .smramEnable .. => PacketShape.smramEnable ..
  | .smramSetSmm .. => PacketShape.smramSetSmm ..
  | .emsSetSlot .. => PacketShape.emsSetSlot ..
  | .emsSetMode .. => PacketShape.emsSetMode ..
  | .invalidate => PacketShape.invalidate
  | .reset => PacketShape.reset

/-- The packet of a command decodes to it when its fields do: the rest of the packet has the shape of its row. -/
theorem decode_encode_of_fields {hd : Bool} {i : Instr} {h : Word} {args : List Word} (he : encode i = h :: args)
    (hf : decodeFields hd (opOf i) h (args.getD 0 0) (args.getD 1 0) (args.getD 2 0) = .ok i) :
    decode hd (encode i) = .ok i := by
  obtain ⟨h', args', he', hop, hm, hl⟩ := packetShape i
  obtain ⟨rfl, rfl⟩ := List.cons.inj (he.symm.trans he')
  rw [he]
  exact (decode_eq_ok hd h args i).2 ⟨opOf i, hop.symm, hl, hm, hf⟩

/-- The decoder reads back the fields that the encoder wrote into A and B. -/
theorem decodeFields_encode {hd : Bool} {i : Instr} (hw : i.wf hd = true) {h : Word} {args : List Word}
    (he : encode i = h :: args) :
    decodeFields hd (opOf i) h (args.getD 0 0) (args.getD 1 0) (args.getD 2 0) = .ok i := by
  cases i <;> obtain ⟨rfl, rfl⟩ := List.cons.inj he
  case register en cls bk dw base size wB =>
    obtain ⟨-, hdw, hbk, hcls, hen⟩ := (registerB_eq_iff en cls bk dw _).1 rfl
    refine (decodeRegister_eq_ok _ _ _ _ _).2 ⟨cls, ?_⟩
    simp only [bBit_header, bCode_header, hdw, hbk, hcls, hen, BackingCode.ofCode_code, true_and]
    exact ⟨hw, rfl⟩
  case setBacking h bk dw wB =>
    obtain ⟨-, hdw, hbk, -⟩ := (backingB_eq_iff bk dw _).1 rfl
    refine (decodeSetBacking_eq_ok _ _ _).2 ?_
    simp only [aField_header, bBit_header, bCode_header, hdw, hbk, BackingCode.ofCode_code]
    exact ⟨hw, rfl⟩
  case setPolicy rp wp base size =>
    obtain ⟨-, hwp, hrp⟩ := (policyB_eq_iff rp wp _).1 rfl
    simp only [opOf, decodeFields, bCode_header, hwp, hrp, Policy.ofCode_code]
    rfl
  case decode n kind ag addr =>
    obtain ⟨-, -, hag, hwr, hn⟩ := (accessB_eq_iff n kind.bit ag.bit false _).1 rfl
    refine (decodeDecode_eq_ok _ _ _ _).2 ⟨n, ?_⟩
    simp only [bBit_header, bCode_header, hag, hwr, hn, Agent.ofBit_bit, Kind.ofBit_bit, true_and]
    exact ⟨hw, rfl⟩
  case read n ag fetch addr =>
    obtain ⟨-, hf, hag, -, hn⟩ := (accessB_eq_iff n false ag.bit fetch _).1 rfl
    obtain ⟨hs, hfetch⟩ := (Bool.and_eq_true _ _).mp hw
    have hbus := (cpu_of_fetch_iff fetch ag).1 hfetch
    refine (decodeRead_eq_ok _ _ _ _).2 ⟨n, ?_⟩
    simp only [bBit_header, bCode_header, hf, hag, hn, Agent.ofBit_bit, true_and]
    exact ⟨hs, hbus, rfl⟩
  case write n ag addr data =>
    obtain ⟨-, -, hag, -, hn⟩ := (accessB_eq_iff n false ag.bit false _).1 rfl
    refine (decodeWrite_eq_ok _ _ _ _ _).2 ⟨n, ?_⟩
    simp only [bBit_header, bCode_header, hag, hn, Agent.ofBit_bit, true_and]
    exact ⟨hw, rfl⟩
  case smramEnable w ar aw sep host visible size =>
    obtain ⟨-, hsep, haw, har⟩ := (smramB_eq_iff ar aw sep _).1 rfl
    simp only [opOf, decodeFields, aField_header, bBit_header, hsep, haw, har]
    rfl
  -- The other rows have no coded field: A, B or one flag in B, and words.
  all_goals
    simp only [opOf, decodeFields, aField_header, bField_header, bBit_header, flagB_bit, List.getD_cons_zero]

/-- Settles O1: the packet has the shape of its row, and its fields read back. -/
theorem decodeOfEncodeIsTheCommand : Obligations.DecodeOfEncodeIsTheCommand := by
  intro hd i hw
  obtain ⟨h, args, he, -⟩ := packetShape i
  exact decode_encode_of_fields he (decodeFields_encode hw he)

/-- Settles O3: each packet, word for word, is the packet of its command. -/
theorem specWordsDecodeToTheirCommands : Obligations.SpecWordsDecodeToTheirCommands :=
  have decodes (i : Instr) (hw : i.wf true = true) : decode true (encode i) = .ok i := decodeOfEncodeIsTheCommand true i hw
  ⟨decodes (.register false .external .hooks true 0xA0000 0x20000 0x1) rfl,
    decodes (.setPolicy .internal .disabled 0xF0000 0x10000) rfl,
    decodes (.read .byte .cpu true 0xFFFF0) rfl,
    decodes (.write .byte .bus 0xA0000 0x41) rfl,
    decodes (.shadowWrite 2 0x84) rfl,
    decodes (.a20Set 2 true) rfl,
    decodes (.smramEnable 1 true false true 0x0 0xA0000 0x20000) rfl,
    decodes (.emsSetSlot 3 true 0x7F) rfl,
    decodes .invalidate rfl⟩

/-! ### Encoding what was decoded -/

/-- A header that matches its row, and the argument words its row has, are the packet of what the fields decode to. -/
theorem encode_of_decodeFields {hd : Bool} {o : Op} {h w1 w2 w3 : Word} {i : Instr} (hm : h &&& o.mask = o.pattern)
    (hf : decodeFields hd o h w1 w2 w3 = .ok i) :
    i.wf hd = true ∧ encode i = h :: [w1, w2, w3].take o.argWords := by
  obtain ⟨-, -, hb, -⟩ := (matches_iff o h).1 hm
  cases o
  case register =>
    obtain ⟨cls, hcls, hdw, rfl⟩ := (decodeRegister_eq_ok h w1 w2 w3 i).1 hf
    refine ⟨hdw, packet_of_match hm (aField_of_match hm (by decide)) ?_ _⟩
    exact (registerB_eq_iff _ _ _ _ _).2
      ⟨slice_eq_zero hb 6 2 (by decide), rfl, (BackingCode.code_ofCode _).symm, hcls.symm, rfl⟩
  case setBacking =>
    obtain ⟨hdw, rfl⟩ := (decodeSetBacking_eq_ok h w1 i).1 hf
    refine ⟨hdw, packet_of_match hm rfl ?_ _⟩
    exact (backingB_eq_iff _ _ _).2
      ⟨slice_eq_zero hb 6 2 (by decide), rfl, (BackingCode.code_ofCode _).symm, slice_eq_zero hb 0 3 (by decide)⟩
  case setPolicy =>
    cases hf
    refine ⟨rfl, packet_of_match hm (aField_of_match hm (by decide)) ?_ _⟩
    exact (policyB_eq_iff _ _ _).2
      ⟨slice_eq_zero hb 4 4 (by decide), (Policy.code_ofCode _).symm, (Policy.code_ofCode _).symm⟩
  case decode =>
    obtain ⟨n, ⟨hn, hs⟩, rfl⟩ := (decodeDecode_eq_ok hd h w1 i).1 hf
    refine ⟨hs, packet_of_match hm (aField_of_match hm (by decide)) ?_ _⟩
    exact (accessB_eq_iff _ _ _ _ _).2
      ⟨slice_eq_zero hb 5 3 (by decide), bit_eq_false hb 4 (by decide), (Agent.bit_ofBit _).symm,
        (Kind.bit_ofBit _).symm, hn.symm⟩
  case read =>
    obtain ⟨n, ⟨hn, hs⟩, hbus, rfl⟩ := (decodeRead_eq_ok hd h w1 i).1 hf
    refine ⟨?_, packet_of_match hm (aField_of_match hm (by decide)) ?_ _⟩
    · exact (Bool.and_eq_true _ _).mpr ⟨hs, (cpu_of_fetch_iff _ _).2 (by rwa [Agent.bit_ofBit])⟩
    · exact (accessB_eq_iff _ _ _ _ _).2
        ⟨slice_eq_zero hb 5 3 (by decide), rfl, (Agent.bit_ofBit _).symm, bit_eq_false hb 2 (by decide), hn.symm⟩
  case write =>
    obtain ⟨n, ⟨hn, hs⟩, rfl⟩ := (decodeWrite_eq_ok hd h w1 w2 i).1 hf
    refine ⟨hs, packet_of_match hm (aField_of_match hm (by decide)) ?_ _⟩
    exact (accessB_eq_iff _ _ _ _ _).2
      ⟨slice_eq_zero hb 5 3 (by decide), bit_eq_false hb 4 (by decide), (Agent.bit_ofBit _).symm,
        bit_eq_false hb 2 (by decide), hn.symm⟩
  case shadowWrite =>
    cases hf
    exact ⟨rfl, packet_of_match hm rfl rfl _⟩
  case smramEnable =>
    cases hf
    refine ⟨rfl, packet_of_match hm rfl ?_ _⟩
    exact (smramB_eq_iff _ _ _ _).2 ⟨slice_eq_zero hb 3 5 (by decide), rfl, rfl, rfl⟩
  case enable | disable | setBase | shadowRead =>
    cases hf
    exact ⟨rfl, packet_of_match hm rfl (bField_of_match hm (by decide)) _⟩
  case a20Set | emsSetSlot =>
    cases hf
    exact ⟨rfl, packet_of_match hm rfl ((flagB_eq_iff _ _).2 ⟨slice_eq_zero hb 1 7 (by decide), rfl⟩) _⟩
  case smramSetSmm | emsSetMode =>
    cases hf
    exact ⟨rfl, packet_of_match hm (aField_of_match hm (by decide))
      ((flagB_eq_iff _ _).2 ⟨slice_eq_zero hb 1 7 (by decide), rfl⟩) _⟩
  case getPolicy | shadowRecalc | a20Get | smramDisableAll | invalidate | reset =>
    cases hf
    exact ⟨rfl, packet_of_match hm (aField_of_match hm (by decide)) (bField_of_match hm (by decide)) _⟩

/-- The argument words that the decoder reads are all the words there are. -/
theorem args_eq_take {args : List Word} {n : Nat} (hl : args.length = n) (hn : n ≤ 3) :
    [args.getD 0 0, args.getD 1 0, args.getD 2 0].take n = args := by
  subst hl
  match args, hn with
  | [], _ => rfl
  | [_], _ => rfl
  | [_, _], _ => rfl
  | [_, _, _], _ => rfl

/-- No command has more argument words than the decoder reads. -/
theorem Op.argWords_le (o : Op) : o.argWords ≤ 3 := by cases o <;> decide

/-- Settles O2: the opcode, the length and the reserved bits fix every bit of the packet that is not a field. -/
theorem encodeOfDecodeIsThePacket : Obligations.EncodeOfDecodeIsThePacket := by
  intro hd pkt i hdec
  cases pkt with
  | nil => cases hdec
  | cons h args =>
    obtain ⟨o, -, hl, hm, hf⟩ := (decode_eq_ok hd h args i).1 hdec
    have he := encode_of_decodeFields hm hf
    rwa [args_eq_take hl o.argWords_le] at he

/-! ### The illegal packets -/

/-- Items 4 to 7 of R98: a field of the header holds a value that its command does not have. -/
def illegalField (hasDword : Bool) (o : Op) (h : Word) : Prop :=
  (o = .register ∧ h.extractLsb' 17 2 = 3)
    ∨ ((o = .decode ∨ o = .read ∨ o = .write) ∧ h.extractLsb' 16 2 = 3)
    ∨ ((o = .decode ∨ o = .read ∨ o = .write) ∧ h.extractLsb' 16 2 = 2 ∧ hasDword = false)
    ∨ ((o = .register ∨ o = .setBacking) ∧ h.getLsbD 21 = true ∧ h.extractLsb' 19 2 ≠ 3)
    ∨ (o = .read ∧ h.getLsbD 20 = true ∧ h.getLsbD 19 = true)

/-- The list of R98 by what it looks at: the opcode, the length, the reserved bits, the fields. -/
theorem illegalPacket_iff (hd : Bool) (h : Word) (args : List Word) :
    illegalPacket hd h args ↔ (∀ o : Op, o.code ≠ opField h) ∨ ∃ o : Op, o.code = opField h
      ∧ (args.length ≠ o.argWords ∨ h &&& o.mask ≠ o.pattern ∨ illegalField hd o h) := Iff.rfl

/-- B begins at header bit 16 (R97). -/
theorem bBit_eq (h : Word) {k : Nat} (hk : k < 8) : bBit h k = h.getLsbD (16 + k) := by
  rw [bBit, bField, BitVec.getLsbD_extractLsb', decide_eq_true hk, Bool.true_and]

theorem bCode_eq (h : Word) {k : Nat} (hk : k + 2 ≤ 8) : bCode h k = h.extractLsb' (16 + k) 2 := by
  ext i hi
  rw [bCode, bField, BitVec.getElem_extractLsb', BitVec.getElem_extractLsb', BitVec.getLsbD_extractLsb',
    decide_eq_true (by omega), Bool.true_and, Nat.add_assoc]

/-- The fields of a command are read unless items 4 to 7 reject them. -/
theorem decodeFields_isOk_iff (hd : Bool) (o : Op) (h w1 w2 w3 : Word) :
    (∃ i, decodeFields hd o h w1 w2 w3 = .ok i) ↔ ¬ illegalField hd o h := by
  cases o
  case register =>
    simp only [decodeFields, decodeRegister_eq_ok]
    rw [exists_comm]
    simp [RegionClass.exists_code_iff, BackingCode.allowsDw_ofCode, bCode_eq, bBit_eq, illegalField]
  case setBacking =>
    simp [decodeFields, decodeSetBacking_eq_ok, BackingCode.allowsDw_ofCode, bCode_eq, bBit_eq, illegalField]
  case decode =>
    simp only [decodeFields, decodeDecode_eq_ok]
    rw [exists_comm]
    simp [Width.exists_code_iff, bCode_eq, illegalField]
  case read =>
    simp only [decodeFields, decodeRead_eq_ok]
    rw [exists_comm]
    simp only [exists_and_left, exists_and_right, exists_eq', and_true, Width.exists_code_iff]
    simp [bCode_eq, bBit_eq, illegalField, and_assoc]
  case write =>
    simp only [decodeFields, decodeWrite_eq_ok]
    rw [exists_comm]
    simp [Width.exists_code_iff, bCode_eq, illegalField]
  all_goals simp [decodeFields, illegalField]

/-- No two commands share an opcode (R97). -/
theorem Op.code_injective {o o' : Op} (h : o.code = o'.code) : o = o' := by
  have hs := Op.ofCode_code o
  rw [h, Op.ofCode_code] at hs
  exact (Option.some.inj hs).symm

/-- The decoder rejects exactly the packets of R98's list. -/
theorem decode_isOk_iff (hd : Bool) (h : Word) (args : List Word) :
    (∃ i, decode hd (h :: args) = .ok i) ↔ ¬ illegalPacket hd h args := by
  simp only [decode_eq_ok, illegalPacket_iff]
  constructor
  · rintro ⟨i, o, hop, hl, hm, hf⟩ (hnone | ⟨o', hop', hbad⟩)
    · exact hnone o hop
    · obtain rfl := Op.code_injective (hop.trans hop'.symm)
      rcases hbad with hbad | hbad | hbad
      · exact hbad hl
      · exact hbad hm
      · exact (decodeFields_isOk_iff hd o h _ _ _).1 ⟨i, hf⟩ hbad
  · intro hlegal
    simp only [not_or, not_forall, not_exists, not_and, not_not] at hlegal
    obtain ⟨⟨o, hop⟩, hrest⟩ := hlegal
    obtain ⟨hl, hm, hf⟩ := hrest o hop
    obtain ⟨i, hi⟩ := (decodeFields_isOk_iff hd o h _ _ _).2 hf
    exact ⟨i, o, hop, hl, hm, hi⟩

/-- Settles O4: an illegal packet does not decode, and the step answers it so. -/
theorem illegalPacketsAreThoseOfTheList : Obligations.IllegalPacketsAreThoseOfTheList := by
  intro s h args rest hfault hcmds
  refine ⟨fun hbad => ?_, (decode_isOk_iff _ h args).2⟩
  cases hdec : decode s.plat.hasDword (h :: args) with
  | ok i => exact absurd hbad ((decode_isOk_iff _ h args).1 ⟨i, hdec⟩)
  | error e =>
    simp only [step, runNext, hcmds, runPacket, State.halted, hfault, Option.isSome_none, Bool.false_eq_true, if_false,
      hdec]
    rfl

end Sys2Proof
end

section
/-! PROOFS. The pseudo-instructions of R102 that move a Region to the top: RAISE and RELOCATE, from what DISABLE, SET_BASE and
ENABLE each leave of the Region they name. -/

namespace Sys2Proof.Machine

theorem execSeq_cons {i : Instr} {s t : State} (h : exec i s = .next t) (is : List Instr) :
    execSeq (i :: is) s = execSeq is t := by
  simp only [execSeq, h]

theorem State.registered_iff (s : State) (h : Byte) :
    s.registered h = true ↔ h.toNat < s.plat.nRegions ∧ (s.rgnAt (.gen h.toNat)).valid = true := by
  simp [State.registered]

/-- A command on Region h went through from s to t: h has the record r, every other Region stays, and so does what a later
command on h asks for. -/
structure State.Edits (s t : State) (h : Byte) (r : Region) : Prop where
  record : t.rgnAt (.gen h.toNat) = r
  others : ∀ id, id ≠ .gen h.toNat → t.rgnAt id = s.rgnAt id
  plat : t.plat = s.plat
  invalCount : t.invalCount = s.invalCount
  cp : t.cp = s.cp + 1

theorem State.Edits.registered {s t : State} {h : Byte} {r : Region} (he : s.Edits t h r) (hr : s.registered h = true)
    (hv : r.valid = true) : t.registered h = true := by
  obtain ⟨hlt, -⟩ := (s.registered_iff h).1 hr
  exact (t.registered_iff h).2 ⟨he.plat ▸ hlt, he.record ▸ hv⟩

/-- DISABLE of a registered Region (R113). -/
theorem exec_disable_edits {s : State} {h : Byte} (hr : s.registered h = true) :
    ∃ t, exec (.disable h) s = .next t ∧ s.Edits t h { s.rgnAt (.gen h.toNat) with enabled := false }
      ∧ t.genCtr = s.genCtr := by
  refine ⟨_, by rw [exec, execDisable, if_pos hr], ⟨?_, fun id hne => ?_, ?_, ?_, ?_⟩, ?_⟩
  · simp [State.rgnAt_disableRgn]
  · simp [State.rgnAt_disableRgn, hne]
  all_goals simp

/-- SET_BASE of a registered Region to a legal range (R114). -/
theorem exec_setBase_edits {s : State} {h : Byte} {base : Word} (hr : s.registered h = true)
    (hv : validRange s.plat base.toNat (s.rgnAt (.gen h.toNat)).size = true) :
    ∃ t, exec (.setBase h base) s = .next t ∧ s.Edits t h { s.rgnAt (.gen h.toNat) with base := base.toNat }
      ∧ t.genCtr = s.genCtr := by
  have hid := s.hasRgn_of_valid _ (State.registered_valid hr)
  refine ⟨_, by rw [exec, execSetBase, hr, hv]; rfl, ⟨?_, fun id hne => ?_, ?_, ?_, ?_⟩, ?_⟩
  · simp [s.rgnAt_setRgn_same _ _ hid]
  · simp [s.rgnAt_setRgn_other _ _ _ hne]
  all_goals simp

/-- ENABLE of a registered Region that is disabled (R112, 10_state.md R27): it takes the next generation, and the mapping is
stale (10_state.md R35). -/
theorem exec_enable_edits {s : State} {h : Byte} (hr : s.registered h = true)
    (hd : (s.rgnAt (.gen h.toNat)).enabled = false) :
    ∃ t, exec (.enable h) s = .next t
      ∧ s.Edits t h { s.rgnAt (.gen h.toNat) with enabled := true, gen := s.genCtr + 1 } ∧ t.stale = true := by
  have hat := fun id => s.rgnAt_enableRgn (.gen h.toNat) id (s.hasRgn_of_valid _ (State.registered_valid hr))
  have hchanged : mapChanged s (s.enableRgn (.gen h.toNat)) = true := by
    obtain ⟨hg, hm, he⟩ := s.enableRgn_lengths (.gen h.toNat)
    exact (mapChanged_iff s _ ⟨hg.symm, hm.symm, he.symm⟩).2
      (.inl ⟨.gen h.toNat, by simp [hat, hd, regionChanged]⟩)
  refine ⟨_, by rw [exec, execEnable, if_pos hr], ⟨?_, fun id hne => ?_, ?_, ?_, ?_⟩, ?_⟩
  · simp [hat, hd]
  · simp [hat, hne]
  · simp
  · simp
  · simp
  · simp [hchanged]

/-- Settles O14: after DISABLE the Region is disabled, so ENABLE takes a fresh generation, above every other one (R43
item 5). -/
theorem raiseMakesTheRegionTheNewest : Obligations.RaiseMakesTheRegionTheNewest := by
  intro h s hinv hlt hv
  have hr := (s.registered_iff h).2 ⟨hlt, hv⟩
  obtain ⟨a, ha, ea, hga⟩ := exec_disable_edits hr
  obtain ⟨t, ht, et, hst⟩ := exec_enable_edits (ea.registered hr hv) (by rw [ea.record])
  have hrec := et.record
  rw [ea.record, hga] at hrec
  refine ⟨t, ?_, hrec, fun id hne => ?_, hst, by rw [et.cp, ea.cp]⟩
  · exact (execSeq_cons ha _).trans (execSeq_cons ht _)
  · have hid : t.rgnAt id = s.rgnAt id := (et.others id hne).trans (ea.others id hne)
    rw [hid, hrec]
    exact ⟨rfl, Nat.lt_succ_of_le (hinv.gen_bound id)⟩

/-- Settles O15: as for RAISE, with SET_BASE between, which the invariant's legal size lets through, and one invalidation. -/
theorem relocateMovesAndRaises : Obligations.RelocateMovesAndRaises := by
  intro h base s hinv hlt hv hbase hend
  have hr := (s.registered_iff h).2 ⟨hlt, hv⟩
  obtain ⟨hpos, -, halign, -⟩ := (hinv.regions_fit (.gen h.toNat) hv).1
  obtain ⟨a, ha, ea, hga⟩ := exec_disable_edits hr
  have hra := ea.registered hr hv
  obtain ⟨b, hb, eb, hgb⟩ := exec_setBase_edits (base := base) hra
    (by rw [ea.plat, ea.record]; exact (validRange_iff _ _ _).2 ⟨hpos, hbase, halign, hend⟩)
  rw [ea.record] at eb
  obtain ⟨c, hc, ec, -⟩ := exec_enable_edits (eb.registered hra hv) (by rw [eb.record])
  have hrec := ec.record
  rw [eb.record, hgb, hga] at hrec
  refine ⟨c.invalidate.done .none, ?_, by simpa using hrec, fun id hne => ?_, rfl, ?_, ?_⟩
  · exact (execSeq_cons ha _).trans ((execSeq_cons hb _).trans (execSeq_cons hc _))
  · have hid : c.rgnAt id = s.rgnAt id := (ec.others id hne).trans ((eb.others id hne).trans (ea.others id hne))
    simp only [State.rgnAt_done, State.rgnAt_invalidate, hid, hrec, true_and]
    exact Nat.lt_succ_of_le (hinv.gen_bound id)
  · simp [ec.invalCount, eb.invalCount, ea.invalCount]
  · simp [ec.cp, eb.cp, ea.cp]

end Sys2Proof.Machine
end

section
/-! PROOFS. The Region registry (40_region.md R110–R115). REGISTER, ENABLE, DISABLE, SET_BASE and SET_BACKING each rewrite the
record of one general Region, so one lemma says what all of them leave of the state (`State.Rewrites.ends`), and each command
adds which record it writes and when that sets `stale` (10_state.md R35). -/

namespace Sys2Proof.Machine

/-! ### One record is rewritten -/

/-- The operation that took s to u gave Region `id` the record r, left the generation counter at g, and did nothing else. -/
structure State.Rewrites (s u : State) (id : RegionId) (r : Region) (g : Nat) : Prop where
  rest : s.SameRest u
  policies : u.rpol = s.rpol ∧ u.wpol = s.wpol
  registers : u.smw = s.smw ∧ u.emsSlot = s.emsSlot
  shape : s.sameShape u
  genCtr : u.genCtr = g
  record : u.rgnAt id = r
  others : ∀ id', id' ≠ id → u.rgnAt id' = s.rgnAt id'

theorem State.Rewrites.trans {s t u : State} {id : RegionId} {r r' : Region} {g g' : Nat} (h : s.Rewrites t id r g)
    (k : t.Rewrites u id r' g') : s.Rewrites u id r' g' where
  rest := h.rest.trans k.rest
  policies := ⟨k.policies.1.trans h.policies.1, k.policies.2.trans h.policies.2⟩
  registers := ⟨k.registers.1.trans h.registers.1, k.registers.2.trans h.registers.2⟩
  shape := ⟨h.shape.1.trans k.shape.1, h.shape.2.1.trans k.shape.2.1, h.shape.2.2.trans k.shape.2.2⟩
  genCtr := k.genCtr
  record := k.record
  others := fun id' hne => (k.others id' hne).trans (h.others id' hne)

theorem State.rewrites_setRgn (s : State) {id : RegionId} (hid : s.hasRgn id) (r : Region) :
    s.Rewrites (s.setRgn id r) id r s.genCtr where
  rest := s.sameRest_setRgn id r
  policies := by simp
  registers := by simp
  shape := by simp [State.sameShape]
  genCtr := by simp
  record := s.rgnAt_setRgn_same id r hid
  others := fun id' hne => s.rgnAt_setRgn_other id id' r hne

/-- EnableRgn (R27): a fresh generation for a Region that was disabled, nothing for one that was not. -/
theorem State.rewrites_enableRgn (s : State) {id : RegionId} (hid : s.hasRgn id) :
    s.Rewrites (s.enableRgn id) id
      (if (s.rgnAt id).enabled then s.rgnAt id else { s.rgnAt id with enabled := true, gen := s.genCtr + 1 })
      (if (s.rgnAt id).enabled then s.genCtr else s.genCtr + 1) where
  rest := s.sameRest_enableRgn id
  policies := by simp
  registers := by simp
  shape := by simp [State.sameShape]
  genCtr := s.enableRgn_genCtr id
  record := by cases he : (s.rgnAt id).enabled <;> simp [s.rgnAt_enableRgn id id hid, he]
  others := fun id' hne => by simp [s.rgnAt_enableRgn id id' hid, hne]

/-- The mapping after REGISTER has taken handle i (R111): the new record, enabled with a fresh generation when EN is set. -/
theorem State.rewrites_registerAt (s : State) {i : Nat} (hi : s.hasRgn (.gen i)) (en : Bool) {r : Region}
    (hr : r.enabled = false) :
    s.Rewrites (s.registerAt i en r) (.gen i)
      { r with enabled := en, gen := if en then s.genCtr + 1 else r.gen } (if en then s.genCtr + 1 else s.genCtr) := by
  have hset := s.rewrites_setRgn hi r
  cases en with
  | false =>
    have hsame : { r with enabled := false } = r := by rw [← hr]
    simpa [State.registerAt, hsame] using hset
  | true =>
    have henable := (s.setRgn (.gen i) r).rewrites_enableRgn ((s.hasRgn_setRgn _ _ r).2 hi)
    simp only [hset.record, hset.genCtr, hr, Bool.false_eq_true, if_false] at henable
    exact hset.trans henable

/-- What a command leaves that ends with OK after it has rewritten one record: `stale` is set when the record changed in a
decode-relevant field (R35), and every byte of memory is as it was. -/
theorem State.Rewrites.ends {i : Instr} {s u : State} {id : RegionId} {r : Region} {g : Nat} {d : ResultData} {c : Bool}
    (h : s.Rewrites u id r g) (he : exec i s = .next ((s.noteMapChange u).done d)) (hc : regionChanged (s.rgnAt id) r = c) :
    ∃ t, exec i s = .next t
      ∧ t = { s with
          rgn := t.rgn, genCtr := g, stale := s.stale || c, cp := s.cp + 1, result := some { status := .ok, data := d } }
      ∧ t.rgnAt id = r
      ∧ (∀ id', id' ≠ id → t.rgnAt id' = s.rgnAt id')
      ∧ s.sameMemory t := by
  have hchange : mapChanged s u = c := by
    rw [mapChanged_one s u id h.shape h.policies h.rest.effectiveA20 h.others, h.record, hc]
  have ht := h.rest.noteMapChange_done h.policies.1 h.policies.2 h.registers.1 h.registers.2 d
  rw [hchange, h.genCtr] at ht
  refine ⟨_, he, ht, by simpa using h.record, fun id' hne => by simpa using h.others id' hne, fun arr off => ?_⟩
  rw [ht]
  cases arr <;> rfl

/-! ### When a rewritten record is a change of the mapping (R35) -/

/-- A disabled record is a change exactly when it ends enabled. -/
theorem regionChanged_of_disabled {before : Region} (hb : before.enabled = false) (after : Region) :
    regionChanged before after = after.enabled := by
  cases ha : after.enabled <;> simp [regionChanged, hb, ha]

theorem regionChanged_enable (r : Region) (g : Nat) :
    regionChanged r (if r.enabled then r else { r with enabled := true, gen := g }) = !r.enabled := by
  cases he : r.enabled with
  | false => simp [regionChanged_of_disabled he]
  | true => simp [regionChanged_self]

theorem regionChanged_disable (r : Region) : regionChanged r { r with enabled := false } = r.enabled := by
  cases he : r.enabled <;> simp [regionChanged, he]

/-- With the enabled flag kept, the Region is changed when it is enabled and another field is not what it was. -/
theorem regionChanged_of_enabled_eq {before after : Region} {same : Prop} [Decidable same]
    (he : after.enabled = before.enabled) (hs : before = after ↔ same) :
    regionChanged before after = (before.enabled && decide (¬ same)) := by
  simp [regionChanged, he, hs]

theorem regionChanged_base (r : Region) (b : Nat) :
    regionChanged r { r with base := b } = (r.enabled && decide (r.base ≠ b)) :=
  regionChanged_of_enabled_eq rfl ⟨congrArg Region.base, fun h => by rw [← h]⟩

theorem regionChanged_backing (r : Region) (b : Backing) :
    regionChanged r { r with backing := b } = (r.enabled && decide (r.backing ≠ b)) :=
  regionChanged_of_enabled_eq rfl ⟨congrArg Region.backing, fun h => by rw [← h]⟩

/-! ### The handle (R111, R112) -/

theorem State.registered_eq_false {s : State} {h : Byte}
    (hn : ¬ (h.toNat < s.plat.nRegions ∧ (s.rgnAt (.gen h.toNat)).valid = true)) : s.registered h = false :=
  Bool.eq_false_of_not_eq_true (mt (s.registered_iff h).1 hn)

theorem State.hasRgn_of_registered {s : State} {h : Byte} (hr : s.registered h = true) : s.hasRgn (.gen h.toNat) :=
  s.hasRgn_of_valid _ (State.registered_valid hr)

theorem State.rgnAt_gen_eq_getElem (s : State) {i : Nat} (hi : i < s.rgn.gen.length) : s.rgnAt (.gen i) = s.rgn.gen[i] := by
  simp [State.rgnAt, List.getD_eq_getElem?_getD, hi]

/-- No handle is free exactly when every one is registered. -/
theorem State.freeHandle_eq_none_iff (s : State) :
    s.freeHandle = none ↔ ∀ i, s.hasRgn (.gen i) → (s.rgnAt (.gen i)).valid = true := by
  simp only [State.freeHandle, List.findIdx?_eq_none_iff, List.forall_mem_iff_getElem, Bool.not_eq_false']
  exact forall₂_congr fun i hi => by rw [s.rgnAt_gen_eq_getElem hi]

/-- The free handle is the lowest one that is not registered. -/
theorem State.freeHandle_eq_some_iff (s : State) (i : Nat) :
    s.freeHandle = some i ↔ s.hasRgn (.gen i) ∧ (s.rgnAt (.gen i)).valid = false
      ∧ ∀ j, j < i → (s.rgnAt (.gen j)).valid = true := by
  rw [State.freeHandle, List.findIdx?_eq_some_iff_getElem]
  refine ⟨fun ⟨hi, hv, hlow⟩ => ⟨hi, ?_, fun j hj => ?_⟩, fun ⟨hi, hv, hlow⟩ => ⟨hi, ?_, fun j hj => ?_⟩⟩
  · simpa [s.rgnAt_gen_eq_getElem hi] using hv
  · simpa [s.rgnAt_gen_eq_getElem (hj.trans hi)] using hlow j hj
  · simpa [s.rgnAt_gen_eq_getElem hi] using hv
  · simpa [s.rgnAt_gen_eq_getElem (hj.trans hi)] using hlow j hj

theorem State.Inv.hasRgn_gen_iff {s : State} (h : s.Inv) (i : Nat) : s.hasRgn (.gen i) ↔ i < s.plat.nRegions := by
  rw [State.hasRgn, h.lengths.1]

/-! ### REGISTER (R111) -/

section

variable {en : Bool} {cls : RegionClass} {bk : BackingCode} {dw : Bool} {base size wB : Word} {s : State}

theorem exec_register_illegal
    (hn : ¬ (validRange s.plat base.toNat size.toNat = true ∧ validBacking s.plat bk wB = true)) :
    failsWith (exec (.register en cls bk dw base size wB) s) s .errInvalid := by
  have hc : (!validRange s.plat base.toNat size.toNat || !validBacking s.plat bk wB) = true := by
    simpa [← Bool.not_and] using hn
  rw [exec, execRegister, if_pos hc]
  rfl

theorem exec_register_full (hr : validRange s.plat base.toNat size.toNat = true)
    (hb : validBacking s.plat bk wB = true) (hf : s.freeHandle = none) :
    failsWith (exec (.register en cls bk dw base size wB) s) s .errFull := by
  simp only [exec, execRegister, hr, hb, hf]
  rfl

theorem exec_register_free {i : Nat} (hr : validRange s.plat base.toNat size.toNat = true)
    (hb : validBacking s.plat bk wB = true) (hf : s.freeHandle = some i) :
    exec (.register en cls bk dw base size wB) s
      = .next ((s.noteMapChange (s.registerAt i en (newRegion cls bk dw base size wB))).done (.handle i)) := by
  simp only [exec, execRegister, hr, hb, hf]
  rfl

end

/-- Settles O9: the model's checks are R110's formulas, its search finds the lowest free handle, and the record there was
disabled (the invariant), so the mapping changes exactly when EN is set. -/
theorem registerTakesTheLowestFreeHandle : Obligations.RegisterTakesTheLowestFreeHandle := by
  intro en cls bk dw base size wB s legal hinv hlegal
  have hchecks : legal ↔ validRange s.plat base.toNat size.toNat = true ∧ validBacking s.plat bk wB = true := by
    rw [hlegal, validRange_iff, validBacking_iff]
  refine ⟨fun hn => exec_register_illegal (mt hchecks.2 hn), fun hl hall => ?_, fun i hl hi hfree hlow => ?_⟩
  · obtain ⟨hr, hb⟩ := hchecks.1 hl
    exact exec_register_full hr hb
      (s.freeHandle_eq_none_iff.2 fun i hi => hall i ((hinv.hasRgn_gen_iff i).1 hi))
  · obtain ⟨hr, hb⟩ := hchecks.1 hl
    have hid := (hinv.hasRgn_gen_iff i).2 hi
    have hoff : (s.rgnAt (.gen i)).enabled = false := hinv.owners (.gen i) hfree
    obtain ⟨t, ht, hframe, hrec, hrest⟩ := (s.rewrites_registerAt hid en rfl).ends
      (exec_register_free hr hb ((s.freeHandle_eq_some_iff i).2 ⟨hid, hfree, hlow⟩))
      (regionChanged_of_disabled hoff _)
    exact ⟨t, ht, hframe, hrec.trans (by cases bk <;> rfl), hrest⟩

/-! ### ENABLE and DISABLE (R112, R113) -/

/-- Settles O10: EnableRgn rewrites the one record, which is a change of the mapping exactly when it was disabled. -/
theorem enableTakesAFreshGenerationOnce : Obligations.EnableTakesAFreshGenerationOnce := by
  intro h s
  refine ⟨fun hn => ?_, fun hlt hv => ?_⟩
  · rw [exec, execEnable, State.registered_eq_false hn]
    rfl
  · have hr := (s.registered_iff h).2 ⟨hlt, hv⟩
    exact (s.rewrites_enableRgn (State.hasRgn_of_registered hr)).ends (by rw [exec, execEnable, if_pos hr])
      (regionChanged_enable _ _)

/-- Settles O11: the one record loses its flag, which is a change of the mapping exactly when it had it. -/
theorem disableClearsOnlyTheFlag : Obligations.DisableClearsOnlyTheFlag := by
  intro h s
  refine ⟨fun hn => ?_, fun hlt hv => ?_⟩
  · rw [exec, execDisable, State.registered_eq_false hn]
    rfl
  · have hr := (s.registered_iff h).2 ⟨hlt, hv⟩
    exact (s.rewrites_setRgn (State.hasRgn_of_registered hr) _).ends
      (by rw [exec, execDisable, if_pos hr, State.disableRgn]) (regionChanged_disable _)

/-! ### SET_BASE and SET_BACKING (R114, R115) -/

/-- Settles O12: the checks in the model's order, then one record with another base. -/
theorem setBaseMovesTheRegion : Obligations.SetBaseMovesTheRegion := by
  rintro h base s size legal rfl hlegal
  rw [← validRange_iff] at hlegal
  refine ⟨fun hn => ?_, fun hlt hv hl => ?_, fun hlt hv hl => ?_⟩
  · rw [exec, execSetBase, State.registered_eq_false hn]
    rfl
  · have hr := (s.registered_iff h).2 ⟨hlt, hv⟩
    rw [hlegal, Bool.not_eq_true] at hl
    rw [exec, execSetBase, hr, hl]
    rfl
  · have hr := (s.registered_iff h).2 ⟨hlt, hv⟩
    exact (s.rewrites_setRgn (State.hasRgn_of_registered hr) _).ends
      (by rw [exec, execSetBase, hr, hlegal.1 hl]; rfl) (regionChanged_base _ _)

/-- Settles O13: the checks in the model's order, then one record with another backing. -/
theorem setBackingRetargetsTheRegion : Obligations.SetBackingRetargetsTheRegion := by
  intro h bk dw wB s legal hlegal
  rw [← validBacking_iff] at hlegal
  refine ⟨fun hn => ?_, fun hlt hv hl => ?_, fun hlt hv hl => ?_⟩
  · rw [exec, execSetBacking, State.registered_eq_false hn]
    rfl
  · have hr := (s.registered_iff h).2 ⟨hlt, hv⟩
    rw [hlegal, Bool.not_eq_true] at hl
    rw [exec, execSetBacking, hr, hl]
    rfl
  · have hr := (s.registered_iff h).2 ⟨hlt, hv⟩
    have hwrite := s.rewrites_setRgn (State.hasRgn_of_registered hr)
      { s.rgnAt (.gen h.toNat) with backing := backingOf bk wB dw }
    obtain ⟨t, ht, hrest⟩ := hwrite.ends (i := .setBacking h bk dw wB) (d := .none)
      (by rw [exec, execSetBacking, hr, hlegal.1 hl]; rfl) (regionChanged_backing _ _)
    exact ⟨t, backingOf bk wB dw, ht, by cases bk <;> rfl, hrest⟩

end Sys2Proof.Machine
end

section
/-! PROOFS. The Access-Policy Table and the accesses that reach an array or are dropped (41_policy_access.md R130–R136). -/

namespace Sys2Proof.Machine

/-! ### SET_POLICY and GET_POLICY (R130, R131) -/

theorem exec_setPolicy_illegal {rp wp : Policy} {base size : Word} {s : State}
    (hr : granuleRange s.plat base.toNat size.toNat = false) :
    failsWith (exec (.setPolicy rp wp base size) s) s .errInvalid := by
  rw [exec, execSetPolicy, hr]
  rfl

theorem exec_setPolicy_legal {rp wp : Policy} {base size : Word} {s : State}
    (hr : granuleRange s.plat base.toNat size.toNat = true) :
    exec (.setPolicy rp wp base size) s
      = .next ((s.noteMapChange (s.policyFill base.toNat size.toNat { rp := rp, wp := wp })).done .none) := by
  rw [exec, execSetPolicy, if_pos hr]

/-- The conditions under which R130 answers ERR_INVALID. -/
theorem granuleRange_eq_false_iff (p : Platform) (base size : Nat) :
    granuleRange p base size = false ↔
      size = 0 ∨ base % p.granule ≠ 0 ∨ size % p.granule ≠ 0 ∨ 2 ^ p.addrBits < base + size := by
  rw [← Bool.not_eq_true, granuleRange_iff]
  omega

/-- A fill inside the address space changes the mapping exactly when an entry changes (R35): it writes nothing but the two
tables, whose canonical form makes equal entries equal data. -/
theorem State.Inv.mapChanged_policyFill {s : State} (h : s.Inv) {base size : Nat} (hend : base + size ≤ 2 ^ s.plat.addrBits)
    (pair : PolicyPair) :
    mapChanged s (s.policyFill base size pair) = true ↔ s.policyDiffers (s.policyFill base size pair) := by
  have hfit := s.tablesFit_refl h
  rw [mapChanged_iff s (s.policyFill base size pair) ⟨rfl, rfl, rfl⟩,
    s.policyDiffers_iff _ hfit (s.tablesFit_policyFill s hfit rfl base size pair hend)]
  simp only [State.rgnAt_policyFill, regionChanged_self, Bool.false_eq_true, exists_false, false_or,
    State.policyFill_effectiveA20, ne_eq, not_true_eq_false, or_false]

/-- Settles O16: the check is R130's formula, and a fill gives each granule of the range the pair and leaves the others. -/
theorem setPolicyOverwritesTheRange : Obligations.SetPolicyOverwritesTheRange := by
  intro rp wp base size s hinv
  refine ⟨fun hbad => exec_setPolicy_illegal ((granuleRange_eq_false_iff _ _ _).2 hbad), fun hz hb hs hend => ?_⟩
  refine ⟨_, exec_setPolicy_legal ((granuleRange_iff _ _ _).2 ⟨hz, hb, hs, hend⟩), rfl, fun g hg => ?_, fun kind g hg => ?_,
    ?_, fun arr off => s.arrRead_congr _ rfl rfl rfl arr off⟩
  · simp only [State.policyAt_done, State.policyAt_noteMapChange, State.policyAt_policyFill, if_pos hg, pairAt, and_self]
  · simp only [State.policyAt_done, State.policyAt_noteMapChange, State.policyAt_policyFill, if_neg hg]
  · simp only [State.done_stale, State.noteMapChange_stale, Bool.or_eq_true, State.policyFill_stale,
      hinv.mapChanged_policyFill hend, State.policyDiffers, State.policyAt_done, State.policyAt_noteMapChange]

/-- Settles O17: the granule is that of the address on the bus width, with no A20 mask. -/
theorem getPolicyReadsTheGranule : Obligations.GetPolicyReadsTheGranule := fun _ _ => rfl

/-! ### The table of R132 -/

/-- Settles O18, class by class: the policy decides for INTERNAL, policy and agent for EXTERNAL, and neither for BYPASS. -/
theorem classPolicyAgentTable : Obligations.ClassPolicyAgentTable := by
  intro cls p ag
  rw [agentPolicy_eq]
  cases cls with
  | internal => cases p <;> cases ag <;> rfl
  | external => cases p <;> cases ag <;> rfl
  | bypass => rfl

/-! ### Accesses that are dropped (R67, R72) -/

/-- Of the three reasons, an access past the end of an array alone leaves a log entry. -/
theorem State.noteDrop_eq (s : State) (kind : Kind) (ag : Agent) (n : Width) (reason : FillReason) (a : Nat) :
    s.noteDrop kind ag n reason a =
      { s with events := if reason = .outOfRange then s.events ++ [Event.oor kind ag a n] else s.events } := by
  cases reason <;> rfl

theorem ones_toNat_add_one (n : Width) : (ones n).toNat + 1 = 2 ^ (8 * widthBytes n) := by
  cases n <;> rfl

/-- Settles O23: the value is `Ones(n)`. -/
theorem droppedReadGivesAllOnes : Obligations.DroppedReadGivesAllOnes := by
  intro n ag fetch addr s reason a hs hroute
  refine ⟨ones n, ones_toNat_add_one n, ?_⟩
  rw [exec_read_of_fresh hs, s.memRead_fill ag addr n reason a hroute, s.noteDrop_eq]
  rfl

/-- Settles O26: a drop writes the log at most, and a write to the ROM writes nothing. -/
theorem discardedWriteChangesNoByte : Obligations.DiscardedWriteChangesNoByte := by
  intro n ag addr data s hs
  rw [exec_write_of_fresh hs]
  refine ⟨fun reason a hroute => ?_, fun id off a hroute => ?_⟩
  · rw [s.memWrite_fill ag addr n _ reason a hroute, s.noteDrop_eq]
    rfl
  · rw [s.memWrite_direct ag addr n _ id .rom off a hroute, s.arrWriteLe_rom]
    rfl

/-! ### Accesses that reach an array (R68, R69, R73) -/

@[simp] theorem State.arrRead_done (s : State) (d : ResultData) (arr : Arr) (off : Nat) :
    (s.done d).arrRead arr off = s.arrRead arr off := s.arrRead_congr (s.done d) rfl rfl rfl arr off

/-- Settles O22: the value is the little-endian read of the route's bytes. -/
theorem readOfAnArrayIsLittleEndian : Obligations.ReadOfAnArrayIsLittleEndian := by
  intro n ag fetch addr s id arr off a hs hroute
  refine ⟨s.arrReadLe arr off (widthBytes n), ?_, fun k hk => s.byteOf_arrReadLe arr off (widthBytes n) k hk⟩
  rw [exec_read_of_fresh hs, s.memRead_direct ag addr n id arr off a hroute]
  rfl

/-- Settles O25: the write is the little-endian write of the low bytes at the route's offset, which touches no other byte. -/
theorem writeToAnArrayStoresItsLowBytes : Obligations.WriteToAnArrayStoresItsLowBytes := by
  intro n ag addr data s id arr off a hs hroute harr
  have hexec : exec (.write n ag addr data) s
      = .next ((s.arrWriteLe arr off (lowBytes n data) (widthBytes n)).done .none) := by
    rw [exec_write_of_fresh hs, s.memWrite_direct ag addr n _ id arr off a hroute]
  refine ⟨_, hexec, ?_, fun k hk => ?_, fun arr' off' hout => ?_⟩
  · conv_lhs => rw [s.arrWriteLe_frame]
    rfl
  · rw [State.arrRead_done, State.arrRead_arrWriteLe, if_pos ⟨rfl, harr, by omega, by omega⟩, Nat.add_sub_cancel_left]
    exact byteOf_lowBytes_lt n data k hk
  · rw [State.arrRead_done, State.arrRead_arrWriteLe, if_neg]
    rintro ⟨harr', -, hlow, hhigh⟩
    have := hout harr'
    omega

end Sys2Proof.Machine
end

section
/-! PROOFS. The Shadow Controller (42_shadow.md R152–R159): the pair of a window, what a recalculation writes and what it
leaves, and the commands that recalculate. -/

namespace Sys2Proof.Machine

/-! ### The pair of a window (R152) -/

/-- Rule `r` applies to window `i`: it names the window, and its selector has its value. -/
def ruleApplies (sreg : List Byte) (i : Nat) (r : GlobalRule) : Bool :=
  r.wins.contains i && (evalSel sreg r.sel == r.val)

theorem ruleApplies_iff (sreg : List Byte) (i : Nat) (r : GlobalRule) :
    ruleApplies sreg i r = true ↔ i ∈ r.wins ∧ evalSel sreg r.sel = r.val := by
  simp [ruleApplies]

/-- The model's search through the rules is the library's. -/
theorem globalPair_eq_find? (sreg : List Byte) (i : Nat) (rules : List GlobalRule) :
    globalPair sreg i rules = (rules.find? (ruleApplies sreg i)).map GlobalRule.pair := by
  induction rules with
  | nil => rfl
  | cons r rules ih =>
    unfold globalPair
    rw [List.find?_cons, ih]
    show (if ruleApplies sreg i r = true then _ else _) = _
    cases ruleApplies sreg i r <;> rfl

theorem windowPair_of_find?_eq_some {cfg : ShadowCfg} {sreg : List Byte} {i : Nat} {r : GlobalRule}
    (h : cfg.glob.find? (ruleApplies sreg i) = some r) (w : ShadowWindow) : windowPair cfg sreg i w = r.pair := by
  simp only [windowPair, globalPair_eq_find?, h, Option.map_some]

theorem windowPair_of_find?_eq_none {cfg : ShadowCfg} {sreg : List Byte} {i : Nat}
    (h : cfg.glob.find? (ruleApplies sreg i) = none) (w : ShadowWindow) :
    windowPair cfg sreg i w = enableMapAt cfg.map (evalSel sreg w.rsel) (evalSel sreg w.wsel) := by
  simp only [windowPair, globalPair_eq_find?, h, Option.map_none]

/-- Settles O30: the search stops at the first rule that applies, and the map has the statement's four cases. -/
theorem windowPairTakesTheFirstGlobalRule : Obligations.WindowPairTakesTheFirstGlobalRule := by
  intro cfg sreg i w eval heval
  obtain rfl : eval = evalSel sreg := funext heval
  refine ⟨fun j r hj hi hv hfirst => windowPair_of_find?_eq_some ?_ w, fun hnone => ?_⟩
  · obtain ⟨hlt, hget⟩ := List.getElem?_eq_some_iff.1 hj
    refine List.find?_eq_some_iff_getElem.2 ⟨(ruleApplies_iff _ _ _).2 ⟨hi, hv⟩, j, hlt, hget, fun k hk => ?_⟩
    rw [Bool.not_eq_true', ← Bool.not_eq_true, ruleApplies_iff]
    exact hfirst k _ hk (List.getElem?_eq_getElem (hk.trans hlt))
  · rw [windowPair_of_find?_eq_none (List.find?_eq_none.2 fun r hr => mt (ruleApplies_iff _ _ _).1 (hnone r hr))]
    cases evalSel sreg w.rsel <;> cases evalSel sreg w.wsel <;> rfl

/-! ### The windows of a legal description have no granule in common (R151) -/

theorem allApart_iff_pairwise (ws : List ShadowWindow) :
    ShadowWindow.allApart ws = true ↔ ws.Pairwise fun v w => v.apart w = true := by
  induction ws with
  | nil => simp [ShadowWindow.allApart]
  | cons w ws ih => simp [ShadowWindow.allApart, ih]

theorem not_granuleIn_of_apart {p : Platform} {v w : ShadowWindow} (h : v.apart w = true) {g : Nat}
    (hv : granuleIn p v.base v.size g) : ¬ granuleIn p w.base w.size g := by
  intro hw
  simp only [ShadowWindow.apart, Bool.or_eq_true, decide_eq_true_eq] at h
  rcases h with h | h
  · have := Nat.div_le_div_right (c := p.granule) h
    omega
  · have := Nat.div_le_div_right (c := p.granule) h
    omega

theorem Platform.allApart_of_wf {p : Platform} (hp : p.wf = true) : ShadowWindow.allApart p.shadow.win = true := by
  simp only [Platform.wf, Platform.shadowWf, Bool.and_eq_true] at hp
  exact hp.1.2.1.2

/-- A granule of one window is no granule of a window with a higher index. -/
theorem Platform.not_granuleIn_later_window {p : Platform} (hp : p.wf = true) {i j : Nat} {v w : ShadowWindow}
    (hv : p.shadow.win[i]? = some v) (hw : p.shadow.win[j]? = some w) (hij : i < j) {g : Nat}
    (hg : granuleIn p v.base v.size g) : ¬ granuleIn p w.base w.size g := by
  obtain ⟨hi, rfl⟩ := List.getElem?_eq_some_iff.1 hv
  obtain ⟨hj, rfl⟩ := List.getElem?_eq_some_iff.1 hw
  have hpair := (allApart_iff_pairwise _).1 (Platform.allApart_of_wf hp)
  exact not_granuleIn_of_apart (List.pairwise_iff_getElem.1 hpair i j hi hj hij) hg

/-! ### What ShadowRecalc writes (R154) -/

@[simp] theorem State.shadowRecalc_plat (s : State) : s.shadowRecalc.plat = s.plat := by
  rw [s.shadowRecalc_frame]
  rfl

@[simp] theorem State.shadowRecalc_sreg (s : State) : s.shadowRecalc.sreg = s.sreg := by
  rw [s.shadowRecalc_frame]
  rfl

/-- No window is overwritten by a later one, so each keeps the pair that its own turn gave it. -/
theorem State.policyAt_shadowRecalc_window {s : State} (hp : s.plat.wf = true) {i : Nat} {w : ShadowWindow} {g : Nat}
    (hw : s.plat.shadow.win[i]? = some w) (hg : granuleIn s.plat w.base w.size g) (kind : Kind) :
    s.shadowRecalc.policyAt kind g = pairAt (windowPair s.plat.shadow s.sreg i w) kind := by
  rw [State.shadowRecalc, State.policyAt_invalidate]
  obtain ⟨hi, -⟩ := List.getElem?_eq_some_iff.1 hw
  exact (writtenBelow_forRange s _).written i w kind g hi hw hg
    fun j v hij _ hv => Platform.not_granuleIn_later_window hp hw hv hij hg

theorem State.policyAt_shadowRecalc_outside (s : State) (kind : Kind) {g : Nat}
    (hg : ∀ w ∈ s.plat.shadow.win, ¬ granuleIn s.plat w.base w.size g) :
    s.shadowRecalc.policyAt kind g = s.policyAt kind g := by
  rw [State.shadowRecalc, State.policyAt_invalidate]
  exact (writtenBelow_forRange s _).untouched kind g fun i w _ hw => hg w (List.mem_of_getElem? hw)

theorem State.shadowRecalc_keeps_memory (s : State) : s.sameMemory s.shadowRecalc := by
  rw [s.shadowRecalc_frame]
  exact fun arr off => s.arrRead_congr _ rfl rfl rfl arr off

/-! ### A second recalculation (R157) -/

/-- Every entry of every window is the pair of the registers. -/
def State.windowsCurrent (s : State) : Prop :=
  ∀ i w kind g, s.plat.shadow.win[i]? = some w → granuleIn s.plat w.base w.size g →
    s.policyAt kind g = pairAt (windowPair s.plat.shadow s.sreg i w) kind

theorem State.windowsCurrent_shadowRecalc {s : State} (hp : s.plat.wf = true) : s.shadowRecalc.windowsCurrent := by
  intro i w kind g hw hg
  rw [s.shadowRecalc_plat] at hw hg ⊢
  rw [s.shadowRecalc_sreg]
  exact State.policyAt_shadowRecalc_window hp hw hg kind

/-- Where the windows already have the pairs of the registers, a recalculation changes no entry. -/
theorem State.windowsCurrent.policyAt_shadowRecalc {s : State} (hc : s.windowsCurrent) (hp : s.plat.wf = true) (kind : Kind)
    (g : Nat) : s.shadowRecalc.policyAt kind g = s.policyAt kind g := by
  by_cases hin : ∃ w ∈ s.plat.shadow.win, granuleIn s.plat w.base w.size g
  · obtain ⟨w, hmem, hg⟩ := hin
    obtain ⟨i, hw⟩ := List.mem_iff_getElem?.1 hmem
    rw [State.policyAt_shadowRecalc_window hp hw hg, hc i w kind g hw hg]
  · exact s.policyAt_shadowRecalc_outside kind fun w hmem hg => hin ⟨w, hmem, hg⟩

/-- The tables are in canonical form (R29), so equal entries are equal data. -/
theorem State.Inv.tables_eq_of_policyAt {s t : State} (hs : s.Inv) (ht : t.Inv) (hp : t.plat = s.plat)
    (h : ∀ kind g, t.policyAt kind g = s.policyAt kind g) : t.rpol = s.rpol ∧ t.wpol = s.wpol := by
  obtain ⟨hsr, hsw, -, -⟩ := hs.policies
  obtain ⟨htr, htw, -, -⟩ := ht.policies
  rw [hp] at htr htw
  exact ⟨PolicyTable.eq_of_get _ _ _ _ htr hsr (h .read), PolicyTable.eq_of_get _ _ _ _ htw hsw (h .write)⟩

theorem State.Inv.tables_shadowRecalc {s : State} (h : s.Inv) (hc : s.windowsCurrent) :
    s.shadowRecalc.rpol = s.rpol ∧ s.shadowRecalc.wpol = s.wpol :=
  h.tables_eq_of_policyAt h.shadowRecalc s.shadowRecalc_plat (hc.policyAt_shadowRecalc h.plat_wf)

/-! ### The commands (R155–R157) -/

theorem exec_shadowWrite_eq {reg : Byte} {s : State} (hr : reg.toNat < s.plat.shadow.nSreg) (value : Byte) :
    exec (.shadowWrite reg value) s
      = .next ((State.shadowRecalc { s with sreg := s.sreg.set reg.toNat value }).done .none) := by
  rw [exec, execShadowWrite, if_pos hr]

theorem exec_shadowRecalc_eq (s : State) : exec .shadowRecalc s = .next (s.shadowRecalc.done .none) := rfl

/-- A finished recalculation writes the tables, and else the bookkeeping of one invalidation and of the answer. -/
theorem State.shadowRecalc_done_frame (s : State) :
    s.shadowRecalc.done .none = { s with
      rpol := (s.shadowRecalc.done .none).rpol
      wpol := (s.shadowRecalc.done .none).wpol
      stale := false
      invalCount := s.invalCount + 1
      events := s.events ++ [Event.inval (s.invalCount + 1)]
      cp := s.cp + 1
      result := some { status := .ok, data := .none } } := by
  conv_lhs => rw [s.shadowRecalc_frame]
  rfl

/-- Settles O34: the check, then the register as it stands. -/
theorem shadowReadReturnsTheRegister : Obligations.ShadowReadReturnsTheRegister := by
  intro reg s
  refine ⟨fun hout => ?_, fun hr => ?_⟩
  · rw [exec, execShadowRead, if_neg (by omega)]
    rfl
  · rw [exec, execShadowRead, if_pos hr]
    rfl

/-- Settles O31: past the check it is a recalculation from the new registers. -/
theorem shadowWriteRecomputesEveryWindow : Obligations.ShadowWriteRecomputesEveryWindow := by
  intro reg value s hinv
  refine ⟨fun hout => ?_, fun hr => ?_⟩
  · rw [exec, execShadowWrite, if_neg (by omega)]
    rfl
  · exact ⟨_, exec_shadowWrite_eq hr value, State.shadowRecalc_done_frame _,
      fun i w kind g hw hg => (State.policyAt_done _ _ _ _).trans
        (State.policyAt_shadowRecalc_window (s := { s with sreg := s.sreg.set reg.toNat value }) hinv.plat_wf hw hg kind),
      fun kind g hg => (State.policyAt_done _ _ _ _).trans (State.policyAt_shadowRecalc_outside _ kind hg),
      State.shadowRecalc_keeps_memory _⟩

/-- Settles O32: after the first recalculation the windows have the pairs of the registers, so the second one leaves the
tables. -/
theorem shadowRecalcTwiceIsRecalcOnce : Obligations.ShadowRecalcTwiceIsRecalcOnce := by
  intro s hinv
  have ht : (s.shadowRecalc.done .none).Inv := hinv.shadowRecalc.done .none
  have hcur : (s.shadowRecalc.done .none).windowsCurrent := State.windowsCurrent_shadowRecalc hinv.plat_wf
  obtain ⟨hrpol, hwpol⟩ := ht.tables_shadowRecalc hcur
  refine ⟨_, _, exec_shadowRecalc_eq s, exec_shadowRecalc_eq _, s.shadowRecalc_done_frame,
    fun i w kind g hw hg => (State.policyAt_done _ _ _ _).trans
      (State.policyAt_shadowRecalc_window hinv.plat_wf hw hg kind),
    fun kind g hg => (State.policyAt_done _ _ _ _).trans (s.policyAt_shadowRecalc_outside kind hg),
    s.shadowRecalc_keeps_memory, hrpol, hwpol, ?_⟩
  rw [State.shadowRecalc_done_frame (s.shadowRecalc.done .none)]

/-! ### What the result depends on (R159) -/

/-- A command that recalculates ends with every window at the pair of the registers. -/
theorem windowsCurrent_of_exec {i : Instr} {s t : State} (hinv : s.Inv)
    (hi : i = .shadowRecalc ∨ ∃ reg value, i = .shadowWrite reg value ∧ reg.toNat < s.plat.shadow.nSreg)
    (h : exec i s = .next t) : t.plat = s.plat ∧ t.windowsCurrent := by
  rcases hi with rfl | ⟨reg, value, rfl, hr⟩
  · rw [exec_shadowRecalc_eq] at h
    cases h
    exact ⟨s.shadowRecalc_plat, State.windowsCurrent_shadowRecalc hinv.plat_wf⟩
  · rw [exec_shadowWrite_eq hr] at h
    cases h
    exact ⟨State.shadowRecalc_plat _, State.windowsCurrent_shadowRecalc hinv.plat_wf⟩

/-- No command of the controller has an effect on an entry outside the windows. -/
theorem Effect.policyAt_outside {i : Instr} {s u : State} (hu : Effect i s u)
    (hop : opOf i = .shadowRecalc ∨ opOf i = .shadowWrite ∨ opOf i = .shadowRead) (kind : Kind) {g : Nat}
    (hg : ∀ w ∈ s.plat.shadow.win, ¬ granuleIn s.plat w.base w.size g) : u.policyAt kind g = s.policyAt kind g := by
  cases hu with
  | shadowWrite hr => exact State.policyAt_shadowRecalc_outside _ kind hg
  | shadowRead => rfl
  | shadowRecalc => exact s.policyAt_shadowRecalc_outside kind hg
  | _ => simp [opOf] at hop

/-- Settles O33: the entry of a window is a function of the description and the registers, and no way in which a command of
the controller can end touches the others. -/
theorem recalcDependsOnlyOnTheRegisters : Obligations.RecalcDependsOnlyOnTheRegisters := by
  refine ⟨fun s s' t t' i i' hs hs' hcfg hgran hi hi' ht ht' hsreg w hmem kind g hg => ?_,
    fun s t i _ hop ht kind g hg => ?_⟩
  · obtain ⟨hp, hcur⟩ := windowsCurrent_of_exec hs hi ht
    obtain ⟨hp', hcur'⟩ := windowsCurrent_of_exec hs' hi' ht'
    obtain ⟨k, hk⟩ := List.mem_iff_getElem?.1 hmem
    have hg' : granuleIn s'.plat w.base w.size g := by rwa [granuleIn, ← hgran]
    rw [hcur k w kind g (by rwa [hp]) (by rwa [hp]), hcur' k w kind g (by rwa [hp', ← hcfg]) (by rwa [hp']), hp, hp', hcfg,
      hsreg]
  · cases ends_of_exec ht with
    | fails e => rfl
    | faults kind addr hs hi => rfl
    | does u d hu => exact (State.policyAt_done _ _ _ _).trans (hu.policyAt_outside hop kind hg)

end Sys2Proof.Machine
end

section
/-! PROOFS. The A20 gate (43_a20.md R170–R172): the three source latches and their OR, what A20_SET writes when the source
changes and when it does not, and the addresses that the closed gate does not tell apart. -/

namespace Sys2Proof.Machine

/-! ### The sources and their OR (R31) -/

theorem a20Or_eq_false_iff (src : A20Sources) :
    a20Or src = false ↔ src.kbc = false ∧ src.alt = false ∧ src.port = false := by
  simp only [a20Or, Bool.or_eq_false_iff, and_assoc]

/-- Source k is the latch with number k; where there is no source, nothing is written (R96). -/
theorem a20Put_eq (src : A20Sources) (k : Byte) (v : Bool) :
    a20Put src k.toNat v =
      { kbc := if k = 0 then v else src.kbc
        alt := if k = 1 then v else src.alt
        port := if k = 2 then v else src.port } := by
  simp only [← BitVec.toNat_inj]
  match k.toNat with
  | 0 => rfl
  | 1 => rfl
  | 2 => rfl
  | m + 3 => simp [a20Put]

/-- A source that is written with the value it has keeps every latch. -/
theorem a20Put_a20Get (src : A20Sources) (k : Nat) : a20Put src k (a20Get src k) = src := by
  match k with
  | 0 => rfl
  | 1 => rfl
  | 2 => rfl
  | _ + 3 => rfl

/-- The gate's bit already is the OR of the sources (R43 item 1), so it is recomputed to the same. -/
theorem State.Inv.setA20_a20Get {s : State} (h : s.Inv) (k : Nat) : s.setA20 k (a20Get s.a20Src k) = s := by
  have hor : a20Or s.a20Src = s.effectiveA20 := h.a20.symm
  rw [State.setA20, a20Put_a20Get, hor]

/-! ### A20_SET and A20_GET (R170, R171) -/

theorem mapChanged_self (s : State) : mapChanged s s = false := by
  rw [← Bool.not_eq_true, mapChanged_iff s s ⟨rfl, rfl, rfl⟩]
  simp [regionChanged_self]

theorem State.noteMapChange_self (s : State) : s.noteMapChange s = s := by
  rw [State.noteMapChange, mapChanged_self, Bool.or_false]

theorem exec_a20Set_change {src : Byte} {v : Bool} {s : State} (hsrc : src.toNat ≤ 2)
    (hv : a20Get s.a20Src src.toNat ≠ v) :
    exec (.a20Set src v) s = .next ((s.setA20 src.toNat v).invalidate.done .none) := by
  rw [exec, execA20Set, if_neg (by omega), if_pos (bne_iff_ne.2 hv)]

theorem exec_a20Set_keep {src : Byte} {v : Bool} {s : State} (hinv : s.Inv) (hsrc : src.toNat ≤ 2)
    (hv : a20Get s.a20Src src.toNat = v) : exec (.a20Set src v) s = .next (s.done .none) := by
  subst hv
  rw [exec, execA20Set, if_neg (by omega), bne_self_eq_false, if_neg Bool.false_ne_true, hinv.setA20_a20Get,
    s.noteMapChange_self]

/-- Settles O35: past the check it is one latch and the OR, or, when the latch has the value, no change at all. -/
theorem sourceChangeInvalidatesOnce : Obligations.SourceChangeInvalidatesOnce := by
  intro src v s hinv
  refine ⟨fun hout => ?_, fun hsrc hv => ?_, fun hsrc hv => exec_a20Set_keep hinv hsrc hv⟩
  · rw [exec, execA20Set, if_pos hout]
    rfl
  · exact ⟨_, exec_a20Set_change hsrc hv, rfl, a20Put_eq s.a20Src src v,
      fun arr off => s.arrRead_congr _ rfl rfl rfl arr off⟩

/-- The bits of R171: source 0 is the lowest and PORT_WRITE the highest. -/
theorem a20Bits_getLsbD (src : A20Sources) :
    (a20Bits src).getLsbD 0 = src.kbc ∧ (a20Bits src).getLsbD 1 = src.alt ∧ (a20Bits src).getLsbD 2 = src.port := by
  obtain ⟨kbc, alt, port⟩ := src
  revert kbc alt port
  decide

/-- Settles O36: the data of the answer are the gate's bit and the latches. -/
theorem gateReadsBack : Obligations.GateReadsBack := by
  intro s
  obtain ⟨hkbc, halt, hport⟩ := a20Bits_getLsbD s.a20Src
  exact ⟨a20Bits s.a20Src, hkbc, halt, hport, rfl⟩

/-! ### The closed gate (R61, R172) -/

/-- A closed gate masks two addresses alike that differ in bit 20 at most. -/
theorem State.a20Mask_eq_of_closed {s : State} (h : s.effectiveA20 = false) {a b : Word}
    (hab : ∀ j, j ≠ 20 → a.getLsbD j = b.getLsbD j) : s.a20Mask a = s.a20Mask b := by
  rw [s.a20Mask_closed a h, s.a20Mask_closed b h, ← clearBit20_eq, ← clearBit20_eq]
  refine Nat.eq_of_testBit_eq fun j => ?_
  simp only [clearBit20_testBit, Nat.testBit_mod_two_pow, BitVec.testBit_toNat]
  by_cases hj : j = 20
  · simp [hj]
  · rw [hab j hj]

/-- Setting and clearing bit 20 leave the same other bits. -/
theorem getLsbD_setBit20_eq_clearBit20 (a : Word) {j : Nat} (hj : j ≠ 20) :
    (a ||| 0x100000).getLsbD j = (a &&& ~~~0x100000).getLsbD j := by
  have hbit : (0x100000 : Word).getLsbD j = false := by
    rw [show (0x100000 : Word) = BitVec.twoPow 32 20 from rfl, BitVec.getLsbD_twoPow]
    simp [hj.symm]
  rw [BitVec.getLsbD_or, BitVec.getLsbD_and, BitVec.getLsbD_not, hbit]
  by_cases hlt : j < 32
  · simp [hlt]
  · simp [BitVec.getLsbD_of_ge a j (Nat.le_of_not_lt hlt)]

/-- Settles O21: a route is a function of the masked address, and the closed gate masks bit 20 away. -/
theorem maskedGateIgnoresBitTwenty : Obligations.MaskedGateIgnoresBitTwenty := by
  refine ⟨a20Or_eq_false_iff, fun s hinv => hinv.a20, fun s aIn x hx hclosed => ?_, fun s ag aIn n kind hclosed => ?_,
    fun s aIn hopen => s.a20Mask_open aIn hopen⟩
  · rw [hx, s.a20Mask_closed aIn hclosed]
  · have hmask : s.a20Mask (aIn ||| 0x100000) = s.a20Mask (aIn &&& ~~~0x100000) :=
      State.a20Mask_eq_of_closed hclosed fun j hj => getLsbD_setBit20_eq_clearBit20 aIn hj
    rw [State.route, State.route, hmask]

end Sys2Proof.Machine
end

section
/-! PROOFS. The SMRAM Overlay Manager (44_smram.md R180–R184): what SMRAM_DISABLE_ALL, SMRAM_ENABLE and SMRAM_SET_SMM each leave
of the windows, their Regions and the policies, and when the mapping changes (10_state.md R35). -/

namespace Sys2Proof.Machine

/-! ### What the commands share -/

/-- A command that ends with OK after an operation on the mapping: the mapping fields of that operation, `stale`, and the
answer. -/
theorem State.SameRest.noteMapChange_done_update {s u : State} (h : s.SameRest u) (d : ResultData) :
    (s.noteMapChange u).done d = { s with
      rgn := u.rgn, genCtr := u.genCtr, rpol := u.rpol, wpol := u.wpol, smw := u.smw, emsSlot := u.emsSlot
      stale := ((s.noteMapChange u).done d).stale, cp := s.cp + 1, result := some { status := .ok, data := d } } := by
  have hcp : u.cp = s.cp := h.cp
  have hu : (s.noteMapChange u).done d = { u with
      stale := ((s.noteMapChange u).done d).stale, cp := s.cp + 1, result := some { status := .ok, data := d } } := by
    rw [← hcp]
    rfl
  generalize ((s.noteMapChange u).done d).stale = x at hu ⊢
  rw [hu]
  conv_lhs => rw [h.update]

theorem State.SameRest.sameMemory {s t : State} (h : s.SameRest t) : s.sameMemory t :=
  s.arrRead_congr t h.ram h.rom h.smram

/-- A window that is in use is shown when SMM or one of its own bits makes it visible (R180, R181). -/
theorem shown_of_active {W : SmramWindow} (h : W.active = true) (smm : Bool) : shown smm W = (smm || W.allowR || W.allowW) := by
  rw [shown_eq, h, Bool.true_and]

/-! ### SMRAM_DISABLE_ALL (R182) -/

/-- Hiding windows changes the mapping exactly when one of their Regions was enabled. -/
theorem HiddenBelow.mapChanged_iff_enabled {s t : State} {n : Nat} (h : HiddenBelow s t n) :
    mapChanged s t = true ↔ ∃ w, w < n ∧ (s.rgnAt (.smr w)).enabled = true := by
  rw [mapChanged_iff s t h.shape]
  simp only [h.policies.1, h.policies.2, h.rest.effectiveA20, ne_eq, not_true_eq_false, or_false]
  constructor
  · rintro ⟨id, hc⟩
    by_contra! hall
    by_cases hid : ∃ w, w < n ∧ id = .smr w
    · obtain ⟨w, hw, rfl⟩ := hid
      rw [h.hidden w hw, regionChanged_disable] at hc
      exact hall w hw hc
    · rw [h.others id fun w hw e => hid ⟨w, hw, e⟩, regionChanged_self] at hc
      cases hc
  · rintro ⟨w, hw, he⟩
    exact ⟨.smr w, by rw [h.hidden w hw, regionChanged_disable, he]⟩

/-- Settles O37: the loop hides every window, and the flags it clears are all that it changes. -/
theorem disableAllHidesEveryWindow : Obligations.DisableAllHidesEveryWindow := by
  intro s _
  have hb := hiddenBelow_forRange s s.plat.nSmram
  refine ⟨_, rfl, ?_, fun w hw => ⟨?_, hb.windows w hw⟩, fun id hid => ?_, ?_, hb.rest.sameMemory⟩
  · have hframe := hb.rest.noteMapChange_done_update .none
    rwa [hb.genCtr, hb.policies.1, hb.policies.2, hb.emsSlot] at hframe
  · simpa using hb.hidden w hw
  · simpa using hb.others id fun w _ => hid w
  · rw [State.done_stale, State.noteMapChange_stale, hb.rest.stale, Bool.or_eq_true, hb.mapChanged_iff_enabled]

/-! ### SMRAM_ENABLE (R183) -/

/-- The Region of window w once the registers W are established: it starts disabled, so a visible window takes a fresh
generation. -/
def State.establishedRegion (s : State) (w : Nat) (W : SmramWindow) : Region :=
  { s.rgnAt (.smr w) with
    base := W.visible.toNat
    size := W.size.toNat
    cls := .internal
    backing := windowBacking W
    enabled := shown s.smm W
    gen := if shown s.smm W then s.genCtr + 1 else (s.rgnAt (.smr w)).gen }

theorem State.window_setWindow_same (s : State) {w : Nat} (hw : w < s.smw.length) (W : SmramWindow) :
    (s.setWindow w W).window w = W := getD_set_same _ _ _ _ hw

theorem State.window_disableRgn (s : State) (id : RegionId) (w : Nat) : (s.disableRgn id).window w = s.window w :=
  State.window_congr _ _ (by simp) w

theorem State.sameRest_establishWindow (s : State) (w : Nat) (W : SmramWindow) : s.SameRest (s.establishWindow w W) :=
  ((s.sameRest_setWindow w W).trans (State.sameRest_disableRgn _ _)).trans (State.sameRest_smrApply _ w)

theorem State.sameShape_establishWindow (s : State) (w : Nat) (W : SmramWindow) : s.sameShape (s.establishWindow w W) := by
  simp [State.establishWindow, State.sameShape]

section

variable {s : State} {w : Nat} (hr : s.hasRgn (.smr w)) (hw : w < s.smw.length) (W : SmramWindow)

include hw in
theorem State.policyAt_establishWindow (kind : Kind) (g : Nat) :
    (s.establishWindow w W).policyAt kind g =
      if W.active = true ∧ granuleIn s.plat W.visible.toNat W.size.toNat g then pairAt (windowPolicy s.smm W) kind
      else s.policyAt kind g := by
  simp only [State.establishWindow, State.policyAt_smrApply, State.window_disableRgn, s.window_setWindow_same hw,
    State.disableRgn_plat, State.setWindow_plat, State.disableRgn_smm, State.setWindow_smm, State.policyAt_disableRgn,
    State.policyAt_setWindow]

include hr hw

theorem State.rgnAt_establishWindow (id : RegionId) :
    (s.establishWindow w W).rgnAt id = if id = .smr w then s.establishedRegion w W else s.rgnAt id := by
  rw [State.establishWindow, State.rgnAt_smrApply _ w id (by simpa [State.hasRgn] using hr)]
  by_cases hid : id = .smr w
  · simp [hid, State.appliedWindow, State.establishedRegion, State.rgnAt_disableRgn, State.window_disableRgn,
      s.window_setWindow_same hw]
  · simp [hid, State.rgnAt_disableRgn]

theorem State.genCtr_establishWindow :
    (s.establishWindow w W).genCtr = if shown s.smm W then s.genCtr + 1 else s.genCtr := by
  rw [State.establishWindow, State.genCtr_smrApply _ w (by simpa [State.hasRgn] using hr)]
  simp [State.rgnAt_disableRgn, State.window_disableRgn, s.window_setWindow_same hw]

end

/-- A record that never stays enabled with its old generation is changed when it was enabled or ends so. -/
theorem regionChanged_of_fresh {before after : Region} (h : after.enabled = true → before.gen ≠ after.gen) :
    regionChanged before after = (before.enabled || after.enabled) := by
  cases ha : after.enabled with
  | false => simp [regionChanged, ha]
  | true =>
    have hne : before ≠ after := fun e => h ha (congrArg Region.gen e)
    simp [regionChanged, ha, hne]

/-- States with the invariant on one platform have tables that differ in an entry or not at all (10_state.md R29). -/
theorem State.Inv.tablesFit {s t : State} (hs : s.Inv) (ht : t.Inv) (hp : t.plat = s.plat) : s.tablesFit t := by
  obtain ⟨-, -, hsr, hsw⟩ := hs.policies
  obtain ⟨hr, hw, htr, htw⟩ := ht.policies
  rw [hp] at hr hw htr htw
  exact ⟨hr, hw, htr.trans hsr.symm, htw.trans hsw.symm⟩

theorem State.Inv.hasRgn_smr {s : State} (h : s.Inv) {w : Nat} (hw : w < s.plat.nSmram) : s.hasRgn (.smr w) :=
  s.hasRgn_of_valid _ (h.smr_valid hw)

theorem State.Inv.lt_smw_length {s : State} (h : s.Inv) {w : Nat} (hw : w < s.plat.nSmram) : w < s.smw.length := by
  obtain ⟨-, -, -, -, hsmw, -⟩ := h.lengths
  rwa [hsmw]

/-- The window's own Region is changed when it was enabled or ends so, and no other Region is. -/
theorem State.Inv.regionChanged_establishWindow {s : State} (h : s.Inv) {w : Nat} (hw : w < s.plat.nSmram) (W : SmramWindow) :
    (∃ id, regionChanged (s.rgnAt id) ((s.establishWindow w W).rgnAt id) = true) ↔
      (s.rgnAt (.smr w)).enabled = true ∨ shown s.smm W = true := by
  have hat := State.rgnAt_establishWindow (h.hasRgn_smr hw) (h.lt_smw_length hw) W
  have hfresh : shown s.smm W = true → (s.rgnAt (.smr w)).gen ≠ (s.establishedRegion w W).gen := fun hs => by
    have := h.gen_bound (.smr w)
    simp only [State.establishedRegion, hs, if_true]
    omega
  have hown : regionChanged (s.rgnAt (.smr w)) (s.establishedRegion w W) =
      ((s.rgnAt (.smr w)).enabled || shown s.smm W) := regionChanged_of_fresh hfresh
  rw [← Bool.or_eq_true, ← hown]
  refine ⟨fun ⟨id, hc⟩ => ?_, fun hc => ⟨.smr w, by rwa [hat, if_pos rfl]⟩⟩
  by_cases hid : id = .smr w
  · rwa [hat, if_pos hid, hid] at hc
  · rw [hat, if_neg hid, regionChanged_self] at hc
    cases hc

/-- When establishing a window changes the mapping (10_state.md R35). -/
theorem State.Inv.mapChanged_establishWindow {s : State} (h : s.Inv) {w : Nat} (hw : w < s.plat.nSmram) {W : SmramWindow}
    (hW : windowFits s.plat W) :
    mapChanged s (s.establishWindow w W) = true ↔
      (s.rgnAt (.smr w)).enabled = true ∨ shown s.smm W = true ∨ s.policyDiffers (s.establishWindow w W) := by
  have hrest := s.sameRest_establishWindow w W
  rw [mapChanged_iff s _ (s.sameShape_establishWindow w W), h.regionChanged_establishWindow hw,
    s.policyDiffers_iff _ (s.tablesFit_refl h) (h.tablesFit (h.establishWindow hw W hW) hrest.plat), hrest.effectiveA20]
  simp only [ne_eq, not_true_eq_false, or_false, or_assoc]

theorem smramArgsOk_iff (p : Platform) (sep : Bool) (visible size : Word) :
    smramArgsOk p sep visible size = true ↔
      size.toNat ≠ 0 ∧ visible.toNat % p.granule = 0 ∧ size.toNat % p.granule = 0
        ∧ visible.toNat + size.toNat ≤ 2 ^ p.addrBits ∧ (sep = true → p.smramSize ≠ 0) := by
  rw [smramArgsOk, Bool.and_eq_true, granuleRange_iff]
  cases sep <;> simp [and_assoc]

/-- The conditions under which R183 answers ERR_INVALID. -/
theorem smramArgsOk_eq_false_iff (p : Platform) (sep : Bool) (visible size : Word) :
    smramArgsOk p sep visible size = false ↔
      size.toNat = 0 ∨ visible.toNat % p.granule ≠ 0 ∨ size.toNat % p.granule ≠ 0
        ∨ 2 ^ p.addrBits < visible.toNat + size.toNat ∨ (sep = true ∧ p.smramSize = 0) := by
  rw [← Bool.not_eq_true, smramArgsOk_iff]
  simp only [not_and_or, not_not, Nat.not_le, ne_eq, Classical.not_imp]

theorem exec_smramEnable_range {w : Byte} {ar aw sep : Bool} {host visible size : Word} {s : State}
    (hw : s.plat.nSmram ≤ w.toNat) : failsWith (exec (.smramEnable w ar aw sep host visible size) s) s .errRange := by
  rw [exec, execSmramEnable, if_pos hw]
  rfl

theorem exec_smramEnable_illegal {w : Byte} {ar aw sep : Bool} {host visible size : Word} {s : State}
    (hw : w.toNat < s.plat.nSmram) (ha : smramArgsOk s.plat sep visible size = false) :
    failsWith (exec (.smramEnable w ar aw sep host visible size) s) s .errInvalid := by
  rw [exec, execSmramEnable, if_neg (Nat.not_le.2 hw), ha]
  rfl

theorem exec_smramEnable_legal {w : Byte} {ar aw sep : Bool} {host visible size : Word} {s : State}
    (hw : w.toNat < s.plat.nSmram) (ha : smramArgsOk s.plat sep visible size = true) :
    exec (.smramEnable w ar aw sep host visible size) s
      = .next ((s.noteMapChange (s.establishWindow w.toNat (newWindow ar aw sep host visible size))).done .none) := by
  rw [exec, execSmramEnable, if_neg (Nat.not_le.2 hw), ha]
  rfl

theorem shown_newWindow (smm ar aw sep : Bool) (host visible size : Word) :
    shown smm (newWindow ar aw sep host visible size) = (smm || ar || aw) := shown_of_active rfl smm

/-- Settles O38: the checks in the model's order, then the window's Region starts afresh from its new registers. -/
theorem smramEnableEstablishesTheWindow : Obligations.SmramEnableEstablishesTheWindow := by
  intro w ar aw sep host visible size s hinv
  refine ⟨exec_smramEnable_range,
    fun hw hbad => exec_smramEnable_illegal hw ((smramArgsOk_eq_false_iff _ _ _ _).2 hbad),
    fun hw hz hv hs hend hsep => ?_⟩
  have ha := (smramArgsOk_iff _ _ _ _).2 ⟨hz, hv, hs, hend, hsep⟩
  have hid := hinv.hasRgn_smr hw
  have hin := hinv.lt_smw_length hw
  have hshown := shown_newWindow s.smm ar aw sep host visible size
  have hrest := s.sameRest_establishWindow w.toNat (newWindow ar aw sep host visible size)
  have hat := State.rgnAt_establishWindow hid hin (newWindow ar aw sep host visible size)
  have hpol := State.policyAt_establishWindow hin (newWindow ar aw sep host visible size)
  refine ⟨_, exec_smramEnable_legal hw ha, ?_, ?_, fun id hne => ?_, fun g hg => ?_, fun kind g hg => ?_, ?_,
    hrest.sameMemory⟩
  · have hframe := hrest.noteMapChange_done_update .none
    rw [State.genCtr_establishWindow hid hin, hshown] at hframe
    simpa [State.establishWindow, newWindow] using hframe
  · rw [State.rgnAt_done, State.rgnAt_noteMapChange, hat, if_pos rfl, State.establishedRegion, hshown, hinv.smr_valid hw]
    rfl
  · rw [State.rgnAt_done, State.rgnAt_noteMapChange, hat, if_neg hne]
  · have hown := fun kind => (hpol kind g).trans (if_pos ⟨rfl, hg⟩)
    exact ⟨hown .read, hown .write⟩
  · rw [State.policyAt_done, State.policyAt_noteMapChange, hpol, if_neg fun hc => hg hc.2]
  · simp only [State.done_stale, State.noteMapChange_stale, hrest.stale, Bool.or_eq_true,
      hinv.mapChanged_establishWindow hw (windowFits_newWindow ar aw host ha), hshown, State.policyDiffers,
      State.policyAt_done, State.policyAt_noteMapChange]

/-! ### SMRAM_SET_SMM (R184) -/

/-- With another latch SmrApply gives a window's Region another flag and generation, and what it had else. -/
theorem State.Inv.appliedWindow_setSmm {s : State} (h : s.Inv) (smm : Bool) {w : Nat} (hw : w < s.plat.nSmram) (g : Nat) :
    { State.appliedWindow { s with smm := smm } w with gen := g }
      = { s.rgnAt (.smr w) with enabled := shown smm (s.window w), gen := g } := by
  conv_rhs => rw [h.smr_record hw]
  exact (Region.mk.injEq ..).mpr ⟨h.smr_valid hw, rfl, rfl, rfl, rfl, rfl, rfl⟩

/-- What SMRAM_SET_SMM leaves after its loop: the mapping fields of the loop, one invalidation and the answer. -/
theorem State.refreshSmrams_done_frame (s : State) (n : Nat) :
    (forRange n State.refreshSmram s).invalidate.done .none = { s with
      rgn := (forRange n State.refreshSmram s).rgn
      genCtr := (forRange n State.refreshSmram s).genCtr
      rpol := (forRange n State.refreshSmram s).rpol
      wpol := (forRange n State.refreshSmram s).wpol
      stale := false
      invalCount := s.invalCount + 1
      events := s.events ++ [Event.inval (s.invalCount + 1)]
      cp := s.cp + 1
      result := some { status := .ok, data := .none } } := by
  conv_lhs => rw [s.refreshSmrams_frame]
  rw [s.refreshSmrams_frame]
  rfl

/-- A Region that a recomputation enables is that of an active window, visible for some kind. -/
theorem RefreshedBelow.shown_of_newly_enabled {s t : State} {n w : Nat} (h : RefreshedBelow s t n) (hw : w < n)
    (hoff : (s.rgnAt (.smr w)).enabled = false) (hon : (t.rgnAt (.smr w)).enabled = true) :
    (s.window w).active = true ∧ shown s.smm (s.window w) = true := by
  cases ha : (s.window w).active with
  | true =>
    rw [h.applied w hw ha] at hon
    exact ⟨rfl, hon⟩
  | false =>
    have hsame := h.others (.smr w) fun v _ hv e => by cases e; exact absurd (ha.symm.trans hv) (by simp)
    rw [hsame, hoff] at hon
    cases hon

/-- Settles O39: every field of the answer is that of the loop over the active windows, with the new latch. -/
theorem setSmmRecomputesTheActiveWindows : Obligations.SetSmmRecomputesTheActiveWindows := by
  intro smm s hinv
  have hb := refreshedBelow_forRange { s with smm := smm } s.plat.nSmram (Nat.le_of_eq hinv.lengths.2.1.symm)
  have hframe := State.refreshSmrams_done_frame { s with smm := smm } s.plat.nSmram
  have hexec : exec (.smramSetSmm smm) s
    = .next ((forRange s.plat.nSmram State.refreshSmram { s with smm := smm }).invalidate.done .none) := rfl
  generalize forRange s.plat.nSmram State.refreshSmram { s with smm := smm } = u at hb hframe hexec
  have hat : ∀ id, (u.invalidate.done .none).rgnAt id = u.rgnAt id := by simp
  have hpol : ∀ kind g, (u.invalidate.done .none).policyAt kind g = u.policyAt kind g := by simp
  have hnew := fun w hw hoff => hb.shown_of_newly_enabled (w := w) hw hoff
  refine ⟨_, hexec, hframe, fun w hw ha => ?_, ?_, fun v w hvw hw hv hv' hw' hw'' => ?_,
    fun id hid => (hat id).trans (hb.others id hid),
    fun w g hw ha hg hlast => ⟨hb.last w .read g hw ha hg hlast, hb.last w .write g hw ha hg hlast⟩,
    fun kind g hg => (hpol kind g).trans (hb.untouched kind g hg), hb.rest.sameMemory⟩
  · have hrecord := (hb.applied w hw ha).trans (hinv.appliedWindow_setSmm smm hw _)
    have hshown : (u.rgnAt (.smr w)).enabled = shown smm (s.window w) := by rw [hrecord]
    rw [hat, ← shown_of_active ha smm]
    exact ⟨hrecord, fun hk => hb.kept w hw ha (hk.symm.imp_left hshown.symm.trans),
      fun hoff hon => hb.fresh w hw ha (hnew w hw hoff hon).2 hoff⟩
  · refine hb.count.trans ?_
    simp only [shown_eq]
    rfl
  · obtain ⟨hva, hvs⟩ := hnew v (hvw.trans hw) hv hv'
    obtain ⟨hwa, hws⟩ := hnew w hw hw' hw''
    exact hb.order v w hvw hw hva hvs hv hwa hws hw'

end Sys2Proof.Machine
end

section
/-! PROOFS. R185 (44_smram.md): which commands can enable an SMRAM-owned Region, and which windows can answer after
SMRAM_DISABLE_ALL and a sequence of SMRAM_ENABLE commands. -/

namespace Sys2Proof.Machine

/-! ### The reasons: who disables and who enables an SMRAM-owned Region -/

/-- A Region is disabled after the loop of SMRAM_DISABLE_ALL when the loop passed it or it was disabled before. -/
theorem HiddenBelow.disabled {s t : State} {n : Nat} (h : HiddenBelow s t n) {w : Nat}
    (hw : w < n ∨ (s.rgnAt (.smr w)).enabled = false) : (t.rgnAt (.smr w)).enabled = false := by
  by_cases hlt : w < n
  · rw [h.hidden w hlt]
  · rw [h.others _ fun v hv e => hlt (by cases e; exact hv)]
    exact hw.resolve_left hlt

/-- An SMRAM-owned Region that is enabled is one of the platform's windows. -/
theorem State.Inv.lt_of_enabled_smr {s : State} (h : s.Inv) {w : Nat} (he : (s.rgnAt (.smr w)).enabled = true) :
    w < s.plat.nSmram := by
  obtain ⟨-, hsmr, -⟩ := h.lengths
  exact hsmr ▸ s.hasRgn_of_enabled _ he

/-- After SMRAM_DISABLE_ALL no SMRAM-owned Region is enabled. -/
theorem State.Inv.disabled_hideWindows {s : State} (h : s.Inv) (w : Nat) :
    ((forRange s.plat.nSmram State.hideWindow s).rgnAt (.smr w)).enabled = false := by
  refine (hiddenBelow_forRange s s.plat.nSmram).disabled ?_
  rw [← Bool.not_eq_true, ← imp_iff_or_not]
  exact h.lt_of_enabled_smr

/-- SmrApply of a window touches no other Region, whether the window exists or not. -/
theorem State.rgnAt_smrApply_other (s : State) {w : Nat} {id : RegionId} (h : id ≠ .smr w) :
    (s.smrApply w).rgnAt id = s.rgnAt id := by
  have hplace : (s.placeWindow w).rgnAt id = s.rgnAt id := s.rgnAt_setRgn_other _ _ _ h
  rw [← hplace, State.smrApply, State.rgnAt_congr _ _ (State.fillWindow_rgn _ w)]
  unfold State.showWindow
  split
  · unfold State.enableRgn
    split
    · rfl
    · rw [State.rgnAt_setRgn_other _ _ _ _ h, State.rgnAt_bumpGen]
  · rw [State.rgnAt_disableRgn, if_neg h]

/-- The loop of SMRAM_SET_SMM leaves the Region of an inactive window. -/
theorem State.rgnAt_refreshSmrams_inactive (s : State) (n : Nat) {w : Nat} (ha : (s.window w).active = false) :
    (forRange n State.refreshSmram s).rgnAt (.smr w) = s.rgnAt (.smr w) := by
  suffices h : (forRange n State.refreshSmram s).smw = s.smw
      ∧ (forRange n State.refreshSmram s).rgnAt (.smr w) = s.rgnAt (.smr w) from h.2
  refine forRange_induction (fun _ t => t.smw = s.smw ∧ t.rgnAt (.smr w) = s.rgnAt (.smr w)) n _ s ⟨rfl, rfl⟩ ?_
  rintro i t - ⟨hsmw, hat⟩
  obtain ⟨-, -, hkeep, -⟩ := t.refreshSmram_partitions i
  refine ⟨hkeep.trans hsmw, Eq.trans ?_ hat⟩
  unfold State.refreshSmram
  split
  · next hi =>
    refine t.rgnAt_smrApply_other fun e => ?_
    cases e
    rw [State.window_congr s t hsmw, ha] at hi
    cases hi
  · rfl

/-- No command but the three of the overlay manager and RESET writes an SMRAM-owned Region (10_state.md R42). -/
theorem rgnAt_smr_of_exec {i : Instr} {s t : State} (h : exec i s = .next t) (hen : opOf i ≠ .smramEnable)
    (hdis : opOf i ≠ .smramDisableAll) (hsmm : opOf i ≠ .smramSetSmm) (hreset : opOf i ≠ .reset) (w : Nat) :
    t.rgnAt (.smr w) = s.rgnAt (.smr w) := by
  obtain ⟨-, -, -, -, -, -, -, -, -, -, -, -, hsmr, -⟩ := eachPartHasItsWriters i s t h
  simp only [State.rgnAt, hsmr hen hdis hsmm hreset]

/-- Only SMRAM_ENABLE, and SMRAM_SET_SMM of an active window, enable an SMRAM-owned Region. -/
theorem enabler_of_exec {i : Instr} {s t : State} {w : Nat} (h : exec i s = .next t)
    (hoff : (s.rgnAt (.smr w)).enabled = false) (hon : (t.rgnAt (.smr w)).enabled = true) :
    opOf i = .smramEnable ∨ (opOf i = .smramSetSmm ∧ (s.window w).active = true) := by
  have changed : t.rgnAt (.smr w) ≠ s.rgnAt (.smr w) := fun e => by rw [e, hoff] at hon; cases hon
  cases i with
  | smramEnable => exact .inl rfl
  | smramDisableAll =>
    cases h
    exact absurd hon (Bool.eq_false_iff.1 ((hiddenBelow_forRange s _).disabled (.inr hoff)))
  | smramSetSmm smm =>
    cases h
    cases ha : (s.window w).active with
    | true => exact .inr ⟨rfl, rfl⟩
    | false => exact absurd (State.rgnAt_refreshSmrams_inactive { s with smm := smm } _ ha) changed
  | reset =>
    cases h
    exact absurd hon (Bool.eq_false_iff.1 (State.disabled_powerOn s.plat (.smr w)).1)
  | _ => exact absurd (rgnAt_smr_of_exec h nofun nofun nofun nofun w) changed

/-! ### The conclusion -/

/-- The Region of a route to an array is enabled (R65, R66). -/
theorem State.enabled_of_route_direct {s : State} {ag : Agent} {aIn : Word} {n : Width} {kind : Kind} {id : RegionId}
    {arr : Arr} {off a : Nat} (h : s.route ag aIn n kind = .direct id arr off a) : (s.rgnAt id).enabled = true := by
  unfold State.route State.routeAt at h
  split at h
  · cases h
  · next c hc =>
    obtain ⟨id', r⟩ := c
    obtain ⟨hr, hclaims, -⟩ := s.claimant_some _ _ id' r hc
    unfold State.routeTo at h
    split at h
    · split at h
      · cases h
      · cases h
        rw [hr]
        exact claims_enabled _ _ _ hclaims
    · cases h

/-- The command is an SMRAM_ENABLE of window w that R183 lets through on platform p and that makes the window visible for some
kind while the latch is `smm`. -/
def showsWindow (p : Platform) (smm : Bool) (w : Nat) (i : Instr) : Prop :=
  ∃ b ar aw sep host visible size, i = .smramEnable b ar aw sep host visible size ∧ b.toNat = w ∧ w < p.nSmram
    ∧ smramArgsOk p sep visible size = true ∧ (smm = true ∨ ar = true ∨ aw = true)

/-- An SMRAM_ENABLE that enables a Region shows the Region's window. -/
theorem showsWindow_of_exec {i : Instr} {s t : State} {w : Nat} (hinv : s.Inv) (hi : opOf i = .smramEnable)
    (h : exec i s = .next t) (hoff : (s.rgnAt (.smr w)).enabled = false) (hon : (t.rgnAt (.smr w)).enabled = true) :
    showsWindow s.plat s.smm w i := by
  have changed : t.rgnAt (.smr w) ≠ s.rgnAt (.smr w) := fun e => by rw [e, hoff] at hon; cases hon
  cases ends_of_exec h with
  | fails e => exact absurd rfl changed
  | faults kind addr => exact absurd rfl changed
  | does u d hu =>
    cases hu with
    | @smramEnable _ b ar aw sep host visible size hb ha =>
      rw [State.rgnAt_done, State.rgnAt_noteMapChange, State.rgnAt_establishWindow (hinv.hasRgn_smr hb) (hinv.lt_smw_length hb)]
        at hon changed
      by_cases hw : RegionId.smr w = .smr b.toNat
      · cases hw
        rw [if_pos rfl, State.establishedRegion, shown_newWindow, Bool.or_eq_true, Bool.or_eq_true, or_assoc] at hon
        exact ⟨b, ar, aw, sep, host, visible, size, rfl, rfl, hb, ha, hon⟩
      · exact absurd (if_neg hw) changed
    | _ => cases hi

/-- A sequence of SMRAM_ENABLE commands completes, and a Region that is enabled after it was enabled before or is shown by a
command of the sequence. -/
theorem execSeq_smramEnables {is : List Instr} (hop : ∀ i ∈ is, opOf i = .smramEnable) {s : State} (hinv : s.Inv) :
    ∃ t, execSeq is s = .next t ∧ ∀ w, (t.rgnAt (.smr w)).enabled = true →
      (s.rgnAt (.smr w)).enabled = true ∨ ∃ i ∈ is, showsWindow s.plat s.smm w i := by
  induction is generalizing s with
  | nil => exact ⟨s, rfl, fun w he => .inl he⟩
  | cons i is ih =>
    have hi := hop i List.mem_cons_self
    obtain ⟨u, hu, hends⟩ := exec_cases i s
    obtain ⟨hplat, -, -, -, -, -, -, -, hsmm, -⟩ := eachPartHasItsWriters i s u hu
    replace hsmm := hsmm (by simp [hi]) (by simp [hi])
    obtain ⟨t, ht, hshown⟩ := ih (fun j hj => hop j (List.mem_cons_of_mem i hj)) (hends.inv hinv)
    rw [hplat, hsmm] at hshown
    refine ⟨t, (execSeq_cons hu is).trans ht, fun w he => ?_⟩
    rcases hshown w he with hmid | ⟨j, hj, hjw⟩
    · cases hs : (s.rgnAt (.smr w)).enabled with
      | true => exact .inl rfl
      | false => exact .inr ⟨i, List.mem_cons_self, showsWindow_of_exec hinv hi hu hs hmid⟩
    · exact .inr ⟨j, List.mem_cons_of_mem i hj, hjw⟩

theorem exec_smramDisableAll_eq (s : State) :
    exec .smramDisableAll s = .next ((s.noteMapChange (forRange s.plat.nSmram State.hideWindow s)).done .none) := rfl

/-- Settles O40: a route needs an enabled Region, SMRAM_DISABLE_ALL leaves none, and each SMRAM_ENABLE enables at most the one it
names. -/
theorem onlyReenabledWindowsAnswer : Obligations.OnlyReenabledWindowsAnswer := by
  refine ⟨fun s hinv => ⟨_, exec_smramDisableAll_eq s, hinv.disabled_hideWindows⟩,
    fun i s t w h hoff hon => enabler_of_exec h hoff hon, fun s is hinv hop => ?_⟩
  have hrest := (hiddenBelow_forRange s s.plat.nSmram).rest
  obtain ⟨t, ht, hshown⟩ := execSeq_smramEnables hop (((hinv.hideWindows s.plat.nSmram).noteMapChange s).done .none)
  refine ⟨t, (execSeq_cons (exec_smramDisableAll_eq s) is).trans ht, fun ag addr n kind w ⟨arr, off, a, hroute⟩ => ?_⟩
  have hnone := hinv.disabled_hideWindows w
  rcases hshown w (State.enabled_of_route_direct hroute) with he | ⟨i, hi, b, ar, aw, sep, host, visible, size, rfl, hshows⟩
  · exact absurd he (Bool.eq_false_iff.1 hnone)
  · simp only [State.done_plat, State.noteMapChange_plat, hrest.plat, State.done_smm, State.noteMapChange_smm, hrest.smm,
      smramArgsOk_iff, and_assoc] at hshows
    exact ⟨b, ar, aw, sep, host, visible, size, hi, hshows⟩

end Sys2Proof.Machine
end

section
/-! PROOFS. The EMS Page-Remap Window (45_ems.md R200–R204): what EMS_SET_SLOT and EMS_SET_MODE leave of the slots' Regions,
which accesses an enabled slot answers, and where an access goes once slots are disabled. -/

namespace Sys2Proof.Machine

/-! ### A slot and its Region -/

namespace State.Inv

variable {s : State}

theorem ems_record (h : s.Inv) {k : Nat} (hk : k < s.plat.nEms) : s.rgnAt (.ems k) = s.slotRecord k :=
  (s.owned_ems_iff k).1 (h.owned _) hk

theorem hasRgn_ems (h : s.Inv) {k : Nat} (hk : k < s.plat.nEms) : s.hasRgn (.ems k) :=
  s.hasRgn_of_valid _ (h.ems_valid hk)

theorem lt_emsSlot_length (h : s.Inv) {k : Nat} (hk : k < s.plat.nEms) : k < s.emsSlot.length := by
  obtain ⟨-, -, -, -, -, hslots⟩ := h.lengths
  rwa [hslots]

/-- An EMS-owned Region that is enabled is one of the platform's slots. -/
theorem lt_of_enabled_ems (h : s.Inv) {k : Nat} (he : (s.rgnAt (.ems k)).enabled = true) : k < s.plat.nEms := by
  obtain ⟨-, -, hems, -⟩ := h.lengths
  exact hems ▸ s.hasRgn_of_enabled _ he

end State.Inv

/-- What an EMS command leaves after its operation u: the Region table, the counter and the slots of u, one invalidation and
the answer. -/
theorem State.SameRest.invalidate_done {s u : State} (h : s.SameRest u) (hr : u.rpol = s.rpol) (hw : u.wpol = s.wpol)
    (hm : u.smw = s.smw) :
    u.invalidate.done .none = { s with
      rgn := u.rgn
      genCtr := u.genCtr
      emsSlot := u.emsSlot
      stale := false
      invalCount := s.invalCount + 1
      events := s.events ++ [Event.inval (s.invalCount + 1)]
      cp := s.cp + 1
      result := some { status := .ok, data := .none } } := by
  have hu := h.update
  rw [hr, hw, hm] at hu
  rw [State.done, State.invalidate, h.invalCount, h.events]
  simp only [h.cp]
  conv_lhs => rw [hu]

/-! ### EMS_SET_SLOT (R201) -/

theorem State.slot_setSlot_same (s : State) {k : Nat} (hk : k < s.emsSlot.length) (S : EmsSlot) :
    (s.setSlot k S).slot k = S := getD_set_same _ _ _ _ hk

/-- The Region of slot k once its registers are S: it starts disabled, so a slot that is on takes a fresh generation. -/
def State.redirectedSlot (s : State) (k : Nat) (S : EmsSlot) : Region :=
  { s.slotRecord k with
    enabled := s.emsMode && S.enabled
    gen := if s.emsMode && S.enabled then s.genCtr + 1 else (s.rgnAt (.ems k)).gen
    backing := .direct .ram (s.plat.emsBackingBase + S.page.toNat * s.plat.emsPageSize) }

section

variable {s : State} (h : s.Inv) {k : Nat} (hk : k < s.plat.nEms) (S : EmsSlot)

include h hk

theorem State.Inv.rgnAt_emsApply_setSlot (id : RegionId) :
    (State.emsApply k (s.setSlot k S)).rgnAt id = if id = .ems k then s.redirectedSlot k S else s.rgnAt id := by
  have hid : (s.setSlot k S).hasRgn (.ems k) := h.hasRgn_ems hk
  rw [State.rgnAt_emsApply _ k id hid, State.appliedSlot, State.slotRegion,
    s.slot_setSlot_same (h.lt_emsSlot_length hk), State.rgnAt_setSlot, State.rgnAt_setSlot, h.ems_record hk]
  rfl

theorem State.Inv.genCtr_emsApply_setSlot :
    (State.emsApply k (s.setSlot k S)).genCtr = if s.emsMode && S.enabled then s.genCtr + 1 else s.genCtr := by
  have hid : (s.setSlot k S).hasRgn (.ems k) := h.hasRgn_ems hk
  rw [State.genCtr_emsApply _ k hid, s.slot_setSlot_same (h.lt_emsSlot_length hk)]
  rfl

end

theorem exec_emsSetSlot_range {slot : Byte} {en : Bool} {page : Word} {s : State}
    (hc : s.plat.nEms ≤ slot.toNat ∨ 2 ^ s.plat.emsPageBits ≤ page.toNat) :
    failsWith (exec (.emsSetSlot slot en page) s) s .errRange := by
  rw [exec, execEmsSetSlot, if_pos (by simpa using hc)]
  rfl

theorem exec_emsSetSlot_legal {slot : Byte} {en : Bool} {page : Word} {s : State} (hs : slot.toNat < s.plat.nEms)
    (hp : page.toNat < 2 ^ s.plat.emsPageBits) :
    exec (.emsSetSlot slot en page) s = .next ((State.emsApply slot.toNat
      (s.setSlot slot.toNat { enabled := en, page := page })).invalidate.done .none) := by
  rw [exec, execEmsSetSlot, if_neg (by simp [hs, hp])]

/-- Settles O41: the two checks, then EmsApply of the slot with its new registers. -/
theorem setSlotRedirectsTheWindow : Obligations.SetSlotRedirectsTheWindow := by
  intro slot en page s hinv
  refine ⟨exec_emsSetSlot_range, fun hs hp => ?_⟩
  have hrest : s.SameRest (State.emsApply slot.toNat (s.setSlot slot.toNat { enabled := en, page := page })) :=
    (s.sameRest_setSlot _ _).trans (State.sameRest_emsApply _ _)
  have hat := hinv.rgnAt_emsApply_setSlot hs { enabled := en, page := page }
  refine ⟨_, exec_emsSetSlot_legal hs hp, ?_, ?_, fun id hne => ?_, hrest.sameMemory⟩
  · have hframe := hrest.invalidate_done (by simp) (by simp) (by simp)
    rwa [hinv.genCtr_emsApply_setSlot hs, State.emsApply_emsSlot, State.setSlot_emsSlot] at hframe
  · rw [State.rgnAt_done, State.rgnAt_invalidate, hat, if_pos rfl]
    rfl
  · rw [State.rgnAt_done, State.rgnAt_invalidate, hat, if_neg hne]

/-! ### EMS_SET_MODE (R202) -/

/-- With another mode EmsApply gives a slot's Region another flag and generation, and what it had else. -/
theorem State.Inv.appliedSlot_setEmsMode {s : State} (h : s.Inv) (on : Bool) {k : Nat} (hk : k < s.plat.nEms) (g : Nat) :
    { State.appliedSlot { s with emsMode := on } k with gen := g }
      = { s.rgnAt (.ems k) with enabled := on && (s.slot k).enabled, gen := g } := by
  conv_rhs => rw [h.ems_record hk]
  exact (Region.mk.injEq ..).mpr ⟨h.ems_valid hk, rfl, rfl, rfl, rfl, rfl, rfl⟩

/-- Settles O42: every field of the answer is that of the loop over the slots, with the new mode. -/
theorem setModeAppliesEverySlot : Obligations.SetModeAppliesEverySlot := by
  intro on s hinv
  obtain ⟨-, -, hems, -⟩ := hinv.lengths
  have hb := appliedBelow_forRange { s with emsMode := on } s.plat.nEms (Nat.le_of_eq hems.symm)
  have hexec : exec (.emsSetMode on) s
    = .next ((forRange s.plat.nEms State.emsApply { s with emsMode := on }).invalidate.done .none) := rfl
  generalize forRange s.plat.nEms State.emsApply { s with emsMode := on } = u at hb hexec
  have hat : ∀ id, (u.invalidate.done .none).rgnAt id = u.rgnAt id := by simp
  have hrecord := fun k hk => (hb.applied k hk).trans (hinv.appliedSlot_setEmsMode on hk _)
  have hon : ∀ k, k < s.plat.nEms → (u.rgnAt (.ems k)).enabled = (on && (s.slot k).enabled) := fun k hk => by
    rw [hrecord k hk]
  refine ⟨_, hexec, ?_, fun k hk => ?_, hb.count, fun j k hjk hk hj hk' => ?_,
    fun id hid => (hat id).trans (hb.others id fun k _ => hid k), hb.rest.sameMemory⟩
  · have hframe := hb.rest.invalidate_done hb.policies.1 hb.policies.2 hb.smw
    rwa [hb.emsSlot] at hframe
  · rw [hat]
    exact ⟨hrecord k hk, hb.fresh k hk, fun hoff => hb.kept k hk (Bool.eq_false_iff.2 hoff)⟩
  · rw [hat, hon j (hjk.trans hk)] at hj
    rw [hat, hon k hk] at hk'
    simpa only [hat] using hb.order j k hjk hk hj hk'

/-! ### An enabled slot (R203) -/

/-- Settles O43: a slot's Region is of class BYPASS, so no policy keeps it from claiming its window. -/
theorem enabledSlotAnswersItsWindow : Obligations.EnabledSlotAnswersItsWindow := by
  rintro s k ag aIn n kind _ _ hinv hen rfl hlo hhi hnew rfl
  have hrecord := hinv.ems_record (hinv.lt_of_enabled_ems hen)
  have hclaims : ∀ p, claims p (s.a20Mask aIn) (s.rgnAt (.ems k)) = true := fun p => by
    refine (claims_iff _ _ _).2 ⟨?_, hen, ?_, ?_, .inl ?_⟩ <;> rw [hrecord]
    · rfl
    · exact hlo
    · exact hhi
    · rfl
  rw [State.route, s.routeAt_claimed ag _ n kind (.ems k) (hclaims _) fun id hne hc => ?_, hrecord]
  · exact s.routeTo_direct _ n (.ems k) (show (s.slotRecord k).backing = .direct .ram _ from rfl)
  · obtain ⟨-, hon, hbase, hend, -⟩ := (claims_iff _ _ _).1 hc
    exact hnew id hne hon hbase hend

/-! ### Disabled slots (R204) -/

/-- The command that took s to t disabled the Regions of `gone`, left the rest of the mapping, and ended with an
invalidation. -/
structure State.Withdraws (s t : State) (gone : RegionId → Prop) : Prop where
  stale : t.stale = false
  plat : t.plat = s.plat
  gate : t.effectiveA20 = s.effectiveA20
  policies : t.rpol = s.rpol ∧ t.wpol = s.wpol
  disabled : ∀ id, gone id → (t.rgnAt id).enabled = false
  kept : ∀ id, ¬ gone id → t.rgnAt id = s.rgnAt id

/-- The Regions that claim an address afterwards are those that claimed it before and remain. -/
theorem State.Withdraws.claims_iff {s t : State} {gone : RegionId → Prop} (h : s.Withdraws t gone) (p : Policy) (a : Nat)
    (id : RegionId) : claims p a (t.rgnAt id) = true ↔ ¬ gone id ∧ claims p a (s.rgnAt id) = true := by
  by_cases hid : gone id
  · simp only [hid, not_true_eq_false, false_and, iff_false]
    intro hc
    exact absurd (claims_enabled p a _ hc) (Bool.eq_false_iff.1 (h.disabled id hid))
  · simp only [h.kept id hid, hid, not_false_eq_true, true_and]

theorem State.Withdraws.a20Mask {s t : State} {gone : RegionId → Prop} (h : s.Withdraws t gone) (aIn : Word) :
    t.a20Mask aIn = s.a20Mask aIn := by
  simp only [State.a20Mask, h.gate, h.plat]

theorem State.Withdraws.accessPolicy {s t : State} {gone : RegionId → Prop} (h : s.Withdraws t gone) (ag : Agent)
    (kind : Kind) (a : Nat) : t.accessPolicy ag kind a = s.accessPolicy ag kind a := by
  rw [State.accessPolicy, State.accessPolicy, State.policyAt_congr s t h.policies.1 h.policies.2, h.plat]

theorem withdraws_of_emsSetSlot {s t : State} {slot : Byte} {page : Word} (hinv : s.Inv) (hs : slot.toNat < s.plat.nEms)
    (hp : page.toNat < 2 ^ s.plat.emsPageBits) (h : exec (.emsSetSlot slot false page) s = .next t) :
    s.Withdraws t (· = .ems slot.toNat) := by
  obtain ⟨-, hlegal⟩ := setSlotRedirectsTheWindow slot false page s hinv
  obtain ⟨t', ht', hframe, hrecord, hothers, -⟩ := hlegal hs hp
  cases h.symm.trans ht'
  refine ⟨by rw [hframe], by rw [hframe], by rw [hframe],
    ⟨by rw [hframe], by rw [hframe]⟩, ?_, hothers⟩
  rintro id rfl
  rw [hrecord]
  exact Bool.and_false _

theorem withdraws_of_emsSetMode {s t : State} (hinv : s.Inv) (h : exec (.emsSetMode false) s = .next t) :
    s.Withdraws t (fun id => ∃ k, id = .ems k) := by
  obtain ⟨t', ht', hframe, hslots, -, -, hothers, -⟩ := setModeAppliesEverySlot false s hinv
  cases h.symm.trans ht'
  have hplat : t.plat = s.plat := by rw [hframe]
  refine ⟨by rw [hframe], hplat, by rw [hframe],
    ⟨by rw [hframe], by rw [hframe]⟩, ?_, fun id hid => hothers id fun k e => hid ⟨k, e⟩⟩
  rintro id ⟨k, rfl⟩
  by_contra hon
  have hk : k < s.plat.nEms := hplat ▸ ((ends_of_exec h).inv hinv).lt_of_enabled_ems (by simpa using hon)
  obtain ⟨hrecord, -⟩ := hslots k hk
  exact hon (congrArg Region.enabled hrecord)

/-- Settles O44: both commands leave the mapping without the slots' Regions, and the claimant of what remains decides. -/
theorem disabledSlotFallsBack : Obligations.DisabledSlotFallsBack := by
  intro s t i gone hinv hi hexec
  have hw : s.Withdraws t gone := by
    rcases hi with ⟨slot, page, rfl, hs, hp, hgone⟩ | ⟨rfl, hgone⟩
    · obtain rfl : gone = (· = .ems slot.toNat) := funext fun id => propext (hgone id)
      exact withdraws_of_emsSetSlot hinv hs hp hexec
    · obtain rfl : gone = (fun id => ∃ k, id = .ems k) := funext fun id => propext (hgone id)
      exact withdraws_of_emsSetMode hinv hexec
  refine ⟨hw.stale, fun ag aIn n kind a p cl ha hp hcl => ?_⟩
  have hpol : t.accessPolicy ag kind a = p := (hw.accessPolicy ag kind a).trans hp.symm
  have hclaims : ∀ id, cl id ↔ claims p a (t.rgnAt id) = true := fun id => by
    rw [hcl, hw.claims_iff, claims_iff]
  rw [State.route, hw.a20Mask, ← ha]
  refine ⟨fun id hid hmax => ?_, fun hnone => ?_⟩
  · have hkept : ∀ id', cl id' → t.rgnAt id' = s.rgnAt id' := fun id' hc => hw.kept id' ((hcl id').1 hc).1
    have hnewest : ∀ id', id' ≠ id → claims p a (t.rgnAt id') = true → (t.rgnAt id').gen < (t.rgnAt id).gen := by
      intro id' hne hc
      rw [hkept id' ((hclaims id').2 hc), hkept id hid]
      exact hmax id' hne ((hclaims id').2 hc)
    have hclaim := (hclaims id).1 hid
    rw [← hkept id hid]
    refine ⟨t.claimant_eq p a id hclaim hnewest, ?_⟩
    rw [t.routeAt_claimed ag a n kind id (hpol ▸ hclaim) (hpol ▸ hnewest)]
    cases hb : (t.rgnAt id).backing with
    | direct arr o => rw [t.routeTo_direct a n id hb, State.arrSize_congr s t hw.plat]
    | hooks h dw => exact t.routeTo_hooks a n id hb
  · have hunclaimed : ∀ id, claims p a (t.rgnAt id) = false := fun id =>
      Bool.eq_false_iff.2 fun hc => hnone id ((hclaims id).2 hc)
    refine ⟨(t.claimant_none p a).2 hunclaimed, ?_⟩
    rw [t.routeAt_unclaimed ag a n kind (hpol ▸ hunclaimed), hpol]

end Sys2Proof.Machine
end

section
/-! PROOFS. Invalidation and block control (46_control.md R220–R222): the block that waits for a packet, INVALIDATE and
RESET. -/

namespace Sys2Proof.Machine

/-! ### The stream with no packet in it (R222, log 5) -/

/-- With no packet waiting nothing is run, whatever would run a command. -/
theorem runNext_of_no_packet (run : Instr → State → Host.Outcome State Fault Refusal) {s : State} (h : s.cmds = []) :
    runNext run s = .next s := by
  rw [runNext, h]

/-- Settles O6: a step takes the next packet, and there is none. -/
theorem waitingBlockDoesNothing : Obligations.WaitingBlockDoesNothing := fun _ h => runNext_of_no_packet exec h

/-! ### INVALIDATE (R220, R81) -/

theorem exec_invalidate_eq (s : State) : exec .invalidate s = .next (s.invalidate.done .none) := rfl

/-- Settles O45: the command is one `invalidate()` and OK, with no check before it. -/
theorem invalidateClearsTheFlag : Obligations.InvalidateClearsTheFlag := exec_invalidate_eq

/-! ### RESET (R221) -/

theorem exec_reset_eq (s : State) : exec .reset s = .next (s.resetBlock.done .none) := rfl

/-- What RESET leaves, component by component: the values of power-on, but for the arrays, `cp` and the host's side
(log 12). -/
theorem State.resetBlock_done_frame (s : State) :
    s.resetBlock.done .none = { State.powerOn s.plat with
      ram := s.ram, smram := s.smram, cp := s.cp + 1, cmds := s.cmds, draws := s.draws
      result := some { status := .ok, data := .none } } := rfl

/-- RESET writes ROM_IMAGE to the ROM, which holds it already (R21), and leaves the other two arrays. -/
theorem State.Inv.sameMemory_resetBlock {s : State} (h : s.Inv) : s.sameMemory s.resetBlock := by
  obtain ⟨-, -, -, -, hrom⟩ := h.memory
  have himage : s.resetBlock.rom = s.rom := hrom.symm
  exact s.arrRead_congr s.resetBlock rfl himage rfl

/-- Settles O46: RESET has no check to fail, and the invariant says that the ROM held its image before. -/
theorem resetKeepsOnlyTheArrays : Obligations.ResetKeepsOnlyTheArrays := by
  intro s hinv
  refine ⟨s.resetBlock.done .none, exec_reset_eq s, s.resetBlock_done_frame, fun arr off => ?_⟩
  rw [State.arrRead_done]
  exact hinv.sameMemory_resetBlock arr off

end Sys2Proof.Machine
end

section
/-! PROOFS. Exceptions (60_exceptions.md R233–R235): commands that end with an error status, CPU accesses on a stale mapping,
and the block after its fault. -/

namespace Sys2Proof.Machine

/-! ### Error statuses (R233) -/

/-- Settles O52: of the three ways a command can end, the fault and the effect answer with a status that is excluded, and a
failure writes `cp` and the result record only. -/
theorem failedCommandsChangeNothing : Obligations.FailedCommandsChangeNothing := by
  intro i s t e d h hresult hok hfault
  cases ends_of_exec h with
  | fails e' =>
    rw [State.fail_result] at hresult
    cases hresult
    rfl
  | faults kind addr =>
    rw [State.takeStaleMap_result] at hresult
    cases hresult
    exact absurd rfl hfault
  | does u d' =>
    rw [State.done_result] at hresult
    cases hresult
    exact absurd rfl hok

/-! ### The stale-map fault (R234) -/

/-- A CPU access that R133 stops. -/
theorem State.staleAccess_cpu_of_stale {s : State} (hs : s.stale = true) : s.staleAccess .cpu = true := by
  simp [State.staleAccess, hs]

theorem exec_read_of_stale {s : State} (hs : s.stale = true) (n : Width) (fetch : Bool) (addr : Word) :
    exec (.read n .cpu fetch addr) s = .next (s.takeStaleMap (readFaultKind fetch) addr) :=
  if_pos (State.staleAccess_cpu_of_stale hs)

theorem exec_write_of_stale {s : State} (hs : s.stale = true) (n : Width) (addr data : Word) :
    exec (.write n .cpu addr data) s = .next (s.takeStaleMap .write addr) :=
  if_pos (State.staleAccess_cpu_of_stale hs)

/-- Settles O29: the check stands before the access, so that nothing but the fault is left. -/
theorem staleCpuAccessTakesTheFault : Obligations.StaleCpuAccessTakesTheFault := fun n fetch addr data _ hs =>
  ⟨exec_read_of_stale hs n fetch addr, exec_write_of_stale hs n addr data⟩

/-! ### The halted block (R235) -/

/-- The packet is taken and never decoded, so that it need not be legal (log 8). -/
theorem step_of_halted {s : State} {pkt : Packet} {rest : List Packet} (hf : s.fault ≠ none) (hc : s.cmds = pkt :: rest) :
    step s = .next (State.haltedCommand { s with cmds := rest }) := by
  have hhalted : State.halted { s with cmds := rest } = true := Option.isSome_iff_ne_none.2 hf
  rw [step, runNext, hc]
  exact if_pos hhalted

theorem runSteps_succ_of_step {s t : State} (h : step s = .next t) (n : Nat) : runSteps (n + 1) s = runSteps n t := by
  rw [runSteps, h]

/-- Settles O7, by induction on the number of steps: a step leaves the fault record, so that the next one finds the block
halted again. -/
theorem haltedBlockAnswersFaultForEver : Obligations.HaltedBlockAnswersFaultForEver := by
  intro s n hf hn
  induction n generalizing s with
  | zero => rfl
  | succ n ih =>
    obtain ⟨pkt, rest, hc⟩ := List.exists_cons_of_length_pos (Nat.zero_lt_of_lt hn)
    have hrest : n ≤ rest.length := by simpa [hc] using hn
    rw [runSteps_succ_of_step (step_of_halted hf hc), ih (State.haltedCommand { s with cmds := rest }) hf hrest]
    simp [hc, State.haltedCommand]

end Sys2Proof.Machine
end

section
/-! PROOFS. Reset and hazards (70_reset_and_hazards.md R261, R264): the accesses that come before any Region is enabled, and
what each command leaves of the stale flag. -/

namespace Sys2Proof.Machine

/-! ### Right after power-on (R261) -/

/-- No Region is enabled yet, so none claims an access. -/
theorem State.claims_powerOn (p : Platform) (q : Policy) (a : Nat) (id : RegionId) :
    claims q a ((State.powerOn p).rgnAt id) = false := by
  obtain ⟨hoff, -⟩ := State.disabled_powerOn p id
  exact Bool.eq_false_iff.2 fun hc => Bool.eq_false_iff.1 hoff (claims_enabled q a _ hc)

theorem State.route_powerOn (p : Platform) (ag : Agent) (aIn : Word) (n : Width) (kind : Kind) :
    ∃ reason a, reason ≠ .outOfRange ∧ (State.powerOn p).route ag aIn n kind = .fill reason a := by
  refine ⟨_, _, ?_, State.routeAt_unclaimed _ ag _ n kind (State.claims_powerOn p _ _)⟩
  split <;> exact nofun

/-- Settles O48: the route is a silent fill, and O23 and O26 say what READ and WRITE make of one. -/
theorem powerOnAccessesAreFills : Obligations.PowerOnAccessesAreFills := by
  intro p ag addr data n kind fetch
  have hfresh : ag = .bus ∨ (State.powerOn p).stale = false := .inr rfl
  refine ⟨State.route_powerOn p ag addr n kind, ?_, ?_⟩
  · obtain ⟨reason, a, hsilent, hroute⟩ := State.route_powerOn p ag addr n .read
    obtain ⟨v, hv, hread⟩ := droppedReadGivesAllOnes n ag fetch addr (State.powerOn p) reason a hfresh hroute
    exact ⟨v, hv, by rw [hread, if_neg hsilent]; rfl⟩
  · obtain ⟨reason, a, hsilent, hroute⟩ := State.route_powerOn p ag addr n .write
    obtain ⟨hwrite, -⟩ := discardedWriteChangesNoByte n ag addr data (State.powerOn p) hfresh
    rw [hwrite reason a hroute, if_neg hsilent]
    rfl

/-! ### The stale flag (R264, R35) -/

theorem exec_shadowWrite_range {reg : Byte} {s : State} (hr : ¬ reg.toNat < s.plat.shadow.nSreg) (value : Byte) :
    failsWith (exec (.shadowWrite reg value) s) s .errRange := by
  rw [exec, execShadowWrite, if_neg hr]
  rfl

theorem State.sameRest_registerAt (s : State) (i : Nat) (en : Bool) (r : Region) : s.SameRest (s.registerAt i en r) := by
  rw [s.registerAt_frame]
  constructor <;> rfl

/-- The commands that invalidate (R264) have ERR_RANGE as their only other answer. -/
theorem exec_of_invalidating {i : Instr} (s : State)
    (hi : opOf i = .shadowWrite ∨ opOf i = .shadowRecalc ∨ opOf i = .smramSetSmm ∨ opOf i = .emsSetSlot
      ∨ opOf i = .emsSetMode ∨ opOf i = .invalidate ∨ opOf i = .reset) :
    failsWith (exec i s) s .errRange ∨ ∃ u : State, u.stale = false ∧ exec i s = .next (u.done .none) := by
  cases i with
  | shadowWrite reg value =>
    by_cases hr : reg.toNat < s.plat.shadow.nSreg
    · exact .inr ⟨_, rfl, exec_shadowWrite_eq hr value⟩
    · exact .inl (exec_shadowWrite_range hr value)
  | emsSetSlot slot en page =>
    by_cases hc : s.plat.nEms ≤ slot.toNat ∨ 2 ^ s.plat.emsPageBits ≤ page.toNat
    · exact .inl (exec_emsSetSlot_range hc)
    · rw [not_or, Nat.not_le, Nat.not_le] at hc
      exact .inr ⟨_, rfl, exec_emsSetSlot_legal hc.1 hc.2⟩
  | shadowRecalc => exact .inr ⟨_, rfl, exec_shadowRecalc_eq s⟩
  | smramSetSmm smm => exact .inr ⟨_, rfl, rfl⟩
  | emsSetMode on => exact .inr ⟨_, rfl, rfl⟩
  | invalidate => exact .inr ⟨_, rfl, exec_invalidate_eq s⟩
  | reset => exact .inr ⟨_, rfl, exec_reset_eq s⟩
  | _ => simp [opOf] at hi

/-- The commands that can leave a stale mapping (R264): an operation on the mapping that leaves `stale`, and R35's check
after it. -/
theorem Effect.noted {i : Instr} {s u : State} (hu : Effect i s u)
    (hi : opOf i = .register ∨ opOf i = .enable ∨ opOf i = .disable ∨ opOf i = .setBase ∨ opOf i = .setBacking
      ∨ opOf i = .setPolicy ∨ opOf i = .smramDisableAll ∨ opOf i = .smramEnable) :
    ∃ v, s.SameRest v ∧ u = s.noteMapChange v := by
  cases hu with
  | register => exact ⟨_, s.sameRest_registerAt _ _ _, rfl⟩
  | enable => exact ⟨_, s.sameRest_enableRgn _, rfl⟩
  | disable => exact ⟨_, s.sameRest_disableRgn _, rfl⟩
  | setBase => exact ⟨_, s.sameRest_setRgn _ _, rfl⟩
  | setBacking => exact ⟨_, s.sameRest_setRgn _ _, rfl⟩
  | setPolicy => exact ⟨_, s.sameRest_policyFill _ _ _, rfl⟩
  | smramDisableAll => exact ⟨_, forRange_sameRest _ _ s fun w t => t.sameRest_hideWindow w, rfl⟩
  | smramEnable => exact ⟨_, s.sameRest_establishWindow _ _, rfl⟩
  | _ => simp [opOf] at hi

/-- R35's check can set the flag and never clears it. -/
theorem State.SameRest.stale_noteMapChange {s v : State} (h : s.SameRest v) (hs : s.stale = true) :
    (s.noteMapChange v).stale = true := by
  rw [State.noteMapChange_stale, h.stale, hs, Bool.true_or]

/-- Settles O53, list by list: one invalidation, no write of the flag (O54), or R35's check alone. -/
theorem staleFlagByCommand : Obligations.StaleFlagByCommand := by
  intro i s t d hexec hok
  refine ⟨fun hi => ?_, ?_, fun hi hs => ?_⟩
  · rcases exec_of_invalidating s hi with hfail | ⟨u, hu, hdone⟩
    · cases hexec.symm.trans hfail
      cases hok
    · cases hexec.symm.trans hdone
      exact hu
  · obtain ⟨-, -, -, -, -, -, -, -, -, -, -, -, -, -, -, hkeeps, -⟩ := eachPartHasItsWriters i s t hexec
    exact hkeeps
  · cases ends_of_exec hexec with
    | fails e => exact hs
    | faults kind addr => exact hs
    | does u d' hu =>
      obtain ⟨v, hrest, rfl⟩ := hu.noted hi
      exact hrest.stale_noteMapChange hs

end Sys2Proof.Machine
end
